-- ==== Sys2Proof/Word.lean ====
section
/-! DEFINITION. The sizes of the machine's data: bytes, 16-bit words, 24-bit addresses, and the two
operand lengths that the flags m and x select (00_scope.md R6, R8, R10). -/

namespace Sys2Proof

/-- The addressable unit, 8 bits (R6). -/
abbrev Byte := BitVec 8

/-- The width of A, B, X, Y, S, PC, DPR and PS (R6). -/
abbrev Word := BitVec 16

/-- A 24-bit address of the one linear space; its arithmetic is modulo 2^24 (R6, R60; decision D16). -/
abbrev Addr := BitVec 24

/-- An operand length: `WM` and `WX` of R10 are `byte` for a flag value 1 and `word` for 0. -/
inductive Width where
  | byte
  | word
deriving DecidableEq, Repr

end Sys2Proof
end

