-- ==== Sys2Proof/Machine/Bits.lean ====
section
/-! DEFINITION. Byte order, bit fields and extensions (00_scope.md R8, R9; 20_memory.md R63;
30_encoding.md R99), and what an operand length does to a 16-bit value (00_scope.md R11 to R13). -/

namespace Sys2Proof

/-- Bits 7-0 (R8: the "lower" byte). -/
def lo8 (v : Word) : Byte := v.setWidth 8

/-- Bits 15-8 (R8: the "upper" byte). -/
def hi8 (v : Word) : Byte := v.extractLsb' 8 8

/-- `hi :: lo` (R9). -/
def mkWord (hi lo : Byte) : Word := hi ++ lo

/-- `bank :: offset`, a 24-bit address (R9). -/
def mkAddr (bank : Byte) (off : Word) : Addr := bank ++ off

/-- Bits 23-16 of an address (R8: the "bank"). -/
def bankOf (a : Addr) : Byte := a.extractLsb' 16 8

/-- Bits 15-0 of an address. -/
def offOf (a : Addr) : Word := a.setWidth 16

/-- `zext_16` of a byte (R9). -/
def zx8 (b : Byte) : Word := b.setWidth 16

/-- `zext_24` of a word (R9): the bank-0 address with that offset. -/
def zx24 (w : Word) : Addr := w.setWidth 24

/-- `zext_24` of a byte: an unsigned 8-bit offset added to an address. -/
def off8 (b : Byte) : Addr := b.setWidth 24

/-- `sext_24` of a byte: the displacement `rr` of the short relative forms (R9, R99). -/
def sx8 (b : Byte) : Addr := b.signExtend 24

/-- `sext_24` of a word: the displacement `rr1rr2` of BRAL (R9, R99). -/
def sx16 (w : Word) : Addr := w.signExtend 24

/-- The number of bits `8*WM` or `8*WX`. -/
def Width.bits : Width → Nat
  | .byte => 8
  | .word => 16

/-- The low `8*w` bits of a register, zero-extended: `r[7:0]` or `r[15:0]` (R11, R12). -/
def Width.trunc (w : Width) (v : Word) : Word :=
  match w with
  | .byte => zx8 (lo8 v)
  | .word => v

/-- Writing `v` into a register that holds `old`, at length `w`: an 8-bit write keeps bits 15-8
("the upper 8 bits do not change", R11, R12). -/
def Width.merge (w : Width) (old v : Word) : Word :=
  match w with
  | .byte => mkWord (hi8 old) (lo8 v)
  | .word => v

/-- The top bit of a value of length `w`: bit 7 or bit 15 (R13). -/
def Width.top (w : Width) (v : Word) : Bool :=
  match w with
  | .byte => v.getLsbD 7
  | .word => v.getLsbD 15

/-- An exact natural result narrowed to length `w`: `n mod 2^(8*w)` (R9). -/
def Width.narrow (w : Width) (n : Nat) : Word := BitVec.ofNat 16 (n % 2 ^ w.bits)

end Sys2Proof
end

