-- ==== Sys2Proof/Config.lean ====
section
/-! DEFINITION. What the source leaves to the platform or to the implementation: the named parameters
of 00_scope.md R7 (plain data, carried by the state so that every statement holds for each value of
them) and the free values of 93_implementation_defined.md (constants without a body, so that nothing
can be proved of the value). -/

namespace Sys2Proof.Config

/-- What `MEMORY_MAP` says lies at an address (R7, R81, decision D19). -/
inductive MemKind where
  | ram
  | rom
  | io
  | unmapped
deriving DecidableEq, Repr

/-- One range of `MEMORY_MAP`: the addresses `lo` to `hi`, both included. -/
structure Region where
  lo : Nat
  hi : Nat
  kind : MemKind
deriving DecidableEq, Repr

/-- A choice of bank for the pointer of an indirect jump (part of `IND_JUMP_BANK`, decision D9). -/
inductive JumpBank where
  | fixed (bank : Byte)
  | program
deriving DecidableEq, Repr

/-- `BLOCK_WRAP` (R198, decision D15). -/
inductive BlockWrap where
  | carry
  | wrap
deriving DecidableEq, Repr

/-- `RET_BIAS` (R304, decision D3): 0 or -1. -/
inductive RetBias where
  | zero
  | minusOne
deriving DecidableEq, Repr

/-- `RESET_STATE` (R54, R370, decision D2): the fields the spec gives it. -/
structure ResetState where
  pg : Byte
  dt : Byte
  dpr : Word
  ipl : BitVec 3
  i : Bool
  m : Bool
  x : Bool
deriving DecidableEq, Repr

/-- The parameters of R7. `INT_SOURCES` is not a table here: a request carries its source, level and
vector when the platform presents it (R335). -/
structure Params where
  /-- `VEC_ZERODIV`, a bank-0 address. -/
  vecZeroDiv : Word
  /-- `VEC_RESET`, a bank-0 address. -/
  vecReset : Word
  /-- `VEC_WATCHDOG`, a bank-0 address. -/
  vecWatchdog : Word
  /-- The IPL that a nonmaskable (watchdog) entry sets (R343, decision D7). -/
  watchdogIpl : BitVec 3
  /-- `RESET_STATE`. -/
  resetState : ResetState
  /-- `MEMORY_MAP`: the first region that holds an address decides; an address in none is RAM. -/
  memoryMap : List Region
  /-- `BANKI` of `IND_JUMP_BANK`: the bank of the pointer of (ABS) and L(ABS). -/
  bankI : JumpBank
  /-- `BANKX` of `IND_JUMP_BANK`: the bank of the pointer of (ABS,X). -/
  bankX : JumpBank
  /-- Whether `mmll + X` of (ABS,X) wraps inside the bank (the third part of `IND_JUMP_BANK`). -/
  indexWraps : Bool
  /-- `BLOCK_WRAP`. -/
  blockWrap : BlockWrap
  /-- `RET_BIAS`. -/
  retBias : RetBias
deriving DecidableEq, Repr

/-- The defaults of R7's table (92_eei_decisions.md, "Parameters, in one place"). PRESUMED by the spec
itself, which marks them as general knowledge. -/
def Params.default : Params where
  vecZeroDiv := 0xFFFC#16
  vecReset := 0xFFFE#16
  vecWatchdog := 0xFFF6#16
  watchdogIpl := 7#3
  resetState := { pg := 0#8, dt := 0#8, dpr := 0#16, ipl := 0#3, i := true, m := false, x := false }
  memoryMap := []
  bankI := .fixed 0#8
  bankX := .program
  indexWraps := true
  blockWrap := .carry
  retBias := .zero

/-! The free values. The first argument is the state's draw counter, which every boundary between two steps
advances, and an instruction again after its fetch, so each step draws anew. -/

/-- N after a decimal ADC (R233, U2). -/
opaque decimalAdcN : Nat → Bool
/-- V after a decimal ADC (R233, U2). -/
opaque decimalAdcV : Nat → Bool
/-- Z after a decimal ADC (R233, U2). -/
opaque decimalAdcZ : Nat → Bool
/-- N after a decimal SBC (R233, U3). -/
opaque decimalSbcN : Nat → Bool
/-- V after a decimal SBC (R233, U3). -/
opaque decimalSbcV : Nat → Bool
/-- The result of a decimal ADC or SBC with a nibble above 9 (R233, U4). -/
opaque badDigitResult : Nat → Word
/-- C after a decimal ADC or SBC with a nibble above 9 (R233, U4). -/
opaque badDigitCarry : Nat → Bool
/-- Z after a decimal SBC with a nibble above 9 (R233, U4). -/
opaque badDigitZero : Nat → Bool
/-- A after a DIV whose quotient does not fit (R240, U5). -/
opaque divOverflowA : Nat → Word
/-- B after a DIV whose quotient does not fit (R240, U5). -/
opaque divOverflowB : Nat → Word
/-- N after a DIV whose quotient does not fit (R240, U5). -/
opaque divOverflowN : Nat → Bool
/-- Z after a DIV whose quotient does not fit (R240, U5). -/
opaque divOverflowZ : Nat → Bool
/-- Whether MPY clears C or leaves it (R241, U6). -/
opaque mpyClearsCarry : Nat → Bool
/-- B[15:8] after a PUL decoded with m = 0 that restores m = 1 (R218, U7). -/
opaque pulHighByteB : Nat → Byte
/-- What a read of an unmapped address returns (R81, U12); the second argument is the address. -/
opaque unmappedByte : Nat → Nat → Byte
/-- What the platform answers to a read of an I/O address (R70, R76, R81); then the address. -/
opaque ioByte : Nat → Nat → Byte
/-- Which of the bytes that may be in the instruction queue a fetch sees (R79, U11); then the address. -/
opaque queueChoice : Nat → Nat → Nat
/-- Which of several acceptable requests of equal rank is taken (R337, U16). -/
opaque tieChoice : Nat → Nat
/-- A after the reset transition (R370, U1). -/
opaque resetA : Nat → Word
/-- B after the reset transition (R370, U1). -/
opaque resetB : Nat → Word
/-- X after the reset transition (R370, U1). -/
opaque resetX : Nat → Word
/-- Y after the reset transition (R370, U1). -/
opaque resetY : Nat → Word
/-- S after the reset transition (R370, U1). -/
opaque resetS : Nat → Word
/-- N after the reset transition (R370, U1). -/
opaque resetN : Nat → Bool
/-- V after the reset transition (R370, U1). -/
opaque resetV : Nat → Bool
/-- D after the reset transition (R370, U1). -/
opaque resetD : Nat → Bool
/-- Z after the reset transition (R370, U1). -/
opaque resetZ : Nat → Bool
/-- C after the reset transition (R370, U1). -/
opaque resetC : Nat → Bool

end Sys2Proof.Config
end

