-- ==== Sys2Proof/Syntax.lean ====
section
/-! DEFINITION. The instructions. One constructor for each of the 116 mnemonics of
spec/opcode_table.json; the table's rows of one mnemonic differ only in the accumulator and the
addressing mode, which are the constructor's arguments (30_encoding.md R103 to R105, R110). -/

namespace Sys2Proof

/-- The accumulator a form selects: A without prefix, B behind prefix 42h (R11, R94). -/
inductive Acc where
  | a
  | b
deriving DecidableEq, Repr

/-- A memory operand: one constructor per addressing mode that yields the address of a data operand,
with its operand bytes (40_addressing_modes.md R123 to R137, R143 to R146; R101 for the abbreviations).
The bit modes DIR,b and ABS,b and the bit-relative modes use `dir` and `abs`. -/
inductive Mem where
  /-- DIR -/
  | dir (dd : Byte)
  /-- DIR,X -/
  | dirX (dd : Byte)
  /-- DIR,Y -/
  | dirY (dd : Byte)
  /-- (DIR) -/
  | ind (dd : Byte)
  /-- (DIR,X) -/
  | indX (dd : Byte)
  /-- (DIR),Y -/
  | indY (dd : Byte)
  /-- L(DIR) -/
  | long (dd : Byte)
  /-- L(DIR),Y -/
  | longY (dd : Byte)
  /-- ABS -/
  | abs (mmll : Word)
  /-- ABS,X -/
  | absX (mmll : Word)
  /-- ABS,Y -/
  | absY (mmll : Word)
  /-- ABL -/
  | abl (hhmmll : Addr)
  /-- ABL,X -/
  | ablX (hhmmll : Addr)
  /-- SR -/
  | sr (nn : Byte)
  /-- (SR),Y -/
  | srY (nn : Byte)
deriving DecidableEq, Repr

/-- A source operand: an immediate (R121; an 8-bit immediate stands in the low byte) or memory. -/
inductive Operand where
  | imm (v : Word)
  | mem (m : Mem)
deriving DecidableEq, Repr

/-- The operand of ASL, LSR, ROL, ROR, INC, DEC: an accumulator (R122) or memory. -/
inductive Target where
  | acc (r : Acc)
  | mem (m : Mem)
deriving DecidableEq, Repr

/-- The operand of JMP: ABS, (ABS) or (ABS,X) (R303). -/
inductive JmpOperand where
  | abs (mmll : Word)
  | ind (mmll : Word)
  | indX (mmll : Word)
deriving DecidableEq, Repr

/-- The operand of JMPL: ABL or L(ABS) (R303). -/
inductive JmplOperand where
  | abl (hhmmll : Addr)
  | ind (mmll : Word)
deriving DecidableEq, Repr

/-- The operand of JSR: ABS or (ABS,X) (R304). -/
inductive JsrOperand where
  | abs (mmll : Word)
  | indX (mmll : Word)
deriving DecidableEq, Repr

/-- The instructions. -/
inductive Instr where
  -- load and store (41_load_store.md)
  | lda (r : Acc) (op : Operand)
  | ldal (r : Acc) (m : Mem)
  | ldm (m : Mem) (imm : Word)
  | ldt (imm : Byte)
  | ldx (op : Operand)
  | ldy (op : Operand)
  | sta (r : Acc) (m : Mem)
  | stal (r : Acc) (m : Mem)
  | stx (m : Mem)
  | sty (m : Mem)
  -- transfers, exchange, block transfers (42_transfer_block.md)
  | tad
  | tas
  | tax
  | tay
  | tbd
  | tbs
  | tbx
  | tby
  | tda
  | tdb
  | tsa
  | tsb
  | tsx
  | txa
  | txb
  | txs
  | txy
  | tya
  | tyb
  | tyx
  | xab
  | mvn (n1 n2 : Byte)
  | mvp (n1 n2 : Byte)
  -- stack (43_stack.md)
  | pha
  | phb
  | phd
  | phg
  | php
  | pht
  | phx
  | phy
  | pla
  | plb
  | pld
  | plp
  | plt
  | plx
  | ply
  | psh (nn : Byte)
  | pul (nn : Byte)
  | pea (imm : Word)
  | pei (dd : Byte)
  | per (imm : Word)
  -- arithmetic (44_arithmetic.md)
  | adc (r : Acc) (op : Operand)
  | adcl (r : Acc) (m : Mem)
  | sbc (r : Acc) (op : Operand)
  | sbcl (r : Acc) (m : Mem)
  | inc (t : Target)
  | dec (t : Target)
  | inx
  | iny
  | dex
  | dey
  | mpy (op : Operand)
  | mpyl (m : Mem)
  | div (op : Operand)
  | divl (m : Mem)
  -- logic, compare, shift and rotate (45_logic_compare_shift.md)
  | and (r : Acc) (op : Operand)
  | andl (r : Acc) (m : Mem)
  | ora (r : Acc) (op : Operand)
  | oral (r : Acc) (m : Mem)
  | eor (r : Acc) (op : Operand)
  | eorl (r : Acc) (m : Mem)
  | cmp (r : Acc) (op : Operand)
  | cmpl (r : Acc) (m : Mem)
  | cpx (op : Operand)
  | cpy (op : Operand)
  | asl (t : Target)
  | lsr (t : Target)
  | rol (t : Target)
  | ror (t : Target)
  | rla (imm : Word)
  -- bit manipulation and flags (46_bit_flag.md)
  | clb (m : Mem) (imm : Word)
  | seb (m : Mem) (imm : Word)
  | clp (imm : Byte)
  | sep (imm : Byte)
  | clc
  | sec
  | cli
  | sei
  | clm
  | sem
  | clv
  -- branch, jump, subroutine and return (47_branch_return.md)
  | bcc (rr : Byte)
  | bcs (rr : Byte)
  | beq (rr : Byte)
  | bmi (rr : Byte)
  | bne (rr : Byte)
  | bpl (rr : Byte)
  | bvc (rr : Byte)
  | bvs (rr : Byte)
  | bra (rr : Byte)
  | bral (rr : Word)
  | bbc (m : Mem) (imm : Word) (rr : Byte)
  | bbs (m : Mem) (imm : Word) (rr : Byte)
  | jmp (t : JmpOperand)
  | jmpl (t : JmplOperand)
  | jsr (t : JsrOperand)
  | jsrl (hhmmll : Addr)
  | rts
  | rtl
  | rti
  -- interrupt, special and other (48_interrupt_special_other.md)
  | brk (nn : Byte)
  | nop
  | stp
  | wit
deriving DecidableEq, Repr

end Sys2Proof
end

