-- ==== Sys2Proof/Machine/State.lean ====
section
/-! DEFINITION. The state of the machine: the ten registers (10_state.md R20), the run state (R51), the
pending requests (R52), the memory (R48), and the model's own plain data: the bytes that may still lie
in the instruction queue (20_memory.md R79), the platform's future moves (00_scope.md R17), what went
out to I/O (R81), the draw counter of the free values, and the parameters of R7. -/

namespace Sys2Proof.Machine

/-- The processor status register, "an 11-bit register" (R30, R33): eight flags and IPL. Bits 15-11 are
fixed at 0 (R43), so nothing holds them; `Psr.toWord` is the 16-bit image. -/
@[ext]
structure Psr where
  /-- bit 0, carry (R34) -/
  c : Bool
  /-- bit 1, zero (R35) -/
  z : Bool
  /-- bit 2, interrupt disable (R36) -/
  i : Bool
  /-- bit 3, decimal operation mode (R37) -/
  d : Bool
  /-- bit 4, index register length: true is 8 bits (R38) -/
  x : Bool
  /-- bit 5, data length: true is 8 bits (R39) -/
  m : Bool
  /-- bit 6, overflow (R40) -/
  v : Bool
  /-- bit 7, negative (R41) -/
  n : Bool
  /-- bits 10-8, processor interrupt priority level (R42) -/
  ipl : BitVec 3
deriving DecidableEq, Repr

/-- `run` (R51): WIT makes it `waiting`, STP `stopped`. -/
inductive RunState where
  | running
  | waiting
  | stopped
deriving DecidableEq, Repr

/-- The level of a request (R335): 0 to 7 for a maskable source, or the mark of the watchdog timer. -/
inductive Level where
  | maskable (level : BitVec 3)
  | nonmaskable
deriving DecidableEq, Repr

/-- An interrupt request `(source, level, vector)` (R335); the vector is a bank-0 address. -/
structure Request where
  source : Nat
  level : Level
  vector : Word
deriving DecidableEq, Repr

/-- A move of the platform between two steps (R17, R335, R370). -/
inductive PlatformMove where
  /-- a maskable or other source presents a request -/
  | request (r : Request)
  /-- the watchdog timer requests, through `VEC_WATCHDOG` (R343) -/
  | watchdog (source : Nat)
  /-- reset is asserted; `pending` after it is the platform's choice (R370) -/
  | reset (pending : List Request)
deriving DecidableEq, Repr

/-- The machine's state. -/
@[ext]
structure State where
  /-- accumulator A (R21) -/
  a : Word
  /-- accumulator B (R22) -/
  b : Word
  /-- index register X (R23) -/
  x : Word
  /-- index register Y (R24) -/
  y : Word
  /-- stack pointer S (R25) -/
  sp : Word
  /-- program counter PC (R26) -/
  pc : Word
  /-- program bank register PG (R27) -/
  pg : Byte
  /-- data bank register DT (R28) -/
  dt : Byte
  /-- direct page register DPR (R29) -/
  dpr : Word
  /-- processor status register PS (R30) -/
  ps : Psr
  /-- run state (R51) -/
  run : RunState
  /-- memory (R48, R60): the bytes that differ from 00h, addresses strictly rising -/
  mem : List Host.Cell
  /-- pending interrupt requests, a set: a list without repeats (R52, R335) -/
  pending : List Request
  /-- the model's own: earlier contents of bytes that were stored to while they may have lain in the
  instruction queue (R79) -/
  stale : List Host.Cell
  /-- the model's own: what the platform does at the coming boundaries, the next boundary first (R17) -/
  schedule : List (List PlatformMove)
  /-- the model's own: the writes that went to I/O, latest first (R81) -/
  ioOut : List Host.Cell
  /-- the model's own: the argument of the free values -/
  draws : Nat
  /-- the parameters of R7, which no step changes -/
  par : Config.Params
deriving DecidableEq, Repr

/-- Why the machine stops with a fault. -/
inductive Fault where
  /-- An undefined encoding at `pc0` (R106, R332, decision D4). Raised by the step when the decoder finds a
  blank cell of an instruction code table. Safe: the source gives such an encoding no effect, and the
  spec asks that a run end here. -/
  | undefinedOpcode (pc0 : Addr) (bytes : List Byte)
deriving DecidableEq, Repr

/-- Why the machine refuses an instruction. -/
inductive Refusal where
  /-- The instruction has no meaning in the model. Raised by no instruction: every arm of `exec` has its
  meaning. Safe: nothing is said of such a step. -/
  | notModelled (mnemonic : String)
deriving DecidableEq, Repr

/-- The outcome of an instruction or a step. -/
abbrev Result := Host.Outcome State Fault Refusal

/-- PS after reset (R54, R370): I = 1, m = x = 0 and IPL = 0 are the defaults of `RESET_STATE`; N, V, D, Z
and C, which the spec leaves unspecified, are 0 (DESIGN CHOICE, log entry 1). -/
def Psr.reset : Psr where
  c := false
  z := false
  i := true
  d := false
  x := false
  m := false
  v := false
  n := false
  ipl := 0#3

/-- The machine right after reset (R54, R370) with every parameter at its default and no memory listed.
PC is the word at `VEC_RESET`, which in empty memory is 0000h. A, B, X, Y and S, which the spec leaves
unspecified, are 0000h (DESIGN CHOICE, log entry 1). -/
def State.reset : State where
  a := 0#16
  b := 0#16
  x := 0#16
  y := 0#16
  sp := 0#16
  pc := 0#16
  pg := 0#8
  dt := 0#8
  dpr := 0#16
  ps := Psr.reset
  run := .running
  mem := []
  pending := []
  stale := []
  schedule := []
  ioOut := []
  draws := 0
  par := Config.Params.default

end Sys2Proof.Machine
end

