-- ==== Sys2Proof/Machine/Flags.lean ====
section
/-! DEFINITION. The image of PS as a word, and every result and flag computation of the arithmetic,
compare, shift, multiply and divide rules, on values of a given length (44_arithmetic.md,
45_logic_compare_shift.md). A value of length `byte` has bits 15-8 zero. -/

namespace Sys2Proof.Machine

/-- PS as it is pushed: 00000 :: IPL :: N V m x D I Z C (R33, R43). -/
def Psr.toWord (p : Psr) : Word :=
  0#5 ++ p.ipl ++ BitVec.ofBool p.n ++ BitVec.ofBool p.v ++ BitVec.ofBool p.m ++ BitVec.ofBool p.x
    ++ BitVec.ofBool p.d ++ BitVec.ofBool p.i ++ BitVec.ofBool p.z ++ BitVec.ofBool p.c

/-- PS from a pulled word; bits 15-11 are dropped (R43, R212). -/
def Psr.ofWord (w : Word) : Psr where
  c := w.getLsbD 0
  z := w.getLsbD 1
  i := w.getLsbD 2
  d := w.getLsbD 3
  x := w.getLsbD 4
  m := w.getLsbD 5
  v := w.getLsbD 6
  n := w.getLsbD 7
  ipl := w.extractLsb' 8 3

/-- `SetNZ(v, w)` (R13). -/
def Psr.setNZ (p : Psr) (w : Width) (v : Word) : Psr :=
  { p with n := w.top v, z := w.trunc v == 0#16 }

/-- CLP: each flag whose bit in `imm` is 1 is cleared (R115, R273). -/
def Psr.clear (p : Psr) (imm : Byte) : Psr :=
  { p with
    c := p.c && !imm.getLsbD 0
    z := p.z && !imm.getLsbD 1
    i := p.i && !imm.getLsbD 2
    d := p.d && !imm.getLsbD 3
    x := p.x && !imm.getLsbD 4
    m := p.m && !imm.getLsbD 5
    v := p.v && !imm.getLsbD 6
    n := p.n && !imm.getLsbD 7 }

/-- SEP: each flag whose bit in `imm` is 1 is set (R115, R274). -/
def Psr.set (p : Psr) (imm : Byte) : Psr :=
  { p with
    c := p.c || imm.getLsbD 0
    z := p.z || imm.getLsbD 1
    i := p.i || imm.getLsbD 2
    d := p.d || imm.getLsbD 3
    x := p.x || imm.getLsbD 4
    m := p.m || imm.getLsbD 5
    v := p.v || imm.getLsbD 6
    n := p.n || imm.getLsbD 7 }

/-- What an addition or subtraction gives: the result and the four flags it writes. -/
structure ArithOut where
  r : Word
  n : Bool
  v : Bool
  z : Bool
  c : Bool
deriving DecidableEq, Repr

/-- Writing the four flags of an addition or subtraction (R44). -/
def Psr.setArith (p : Psr) (o : ArithOut) : Psr :=
  { p with n := o.n, v := o.v, z := o.z, c := o.c }

/-- Binary ADC (R231). -/
def adcBinary (w : Width) (a b : Word) (c : Bool) : ArithOut :=
  let sum := a.toNat + b.toNat + c.toNat
  let r := w.narrow sum
  { r := r
    n := w.top r
    v := w.top a == w.top b && w.top r != w.top a
    z := r == 0#16
    c := decide (2 ^ w.bits ≤ sum) }

/-- Binary SBC (R232): `a - b - (1 - C)`, computed as an integer. -/
def sbcBinary (w : Width) (a b : Word) (c : Bool) : ArithOut :=
  let d : Int := (a.toNat : Int) - (b.toNat : Int) - (1 - (c.toNat : Int))
  let r := w.narrow (d % (2 ^ w.bits : Nat)).toNat
  { r := r
    n := w.top r
    v := w.top a != w.top b && w.top r != w.top a
    z := r == 0#16
    c := decide (0 ≤ d) }

/-- Digit `k` of a packed-BCD word: the nibble at bits 4k+3 … 4k. -/
def digit (v : Word) (k : Nat) : Nat := v.toNat / 16 ^ k % 16

/-- Every nibble is a decimal digit. The nibbles above the length are zero. -/
def bcdOk (v : Word) : Bool := digit v 0 < 10 && digit v 1 < 10 && digit v 2 < 10 && digit v 3 < 10

/-- `dec(v)` (R233): the number whose packed-BCD representation is `v`. -/
def bcdToNat (v : Word) : Nat := digit v 0 + 10 * digit v 1 + 100 * digit v 2 + 1000 * digit v 3

/-- `bcd(n)` (R233): the packed-BCD representation of a number below 10000. -/
def natToBcd (n : Nat) : Word :=
  BitVec.ofNat 16 (n % 10 + 16 * (n / 10 % 10) + 256 * (n / 100 % 10) + 4096 * (n / 1000 % 10))

/-- `10^K` with `K = 2*WM` digits (R233). -/
def Width.decLimit : Width → Nat
  | .byte => 100
  | .word => 10000

/-- Decimal ADC (R233, U2, U4): N, V and Z are free values, and with a nibble above 9 so are the result
and C. -/
def adcDecimal (draw : Nat) (w : Width) (a b : Word) (c : Bool) : ArithOut :=
  let s := bcdToNat a + bcdToNat b + c.toNat
  let ok := bcdOk a && bcdOk b
  { r := if ok then natToBcd (s % Width.decLimit w) else w.trunc (Config.badDigitResult draw)
    n := Config.decimalAdcN draw
    v := Config.decimalAdcV draw
    z := Config.decimalAdcZ draw
    c := if ok then decide (Width.decLimit w ≤ s) else Config.badDigitCarry draw }

/-- Decimal SBC (R233, U3, U4): N and V are free values, and with a nibble above 9 so are the result, C
and Z. -/
def sbcDecimal (draw : Nat) (w : Width) (a b : Word) (c : Bool) : ArithOut :=
  let s : Int := (bcdToNat a : Int) - (bcdToNat b : Int) - (1 - (c.toNat : Int))
  let r := natToBcd (s % (Width.decLimit w : Nat)).toNat
  let ok := bcdOk a && bcdOk b
  { r := if ok then r else w.trunc (Config.badDigitResult draw)
    n := Config.decimalSbcN draw
    v := Config.decimalSbcV draw
    z := if ok then r == 0#16 else Config.badDigitZero draw
    c := if ok then decide (0 ≤ s) else Config.badDigitCarry draw }

/-- The flags of CMP, CPX and CPY for `a - b` (R253 to R255): N, Z from the difference, C when `a ≥ b`. -/
def Psr.compare (p : Psr) (w : Width) (a b : Word) : Psr :=
  let r := w.narrow (((a.toNat : Int) - (b.toNat : Int)) % (2 ^ w.bits : Nat)).toNat
  { p.setNZ w r with c := decide (b.toNat ≤ a.toNat) }

/-- What a single-bit shift or rotate gives: the result and the carry out (R257 to R260). -/
structure ShiftOut where
  r : Word
  c : Bool
deriving DecidableEq, Repr

/-- ASL (R257). -/
def aslOut (w : Width) (v : Word) (_c : Bool) : ShiftOut :=
  { r := w.trunc (v <<< 1), c := w.top v }

/-- LSR (R258). -/
def lsrOut (_w : Width) (v : Word) (_c : Bool) : ShiftOut :=
  { r := v >>> 1, c := v.getLsbD 0 }

/-- ROL (R259). -/
def rolOut (w : Width) (v : Word) (c : Bool) : ShiftOut :=
  { r := w.trunc (v <<< 1) ||| BitVec.ofNat 16 c.toNat, c := w.top v }

/-- ROR (R260). -/
def rorOut (w : Width) (v : Word) (c : Bool) : ShiftOut :=
  { r := (v >>> 1) ||| BitVec.ofNat 16 (c.toNat * 2 ^ (w.bits - 1)), c := v.getLsbD 0 }

/-- Writing C, N and Z after a shift or rotate (R44). -/
def Psr.setShift (p : Psr) (w : Width) (o : ShiftOut) : Psr := { p.setNZ w o.r with c := o.c }

/-- RLA's result (R261): the value of length `w` rotated left by `n mod W` places. -/
def rotateLeft (w : Width) (v : Word) (n : Nat) : Word :=
  let k := n % w.bits
  w.narrow (v.toNat * 2 ^ k + v.toNat / 2 ^ (w.bits - k))

/-- The unsigned product of two values of length `w` (R241). -/
def product (a b : Word) : Nat := a.toNat * b.toNat

/-- MPY's flags (R241): N = bit 2W-1 of the product, Z over the whole product, C unchanged or 0. -/
def Psr.setProduct (p : Psr) (draw : Nat) (w : Width) (prod : Nat) : Psr :=
  { p with
    n := prod.testBit (2 * w.bits - 1)
    z := prod == 0
    c := if Config.mpyClearsCarry draw then false else p.c }

/-- DIV's dividend `B[W-1:0] :: A[W-1:0]` (R240). -/
def dividend (w : Width) (b a : Word) : Nat := b.toNat * 2 ^ w.bits + a.toNat

end Sys2Proof.Machine
end

