-- ==== Sys2Proof/Machine/Ops.lean ====
section
/-! DEFINITION. The named operations over memory, registers, stack and program counter (00_scope.md R10
to R15, 20_memory.md), taking an exception and returning from one (60_exceptions.md R340, R343, R347),
and the reset transition (70_reset_and_hazards.md R370). -/

namespace Sys2Proof.Machine

/-! ## Memory as a list of cells -/

/-- What an unlisted address holds (log entry 3; 95_test_vectors.md: "every memory byte not listed 00h"). -/
def blankByte : Byte := 0#8

/-- The byte at an address. -/
def memRead : List Host.Cell → Nat → Byte
  | [], _ => blankByte
  | c :: rest, a => if a = c.1 then c.2 else if a < c.1 then blankByte else memRead rest a

/-- A cell in front of a list, left out when it holds what an unlisted address holds. -/
def memCons (a : Nat) (v : Byte) (rest : List Host.Cell) : List Host.Cell :=
  if v = blankByte then rest else (a, v) :: rest

/-- Storing a byte; the list keeps its canonical form. -/
def memWrite : List Host.Cell → Nat → Byte → List Host.Cell
  | [], a, v => memCons a v []
  | c :: rest, a, v =>
    if a = c.1 then memCons a v rest
    else if a < c.1 then memCons a v (c :: rest)
    else c :: memWrite rest a v

/-- The canonical form above a bound: addresses at least `lo`, strictly rising, below 2^24, and no byte
equal to what an unlisted address holds. -/
def memWfFrom (lo : Nat) : List Host.Cell → Bool
  | [] => true
  | c :: rest => decide (lo ≤ c.1) && decide (c.1 < 2 ^ 24) && (c.2 != blankByte) && memWfFrom (c.1 + 1) rest

/-- The canonical form of memory. -/
def Memory.wf (m : List Host.Cell) : Bool := memWfFrom 0 m

/-! ## The bus: memory through `MEMORY_MAP` -/

/-- What the first region that holds the address says; RAM where none does (R7, decision D19). -/
def kindIn : List Config.Region → Nat → Config.MemKind
  | [], _ => .ram
  | r :: rest, a => if r.lo ≤ a ∧ a ≤ r.hi then r.kind else kindIn rest a

/-- What lies at an address. -/
def mapKind (s : State) (a : Addr) : Config.MemKind := kindIn s.par.memoryMap a.toNat

/-- `MemRead(a, 1)` (R9, R76, R81): memory's byte; a free value where nothing is mapped or I/O answers. -/
def busRead (s : State) (a : Addr) : Byte :=
  match mapKind s a with
  | .ram | .rom => memRead s.mem a.toNat
  | .unmapped => Config.unmappedByte s.draws a.toNat
  | .io => Config.ioByte s.draws a.toNat

/-- PG :: PC (R26). -/
def State.pc24 (s : State) : Addr := mkAddr s.pg s.pc

/-- The address is one of the three bytes that follow the instruction being executed, which may already
lie in the instruction queue (R79). -/
def inQueueWindow (s : State) (a : Addr) : Bool := decide ((a - s.pc24).toNat < 3)

/-- Memory after a one-byte write: RAM takes it; ROM and unmapped addresses drop it, I/O gets it (R81). -/
def memAfter (a : Addr) (v : Byte) (s : State) : List Host.Cell :=
  match mapKind s a with
  | .ram => memWrite s.mem a.toNat v
  | .rom | .io | .unmapped => s.mem

/-- The earlier contents that the queue may still hold after a one-byte write (R79). -/
def staleAfter (a : Addr) (s : State) : List Host.Cell :=
  match mapKind s a with
  | .ram => if inQueueWindow s a then (a.toNat, memRead s.mem a.toNat) :: s.stale else s.stale
  | .rom | .io | .unmapped => s.stale

/-- What went out to I/O after a one-byte write (R81). -/
def ioAfter (a : Addr) (v : Byte) (s : State) : List Host.Cell :=
  match mapKind s a with
  | .io => (a.toNat, v) :: s.ioOut
  | .ram | .rom | .unmapped => s.ioOut

/-- `MemWrite(a, 1, v)` (R9). -/
def busWrite (a : Addr) (v : Byte) (s : State) : State :=
  { s with mem := memAfter a v s, stale := staleAfter a s, ioOut := ioAfter a v s }

/-- `MemRead(a, 2)`: little-endian, the second byte at `a + 1` modulo 2^24 (R9, R63, R64). -/
def readWord (s : State) (a : Addr) : Word := mkWord (busRead s (a + 1#24)) (busRead s a)

/-- `MemRead(a, 3)`: a 24-bit pointer (R9, R63, R64). -/
def readAddr (s : State) (a : Addr) : Addr :=
  mkAddr (busRead s (a + 2#24)) (mkWord (busRead s (a + 1#24)) (busRead s a))

/-- `MemRead(a, w)` for an operand of length `w`, zero-extended to 16 bits (R68). -/
def readData (w : Width) (s : State) (a : Addr) : Word :=
  match w with
  | .byte => zx8 (busRead s a)
  | .word => readWord s a

/-- `MemWrite(a, w, v)`: low byte first, then the high byte at `a + 1` (R63, R64, R67). -/
def writeData (w : Width) (a : Addr) (v : Word) (s : State) : State :=
  match w with
  | .byte => busWrite a (lo8 v) s
  | .word => busWrite (a + 1#24) (hi8 v) (busWrite a (lo8 v) s)

/-! ## Registers -/

/-- The length a flag selects: 1 is 8 bits (R10). -/
def widthOf (flag : Bool) : Width := if flag then .byte else .word

/-- `WM` (R10). -/
def State.wm (s : State) : Width := widthOf s.ps.m

/-- `WX` (R10). -/
def State.wx (s : State) : Width := widthOf s.ps.x

/-- All 16 bits of an accumulator. -/
def accGet (r : Acc) (s : State) : Word :=
  match r with
  | .a => s.a
  | .b => s.b

/-- Replacing all 16 bits of an accumulator. -/
def accPut (r : Acc) (v : Word) (s : State) : State :=
  match r with
  | .a => { s with a := v }
  | .b => { s with b := v }

/-- `AccRead()` (R11). -/
def accRead (r : Acc) (s : State) : Word := s.wm.trunc (accGet r s)

/-- `AccWrite(v)` (R11). -/
def accWrite (r : Acc) (v : Word) (s : State) : State := accPut r (s.wm.merge (accGet r s) v) s

/-- `IdxVal(X)` and `IdxRead(X)`: with x = 1 the low byte, zero-extended (R12). -/
def readX (s : State) : Word := s.wx.trunc s.x

/-- `IdxVal(Y)` and `IdxRead(Y)` (R12). -/
def readY (s : State) : Word := s.wx.trunc s.y

/-- `IdxWrite(X, v)` (R12). -/
def writeX (v : Word) (s : State) : State := { s with x := s.wx.merge s.x v }

/-- `IdxWrite(Y, v)` (R12). -/
def writeY (v : Word) (s : State) : State := { s with y := s.wx.merge s.y v }

/-- `SetNZ(v, w)` (R13). -/
def setNZ (w : Width) (v : Word) (s : State) : State := { s with ps := s.ps.setNZ w v }

/-- `AccWrite(v); SetNZm(v)`: a result into an accumulator with its flags. -/
def loadAcc (r : Acc) (v : Word) (s : State) : State := setNZ s.wm v (accWrite r v s)

/-- `IdxWrite(X, v); SetNZx(v)`. -/
def loadX (v : Word) (s : State) : State := setNZ s.wx v (writeX v s)

/-- `IdxWrite(Y, v); SetNZx(v)`. -/
def loadY (v : Word) (s : State) : State := setNZ s.wx v (writeY v s)

/-! ## Stack (R14, R200) -/

/-- `Push8(v)`. -/
def push8 (v : Byte) (s : State) : State :=
  { busWrite (zx24 s.sp) v s with sp := s.sp - 1#16 }

/-- `Push16(v)`: high byte first. -/
def push16 (v : Word) (s : State) : State := push8 (lo8 v) (push8 (hi8 v) s)

/-- A push at a register length: `Push16(v)` or `Push8(v[7:0])`. -/
def pushData (w : Width) (v : Word) (s : State) : State :=
  match w with
  | .byte => push8 (lo8 v) s
  | .word => push16 v s

/-- S after pulling `n` bytes. -/
def dropStack (n : Word) (s : State) : State := { s with sp := s.sp + n }

/-- The byte that the `n`-th `Pull8()` from here returns, `n` from 1. S wraps modulo 2^16. -/
def peek8 (n : Word) (s : State) : Byte := busRead s (zx24 (s.sp + n))

/-- The word that `Pull16()` returns when it starts with the `n`-th byte: low byte first. -/
def peek16 (n : Word) (s : State) : Word := mkWord (peek8 (n + 1#16) s) (peek8 n s)

/-- What a pull at a register length returns. -/
def peekData (w : Width) (s : State) : Word :=
  match w with
  | .byte => zx8 (peek8 1#16 s)
  | .word => peek16 1#16 s

/-- How many bytes a pull at a register length takes. -/
def pullCount (w : Width) : Word :=
  match w with
  | .byte => 1#16
  | .word => 2#16

/-- A pull at a register length, its value discarded: S moves past it. -/
def pullData (w : Width) (s : State) : State := dropStack (pullCount w) s

/-! ## Program counter -/

/-- PG :: PC advanced by `n` bytes as one 24-bit number (R15, R31, R32). -/
def advancePc (n : Nat) (s : State) : State :=
  let t := s.pc24 + BitVec.ofNat 24 n
  { s with pg := bankOf t, pc := offOf t }

/-- `pc <- target`: a control transfer, after which the instruction queue is refilled from memory (R9,
R79). -/
def jumpTo (target : Addr) (s : State) : State :=
  { s with pg := bankOf target, pc := offOf target, stale := [] }

/-- A relative branch: taken, PG :: PC moves by the displacement modulo 2^24 (R290). -/
def branchIf (taken : Bool) (disp : Addr) (s : State) : State :=
  if taken then jumpTo (s.pc24 + disp) s else s

/-- `RET_BIAS` as a 24-bit number (R304, decision D3). -/
def retBias (s : State) : Addr :=
  match s.par.retBias with
  | .zero => 0#24
  | .minusOne => 0xFFFFFF#24

/-! ## Exceptions -/

/-- A vector: two bytes of bank 0, low byte at the lower address; the increment stays in bank 0 (R64,
R338; log entry 8). -/
def readVector (s : State) (vector : Word) : Word :=
  mkWord (busRead s (zx24 (vector + 1#16))) (busRead s (zx24 vector))

/-- The five bytes of the entry sequence: PG, PC_H, PC_L of the return address, then PS_H, PS_L (R308,
R340). -/
def pushFrame (ret : Addr) (s : State) : State :=
  push16 s.ps.toWord (push16 (offOf ret) (push8 (bankOf ret) s))

/-- TAKING AN EXCEPTION: the entry sequence common to BRK, zero division and accepted interrupts (R340).
`ipl` is the level that an interrupt sets, or none. -/
def enterException (ret : Addr) (vector : Word) (ipl : Option (BitVec 3)) (s : State) : State :=
  let t := pushFrame ret s
  let u := { t with ps := { t.ps with i := true, ipl := ipl.getD t.ps.ipl }, run := RunState.running }
  jumpTo (mkAddr 0#8 (readVector u vector)) u

/-- RETURN FROM AN EXCEPTION: PS_L, PS_H, PC_L, PC_H, PG are pulled (R307, R347). -/
def returnException (s : State) : State :=
  let t := dropStack 5#16 { s with ps := Psr.ofWord (peek16 1#16 s) }
  jumpTo (mkAddr (peek8 5#16 s) (peek16 3#16 s)) t

/-- A request joins the set `pending`: one that is in it already changes nothing (R52, R335). -/
def addRequest (pending : List Request) (r : Request) : List Request :=
  if r ∈ pending then pending else pending ++ [r]

/-- A request leaves the set `pending` (R335). -/
def removeRequest (pending : List Request) (r : Request) : List Request :=
  pending.filter fun q => decide (q ≠ r)

/-- The reset transition (R370): the fields of `RESET_STATE`, PC from `VEC_RESET`, and free values for
what the spec leaves unspecified. Memory is kept. -/
def resetTransition (pending : List Request) (s : State) : State :=
  let r := s.par.resetState
  { s with
    a := Config.resetA s.draws
    b := Config.resetB s.draws
    x := Config.resetX s.draws
    y := Config.resetY s.draws
    sp := Config.resetS s.draws
    pc := readVector s s.par.vecReset
    pg := r.pg
    dt := r.dt
    dpr := r.dpr
    ps :=
      { c := Config.resetC s.draws
        z := Config.resetZ s.draws
        i := r.i
        d := Config.resetD s.draws
        x := r.x
        m := r.m
        v := Config.resetV s.draws
        n := Config.resetN s.draws
        ipl := r.ipl }
    run := .running
    pending := pending.foldl addRequest []
    stale := []
    draws := s.draws + 1 }

end Sys2Proof.Machine
end

