-- ==== Sys2Proof/Machine/Operands.lean ====
section
/-! DEFINITION. The addressing modes: effective addresses, operand access and jump targets
(40_addressing_modes.md; 41_load_store.md R160). -/

namespace Sys2Proof.Machine

/-- `D0 = zext_24(DPR) + dd` (R149). -/
def directBase (dd : Byte) (s : State) : Addr := zx24 s.dpr + off8 dd

/-- `zext_24(S) + nn` (R145). -/
def stackBase (nn : Byte) (s : State) : Addr := zx24 s.sp + off8 nn

/-- The effective address of a memory operand (R123 to R137, R143 to R146). All sums are 24-bit linear
(R148). -/
def effAddr (k : Mem) (s : State) : Addr :=
  match k with
  | .dir dd => directBase dd s
  | .dirX dd => directBase dd s + zx24 (readX s)
  | .dirY dd => directBase dd s + zx24 (readY s)
  | .ind dd => mkAddr s.dt (readWord s (directBase dd s))
  | .indX dd => mkAddr s.dt (readWord s (directBase dd s + zx24 (readX s)))
  | .indY dd => mkAddr s.dt (readWord s (directBase dd s)) + zx24 (readY s)
  | .long dd => readAddr s (directBase dd s)
  | .longY dd => readAddr s (directBase dd s) + zx24 (readY s)
  | .abs mmll => mkAddr s.dt mmll
  | .absX mmll => mkAddr s.dt mmll + zx24 (readX s)
  | .absY mmll => mkAddr s.dt mmll + zx24 (readY s)
  | .abl hhmmll => hhmmll
  | .ablX hhmmll => hhmmll + zx24 (readX s)
  | .sr nn => stackBase nn s
  | .srY nn => mkAddr s.dt (readWord s (stackBase nn s)) + zx24 (readY s)

/-- `MemRead(EA, w)` (R160). -/
def memOperand (w : Width) (k : Mem) (s : State) : Word := readData w s (effAddr k s)

/-- `OpRead(w)` of a source operand: the immediate, or memory at EA (R121, R160). -/
def opRead (w : Width) (o : Operand) (s : State) : Word :=
  match o with
  | .imm v => w.trunc v
  | .mem k => memOperand w k s

/-- `OpRead(WM)` of a read-modify-write target (R122, R160). -/
def targetRead (t : Target) (s : State) : Word :=
  match t with
  | .acc r => accRead r s
  | .mem k => memOperand s.wm k s

/-- `OpWrite(WM, v)` of a read-modify-write target: EA is computed once, from the state in which the
operand was read (R122, R160). -/
def targetWrite (t : Target) (v : Word) (s : State) : State :=
  match t with
  | .acc r => accWrite r v s
  | .mem k => writeData s.wm (effAddr k s) v s

/-- The bank that a part of `IND_JUMP_BANK` names (R138 to R140, decision D9). -/
def jumpBank (b : Config.JumpBank) (s : State) : Byte :=
  match b with
  | .fixed bank => bank
  | .program => s.pg

/-- The address of the pointer of (ABS) and L(ABS) (R138, R139). -/
def indirectPointer (mmll : Word) (s : State) : Addr := mkAddr (jumpBank s.par.bankI s) mmll

/-- The address of the pointer of (ABS,X) (R140). -/
def indexedPointer (mmll : Word) (s : State) : Addr :=
  let bank := jumpBank s.par.bankX s
  if s.par.indexWraps then mkAddr bank (mmll + readX s) else mkAddr bank mmll + zx24 (readX s)

end Sys2Proof.Machine
end

