-- ==== Sys2Proof/Machine/Arithmetic.lean ====
section
/-! DEFINITION. The meanings of the arithmetic instructions (44_arithmetic.md). -/

namespace Sys2Proof.Machine

/-- The result of an addition into an accumulator, in the mode that D selects (R231, R233). -/
def addOut (r : Acc) (v : Word) (s : State) : ArithOut :=
  if s.ps.d then adcDecimal s.draws s.wm (accRead r s) v s.ps.c
  else adcBinary s.wm (accRead r s) v s.ps.c

/-- The result of a subtraction from an accumulator, in the mode that D selects (R232, R233). -/
def subOut (r : Acc) (v : Word) (s : State) : ArithOut :=
  if s.ps.d then sbcDecimal s.draws s.wm (accRead r s) v s.ps.c
  else sbcBinary s.wm (accRead r s) v s.ps.c

/-- A result into an accumulator, with its four flags. -/
def putArith (r : Acc) (o : ArithOut) (s : State) : State :=
  { accWrite r o.r s with ps := s.ps.setArith o }

/-- ADC (R231, R233). -/
def execAdc (r : Acc) (op : Operand) (s : State) : Result :=
  .next (putArith r (addOut r (opRead s.wm op s) s) s)

/-- ADC, long indirect forms (R231, R233). -/
def execAdcl (r : Acc) (k : Mem) (s : State) : Result :=
  .next (putArith r (addOut r (memOperand s.wm k s) s) s)

/-- SBC (R232, R233). -/
def execSbc (r : Acc) (op : Operand) (s : State) : Result :=
  .next (putArith r (subOut r (opRead s.wm op s) s) s)

/-- SBC, long indirect forms (R232, R233). -/
def execSbcl (r : Acc) (k : Mem) (s : State) : Result :=
  .next (putArith r (subOut r (memOperand s.wm k s) s) s)

/-- A read, a change and a write with N and Z by m: INC and DEC (R160, R234, R235). -/
def modifyTarget (t : Target) (f : Word → Word) (s : State) : State :=
  let v := s.wm.trunc (f (targetRead t s))
  setNZ s.wm v (targetWrite t v s)

/-- INC (R234). -/
def execInc (t : Target) (s : State) : Result := .next (modifyTarget t (· + 1#16) s)

/-- DEC (R235). -/
def execDec (t : Target) (s : State) : Result := .next (modifyTarget t (· - 1#16) s)

/-- INX (R236). -/
def execInx (s : State) : Result := .next (loadX (readX s + 1#16) s)

/-- INY (R237). -/
def execIny (s : State) : Result := .next (loadY (readY s + 1#16) s)

/-- DEX (R238). -/
def execDex (s : State) : Result := .next (loadX (readX s - 1#16) s)

/-- DEY (R239). -/
def execDey (s : State) : Result := .next (loadY (readY s - 1#16) s)

/-- A 2W-bit value into B (upper half) and A (lower half) at the data length (R240, R241). -/
def putPair (hi lo : Word) (s : State) : State := accWrite .b hi (accWrite .a lo s)

/-- The multiplication of A by `v` (R241). -/
def multiply (v : Word) (s : State) : State :=
  let p := product (accRead .a s) v
  { putPair (s.wm.narrow (p / 2 ^ s.wm.bits)) (s.wm.narrow p) s with
    ps := s.ps.setProduct s.draws s.wm p }

/-- MPY (R241). -/
def execMpy (op : Operand) (s : State) : Result := .next (multiply (opRead s.wm op s) s)

/-- MPY, long indirect forms (R241). -/
def execMpyl (k : Mem) (s : State) : Result := .next (multiply (memOperand s.wm k s) s)

/-- DIV with a quotient `q` that fits and remainder `r` (R240). -/
def divideFits (q r : Nat) (s : State) : State :=
  { putPair (s.wm.narrow r) (s.wm.narrow q) s with
    ps := { s.ps.setNZ s.wm (s.wm.narrow q) with v := false, c := false } }

/-- DIV with a quotient that does not fit: V and C are 1; A, B, N and Z are free values (R240, U5). -/
def divideOverflows (s : State) : State :=
  { putPair (Config.divOverflowB s.draws) (Config.divOverflowA s.draws) s with
    ps := { s.ps with
      v := true
      c := true
      n := Config.divOverflowN s.draws
      z := Config.divOverflowZ s.draws } }

/-- The division of B :: A by `v`, or the zero-division exception, whose frame holds the PS before the DIV
and the address of the instruction after it (R240; 60_exceptions.md R342, decision D8). -/
def divide (v : Word) (s : State) : State :=
  if v = 0#16 then enterException s.pc24 s.par.vecZeroDiv none s
  else
    let n := dividend s.wm (accRead .b s) (accRead .a s)
    if 2 ^ s.wm.bits ≤ n / v.toNat then divideOverflows s
    else divideFits (n / v.toNat) (n % v.toNat) s

/-- DIV (R240). -/
def execDiv (op : Operand) (s : State) : Result := .next (divide (opRead s.wm op s) s)

/-- DIV, long indirect forms (R240). -/
def execDivl (k : Mem) (s : State) : Result := .next (divide (memOperand s.wm k s) s)

end Sys2Proof.Machine
end

