-- ==== Sys2Proof/Machine/BitFlag.lean ====
section
/-! DEFINITION. The meanings of the bit manipulation and flag instructions (46_bit_flag.md). -/

namespace Sys2Proof.Machine

/-- CLB (R270, R271): one read and one write, no flag. -/
def execClb (k : Mem) (imm : Word) (s : State) : Result :=
  .next (writeData s.wm (effAddr k s) (memOperand s.wm k s &&& ~~~imm) s)

/-- SEB (R270, R272): one read and one write, no flag. -/
def execSeb (k : Mem) (imm : Word) (s : State) : Result :=
  .next (writeData s.wm (effAddr k s) (memOperand s.wm k s ||| imm) s)

/-- CLP (R273). -/
def execClp (imm : Byte) (s : State) : Result := .next { s with ps := s.ps.clear imm }

/-- SEP (R274). -/
def execSep (imm : Byte) (s : State) : Result := .next { s with ps := s.ps.set imm }

/-- CLC (R276). -/
def execClc (s : State) : Result := .next { s with ps := { s.ps with c := false } }

/-- SEC (R280). -/
def execSec (s : State) : Result := .next { s with ps := { s.ps with c := true } }

/-- CLI (R277). -/
def execCli (s : State) : Result := .next { s with ps := { s.ps with i := false } }

/-- SEI (R281). -/
def execSei (s : State) : Result := .next { s with ps := { s.ps with i := true } }

/-- CLM (R278). -/
def execClm (s : State) : Result := .next { s with ps := { s.ps with m := false } }

/-- SEM (R282). -/
def execSem (s : State) : Result := .next { s with ps := { s.ps with m := true } }

/-- CLV (R279). -/
def execClv (s : State) : Result := .next { s with ps := { s.ps with v := false } }

end Sys2Proof.Machine
end

