-- ==== Sys2Proof/Machine/Branch.lean ====
section
/-! DEFINITION. The meanings of the branches, jumps, calls and returns (47_branch_return.md). -/

namespace Sys2Proof.Machine

/-- BCC (R291). -/
def execBcc (rr : Byte) (s : State) : Result := .next (branchIf (!s.ps.c) (sx8 rr) s)

/-- BCS (R292). -/
def execBcs (rr : Byte) (s : State) : Result := .next (branchIf s.ps.c (sx8 rr) s)

/-- BEQ (R293). -/
def execBeq (rr : Byte) (s : State) : Result := .next (branchIf s.ps.z (sx8 rr) s)

/-- BMI (R294). -/
def execBmi (rr : Byte) (s : State) : Result := .next (branchIf s.ps.n (sx8 rr) s)

/-- BNE (R295). -/
def execBne (rr : Byte) (s : State) : Result := .next (branchIf (!s.ps.z) (sx8 rr) s)

/-- BPL (R296). -/
def execBpl (rr : Byte) (s : State) : Result := .next (branchIf (!s.ps.n) (sx8 rr) s)

/-- BVC (R297). -/
def execBvc (rr : Byte) (s : State) : Result := .next (branchIf (!s.ps.v) (sx8 rr) s)

/-- BVS (R298). -/
def execBvs (rr : Byte) (s : State) : Result := .next (branchIf s.ps.v (sx8 rr) s)

/-- BRA (R299). -/
def execBra (rr : Byte) (s : State) : Result := .next (branchIf true (sx8 rr) s)

/-- BRAL (R299). -/
def execBral (rr : Word) (s : State) : Result := .next (branchIf true (sx16 rr) s)

/-- BBC (R300, R301): every bit of the mask is 0 in the operand. -/
def execBbc (k : Mem) (imm : Word) (rr : Byte) (s : State) : Result :=
  .next (branchIf (memOperand s.wm k s &&& s.wm.trunc imm == 0#16) (sx8 rr) s)

/-- BBS (R300, R302): every bit of the mask is 1 in the operand. -/
def execBbs (k : Mem) (imm : Word) (rr : Byte) (s : State) : Result :=
  .next (branchIf (~~~memOperand s.wm k s &&& s.wm.trunc imm == 0#16) (sx8 rr) s)

/-- JMP (R303): PG is kept. -/
def execJmp (t : JmpOperand) (s : State) : Result :=
  match t with
  | .abs mmll => .next (jumpTo (mkAddr s.pg mmll) s)
  | .ind mmll => .next (jumpTo (mkAddr s.pg (readWord s (indirectPointer mmll s))) s)
  | .indX mmll => .next (jumpTo (mkAddr s.pg (readWord s (indexedPointer mmll s))) s)

/-- JMPL (R303). -/
def execJmpl (t : JmplOperand) (s : State) : Result :=
  match t with
  | .abl hhmmll => .next (jumpTo hhmmll s)
  | .ind mmll => .next (jumpTo (readAddr s (indirectPointer mmll s)) s)

/-- The return address that JSR and JSRL push (R304, decision D3). -/
def returnAddress (s : State) : Addr := s.pc24 + retBias s

/-- JSR (R304): PC is pushed, PG is kept; in the indexed form the pushes precede the pointer read. -/
def execJsr (t : JsrOperand) (s : State) : Result :=
  let u := push16 (offOf (returnAddress s)) s
  match t with
  | .abs mmll => .next (jumpTo (mkAddr s.pg mmll) u)
  | .indX mmll => .next (jumpTo (mkAddr s.pg (readWord u (indexedPointer mmll s))) u)

/-- JSRL (R304). -/
def execJsrl (hhmmll : Addr) (s : State) : Result :=
  let ret := returnAddress s
  .next (jumpTo hhmmll (push16 (offOf ret) (push8 (bankOf ret) s)))

/-- RTS (R305): PG is kept. -/
def execRts (s : State) : Result :=
  .next (jumpTo (mkAddr s.pg (peek16 1#16 s - offOf (retBias s))) (dropStack 2#16 s))

/-- RTL (R306). -/
def execRtl (s : State) : Result :=
  .next (jumpTo (mkAddr (peek8 3#16 s) (peek16 1#16 s) - retBias s) (dropStack 3#16 s))

/-- RTI (R307; 60_exceptions.md R347). -/
def execRti (s : State) : Result := .next (returnException s)

end Sys2Proof.Machine
end

