-- ==== Sys2Proof/Machine/LoadStore.lean ====
section
/-! DEFINITION. The meanings of the load and store instructions (41_load_store.md). Every meaning is
entered with PG :: PC already past the instruction (00_scope.md R19, 41_load_store.md R160). -/

namespace Sys2Proof.Machine

/-- LDA (R161). -/
def execLda (r : Acc) (op : Operand) (s : State) : Result := .next (loadAcc r (opRead s.wm op s) s)

/-- LDA, long indirect forms (R161). -/
def execLdal (r : Acc) (k : Mem) (s : State) : Result := .next (loadAcc r (memOperand s.wm k s) s)

/-- LDM (R162). -/
def execLdm (k : Mem) (imm : Word) (s : State) : Result := .next (writeData s.wm (effAddr k s) imm s)

/-- LDT (R163): 8 bits whatever m and x are. -/
def execLdt (imm : Byte) (s : State) : Result := .next { s with dt := imm }

/-- LDX (R164). -/
def execLdx (op : Operand) (s : State) : Result := .next (loadX (opRead s.wx op s) s)

/-- LDY (R165). -/
def execLdy (op : Operand) (s : State) : Result := .next (loadY (opRead s.wx op s) s)

/-- STA (R166; 90_conflicts.md C2: one byte when m = 1). -/
def execSta (r : Acc) (k : Mem) (s : State) : Result :=
  .next (writeData s.wm (effAddr k s) (accRead r s) s)

/-- STA, long indirect forms (R166). -/
def execStal (r : Acc) (k : Mem) (s : State) : Result :=
  .next (writeData s.wm (effAddr k s) (accRead r s) s)

/-- STX (R167). -/
def execStx (k : Mem) (s : State) : Result := .next (writeData s.wx (effAddr k s) (readX s) s)

/-- STY (R168). -/
def execSty (k : Mem) (s : State) : Result := .next (writeData s.wx (effAddr k s) (readY s) s)

end Sys2Proof.Machine
end

