-- ==== Sys2Proof/Machine/Logic.lean ====
section
/-! DEFINITION. The meanings of the logic, compare, shift and rotate instructions
(45_logic_compare_shift.md). -/

namespace Sys2Proof.Machine

/-- AND (R250). -/
def execAnd (r : Acc) (op : Operand) (s : State) : Result :=
  .next (loadAcc r (accRead r s &&& opRead s.wm op s) s)

/-- AND, long indirect forms (R250). -/
def execAndl (r : Acc) (k : Mem) (s : State) : Result :=
  .next (loadAcc r (accRead r s &&& memOperand s.wm k s) s)

/-- ORA (R251). -/
def execOra (r : Acc) (op : Operand) (s : State) : Result :=
  .next (loadAcc r (accRead r s ||| opRead s.wm op s) s)

/-- ORA, long indirect forms (R251). -/
def execOral (r : Acc) (k : Mem) (s : State) : Result :=
  .next (loadAcc r (accRead r s ||| memOperand s.wm k s) s)

/-- EOR (R252). -/
def execEor (r : Acc) (op : Operand) (s : State) : Result :=
  .next (loadAcc r (accRead r s ^^^ opRead s.wm op s) s)

/-- EOR, long indirect forms (R252). -/
def execEorl (r : Acc) (k : Mem) (s : State) : Result :=
  .next (loadAcc r (accRead r s ^^^ memOperand s.wm k s) s)

/-- The flags of a comparison of `a` with `v` at length `w`; nothing else changes (R253 to R255). -/
def compareAt (w : Width) (a v : Word) (s : State) : State := { s with ps := s.ps.compare w a v }

/-- CMP (R253). -/
def execCmp (r : Acc) (op : Operand) (s : State) : Result :=
  .next (compareAt s.wm (accRead r s) (opRead s.wm op s) s)

/-- CMP, long indirect forms (R253). -/
def execCmpl (r : Acc) (k : Mem) (s : State) : Result :=
  .next (compareAt s.wm (accRead r s) (memOperand s.wm k s) s)

/-- CPX (R254). -/
def execCpx (op : Operand) (s : State) : Result :=
  .next (compareAt s.wx (readX s) (opRead s.wx op s) s)

/-- CPY (R255). -/
def execCpy (op : Operand) (s : State) : Result :=
  .next (compareAt s.wx (readY s) (opRead s.wx op s) s)

/-- A shift or rotate by one bit, of an accumulator or of memory (R256). -/
def shiftBy (f : Width → Word → Bool → ShiftOut) (t : Target) (s : State) : State :=
  let o := f s.wm (targetRead t s) s.ps.c
  { targetWrite t o.r s with ps := s.ps.setShift s.wm o }

/-- ASL (R257). -/
def execAsl (t : Target) (s : State) : Result := .next (shiftBy aslOut t s)

/-- LSR (R258). -/
def execLsr (t : Target) (s : State) : Result := .next (shiftBy lsrOut t s)

/-- ROL (R259). -/
def execRol (t : Target) (s : State) : Result := .next (shiftBy rolOut t s)

/-- ROR (R260). -/
def execRor (t : Target) (s : State) : Result := .next (shiftBy rorOut t s)

/-- RLA (R261): no flag. -/
def execRla (imm : Word) (s : State) : Result :=
  .next (accWrite .a (rotateLeft s.wm (accRead .a s) (s.wm.trunc imm).toNat) s)

end Sys2Proof.Machine
end

