-- ==== Sys2Proof/Machine/Special.lean ====
section
/-! DEFINITION. The meanings of BRK, NOP, STP and WIT (48_interrupt_special_other.md). -/

namespace Sys2Proof.Machine

/-- The BRK vector, fixed by the source (R320, R338). -/
def vecBrk : Word := 0xFFFA#16

/-- BRK (R320; 60_exceptions.md R341): the second byte is ignored; IPL is kept; not maskable. -/
def execBrk (_nn : Byte) (s : State) : Result := .next (enterException s.pc24 vecBrk none s)

/-- NOP (R321). -/
def execNop (s : State) : Result := .next s

/-- STP (R322). -/
def execStp (s : State) : Result := .next { s with run := .stopped }

/-- WIT (R323). -/
def execWit (s : State) : Result := .next { s with run := .waiting }

end Sys2Proof.Machine
end

