-- ==== Sys2Proof/Machine/Stack.lean ====
section
/-! DEFINITION. The meanings of the stack instructions (43_stack.md). -/

namespace Sys2Proof.Machine

/-- PHA (R201). -/
def execPha (s : State) : Result := .next (pushData s.wm s.a s)

/-- PHB (R202). -/
def execPhb (s : State) : Result := .next (pushData s.wm s.b s)

/-- PHD (R203). -/
def execPhd (s : State) : Result := .next (push16 s.dpr s)

/-- PHG (R204): PG of the instruction that follows. -/
def execPhg (s : State) : Result := .next (push8 s.pg s)

/-- PHP (R205). -/
def execPhp (s : State) : Result := .next (push16 s.ps.toWord s)

/-- PHT (R206). -/
def execPht (s : State) : Result := .next (push8 s.dt s)

/-- PHX (R207). -/
def execPhx (s : State) : Result := .next (pushData s.wx s.x s)

/-- PHY (R208). -/
def execPhy (s : State) : Result := .next (pushData s.wx s.y s)

/-- PLA (R209). -/
def execPla (s : State) : Result := .next (pullData s.wm (loadAcc .a (peekData s.wm s) s))

/-- PLB (R210). -/
def execPlb (s : State) : Result := .next (pullData s.wm (loadAcc .b (peekData s.wm s) s))

/-- PLD (R211): no flag. -/
def execPld (s : State) : Result := .next (dropStack 2#16 { s with dpr := peek16 1#16 s })

/-- PLP (R212). -/
def execPlp (s : State) : Result := .next (dropStack 2#16 { s with ps := Psr.ofWord (peek16 1#16 s) })

/-- PLT (R213): N and Z by the byte, whatever m is. -/
def execPlt (s : State) : Result :=
  let v := peek8 1#16 s
  .next (dropStack 1#16 (setNZ .byte (zx8 v) { s with dt := v }))

/-- PLX (R214). -/
def execPlx (s : State) : Result := .next (pullData s.wx (loadX (peekData s.wx s) s))

/-- PLY (R215). -/
def execPly (s : State) : Result := .next (pullData s.wx (loadY (peekData s.wx s) s))

/-- One register of PSH or PUL: done when its bit is 1 (30_encoding.md R114). -/
def onBit (bit : Bool) (f : State → State) (s : State) : State := if bit then f s else s

/-- PSH (R216): the selected registers in the order A, B, X, Y, DPR, DT, PG, PS. -/
def execPsh (nn : Byte) (s : State) : Result :=
  .next <|
    onBit (nn.getLsbD 7) (push16 s.ps.toWord) <|
    onBit (nn.getLsbD 6) (push8 s.pg) <|
    onBit (nn.getLsbD 5) (push8 s.dt) <|
    onBit (nn.getLsbD 4) (push16 s.dpr) <|
    onBit (nn.getLsbD 3) (pushData s.wx s.y) <|
    onBit (nn.getLsbD 2) (pushData s.wx s.x) <|
    onBit (nn.getLsbD 1) (pushData s.wm s.b) <|
    onBit (nn.getLsbD 0) (pushData s.wm s.a) s

/-- PUL's restore of PS. -/
def pulPs (s : State) : State := dropStack 2#16 { s with ps := Psr.ofWord (peek16 1#16 s) }

/-- PUL's restore of DT: no flag. -/
def pulDt (s : State) : State := dropStack 1#16 { s with dt := peek8 1#16 s }

/-- PUL's restore of DPR. -/
def pulDpr (s : State) : State := dropStack 2#16 { s with dpr := peek16 1#16 s }

/-- PUL's restore of Y at the length that x selects now: no flag. -/
def pulY (s : State) : State := pullData s.wx (writeY (peekData s.wx s) s)

/-- PUL's restore of X at the length that x selects now: no flag. -/
def pulX (s : State) : State := pullData s.wx (writeX (peekData s.wx s) s)

/-- PUL's restore of an accumulator at the length that m selects now: no flag. -/
def pulAcc (r : Acc) (s : State) : State := pullData s.wm (accWrite r (peekData s.wm s) s)

/-- The upper byte of B is open after a PUL decoded with m = 0 whose restored PS has m = 1 (R218, U7). -/
def pulOpenB (s : State) : State := { s with b := mkWord (Config.pulHighByteB s.draws) (lo8 s.b) }

/-- PUL (R217, R218, decisions D13, D14): PS first, whose m and x then size the registers; bit 6 has no
register. -/
def execPul (nn : Byte) (s : State) : Result :=
  let t :=
    onBit (nn.getLsbD 0) (pulAcc .a) <|
    onBit (nn.getLsbD 1) (pulAcc .b) <|
    onBit (nn.getLsbD 2) pulX <|
    onBit (nn.getLsbD 3) pulY <|
    onBit (nn.getLsbD 4) pulDpr <|
    onBit (nn.getLsbD 5) pulDt <|
    onBit (nn.getLsbD 7) pulPs s
  .next (onBit (nn.getLsbD 7 && !s.ps.m && t.ps.m) pulOpenB t)

/-- PEA (R221). -/
def execPea (imm : Word) (s : State) : Result := .next (push16 imm s)

/-- PEI (R222). -/
def execPei (dd : Byte) (s : State) : Result := .next (push16 (readWord s (directBase dd s)) s)

/-- PER (R223): a 16-bit sum; `RET_BIAS` moves its base (decision D3). -/
def execPer (imm : Word) (s : State) : Result :=
  .next (push16 (s.pc + imm + offOf (retBias s)) s)

end Sys2Proof.Machine
end

