-- ==== Sys2Proof/Machine/Transfer.lean ====
section
/-! DEFINITION. The meanings of the register transfers, of XAB and of the block transfers
(42_transfer_block.md). The length copied is the destination's (R170). -/

namespace Sys2Proof.Machine

/-- TAD (R171): 16 bits whatever m is. -/
def execTad (s : State) : Result := .next { s with dpr := s.a }

/-- TAS (R172): 16 bits whatever m is. -/
def execTas (s : State) : Result := .next { s with sp := s.a }

/-- TAX (R173): m plays no part. -/
def execTax (s : State) : Result := .next (loadX s.a s)

/-- TAY (R174). -/
def execTay (s : State) : Result := .next (loadY s.a s)

/-- TBD (R175). -/
def execTbd (s : State) : Result := .next { s with dpr := s.b }

/-- TBS (R176). -/
def execTbs (s : State) : Result := .next { s with sp := s.b }

/-- TBX (R177). -/
def execTbx (s : State) : Result := .next (loadX s.b s)

/-- TBY (R178). -/
def execTby (s : State) : Result := .next (loadY s.b s)

/-- TDA (R179). -/
def execTda (s : State) : Result := .next (loadAcc .a s.dpr s)

/-- TDB (R180). -/
def execTdb (s : State) : Result := .next (loadAcc .b s.dpr s)

/-- TSA (R181). -/
def execTsa (s : State) : Result := .next (loadAcc .a s.sp s)

/-- TSB (R182). -/
def execTsb (s : State) : Result := .next (loadAcc .b s.sp s)

/-- TSX (R183). -/
def execTsx (s : State) : Result := .next (loadX s.sp s)

/-- TXA (R184): with m = 0 and x = 1 the upper byte is 00h. -/
def execTxa (s : State) : Result := .next (loadAcc .a (readX s) s)

/-- TXB (R185). -/
def execTxb (s : State) : Result := .next (loadAcc .b (readX s) s)

/-- TXS (R186): with x = 1 the upper byte is 00h; no flag. -/
def execTxs (s : State) : Result := .next { s with sp := readX s }

/-- TXY (R187). -/
def execTxy (s : State) : Result := .next (loadY (readX s) s)

/-- TYA (R188). -/
def execTya (s : State) : Result := .next (loadAcc .a (readY s) s)

/-- TYB (R189). -/
def execTyb (s : State) : Result := .next (loadAcc .b (readY s) s)

/-- TYX (R190). -/
def execTyx (s : State) : Result := .next (loadX (readY s) s)

/-- XAB (R191, decision D20): with m = 1 only the low bytes are exchanged; N and Z from the new A. -/
def execXab (s : State) : Result :=
  let a := accRead .a s
  let b := accRead .b s
  .next (loadAcc .a b (accWrite .b a s))

/-- The address of element `j` of a block (R198); `j` is negative for MVP, as a 24-bit number. With x = 1
the middle byte is fixed at 00h; else `BLOCK_WRAP` says whether a carry reaches the bank. -/
def blockAddr (bank : Byte) (index : Word) (j : Addr) (s : State) : Addr :=
  match s.wx, s.par.blockWrap with
  | .byte, _ => mkAddr bank (zx8 (lo8 index + lo8 (offOf j)))
  | .word, .carry => mkAddr bank index + j
  | .word, .wrap => mkAddr bank (index + offOf j)

/-- The first `n` byte transfers of a block: byte `k` from `src k` to `dst k`, each read and then written
before the next (R196, R197). -/
def moveBytes (src dst : Nat → Addr) : Nat → State → State
  | 0, s => s
  | n + 1, s =>
    let t := moveBytes src dst n s
    busWrite (dst n) (busRead t (src n)) t

/-- The registers after a block transfer of which X and Y have moved by `d`: A is FFFFh (FFh in its low
byte when m = 1) and DT is the target bank, for a count of 0 too (R196, R197, R199, decision D15). -/
def blockEnd (n1 : Byte) (d : Word) (s : State) : State :=
  { writeY (readY s + d) (writeX (readX s + d) (accWrite .a 0xFFFF#16 s)) with dt := n1 }

/-- MVN (R195, R196, R198, R199): ascending. -/
def execMvn (n1 n2 : Byte) (s : State) : Result :=
  let count := accRead .a s
  let src := fun k => blockAddr n2 s.x (BitVec.ofNat 24 k) s
  let dst := fun k => blockAddr n1 s.y (BitVec.ofNat 24 k) s
  .next (blockEnd n1 count (moveBytes src dst count.toNat s))

/-- MVP (R195, R197, R198, R199): descending. -/
def execMvp (n1 n2 : Byte) (s : State) : Result :=
  let count := accRead .a s
  let src := fun k => blockAddr n2 s.x (-BitVec.ofNat 24 k) s
  let dst := fun k => blockAddr n1 s.y (-BitVec.ofNat 24 k) s
  .next (blockEnd n1 (-count) (moveBytes src dst count.toNat s))

end Sys2Proof.Machine
end

