-- ==== Sys2Proof/Machine/Dispatch.lean ====
section
/-! DEFINITION. The dispatch of an instruction to its meaning, one arm per constructor. -/

namespace Sys2Proof.Machine

def exec (i : Instr) (s : State) : Host.Outcome State Fault Refusal :=
  match i with
  | .lda r op => Sys2Proof.Machine.execLda r op s
  | .ldal r m => Sys2Proof.Machine.execLdal r m s
  | .ldm m imm => Sys2Proof.Machine.execLdm m imm s
  | .ldt imm => Sys2Proof.Machine.execLdt imm s
  | .ldx op => Sys2Proof.Machine.execLdx op s
  | .ldy op => Sys2Proof.Machine.execLdy op s
  | .sta r m => Sys2Proof.Machine.execSta r m s
  | .stal r m => Sys2Proof.Machine.execStal r m s
  | .stx m => Sys2Proof.Machine.execStx m s
  | .sty m => Sys2Proof.Machine.execSty m s
  | .tad => Sys2Proof.Machine.execTad s
  | .tas => Sys2Proof.Machine.execTas s
  | .tax => Sys2Proof.Machine.execTax s
  | .tay => Sys2Proof.Machine.execTay s
  | .tbd => Sys2Proof.Machine.execTbd s
  | .tbs => Sys2Proof.Machine.execTbs s
  | .tbx => Sys2Proof.Machine.execTbx s
  | .tby => Sys2Proof.Machine.execTby s
  | .tda => Sys2Proof.Machine.execTda s
  | .tdb => Sys2Proof.Machine.execTdb s
  | .tsa => Sys2Proof.Machine.execTsa s
  | .tsb => Sys2Proof.Machine.execTsb s
  | .tsx => Sys2Proof.Machine.execTsx s
  | .txa => Sys2Proof.Machine.execTxa s
  | .txb => Sys2Proof.Machine.execTxb s
  | .txs => Sys2Proof.Machine.execTxs s
  | .txy => Sys2Proof.Machine.execTxy s
  | .tya => Sys2Proof.Machine.execTya s
  | .tyb => Sys2Proof.Machine.execTyb s
  | .tyx => Sys2Proof.Machine.execTyx s
  | .xab => Sys2Proof.Machine.execXab s
  | .mvn n1 n2 => Sys2Proof.Machine.execMvn n1 n2 s
  | .mvp n1 n2 => Sys2Proof.Machine.execMvp n1 n2 s
  | .pha => Sys2Proof.Machine.execPha s
  | .phb => Sys2Proof.Machine.execPhb s
  | .phd => Sys2Proof.Machine.execPhd s
  | .phg => Sys2Proof.Machine.execPhg s
  | .php => Sys2Proof.Machine.execPhp s
  | .pht => Sys2Proof.Machine.execPht s
  | .phx => Sys2Proof.Machine.execPhx s
  | .phy => Sys2Proof.Machine.execPhy s
  | .pla => Sys2Proof.Machine.execPla s
  | .plb => Sys2Proof.Machine.execPlb s
  | .pld => Sys2Proof.Machine.execPld s
  | .plp => Sys2Proof.Machine.execPlp s
  | .plt => Sys2Proof.Machine.execPlt s
  | .plx => Sys2Proof.Machine.execPlx s
  | .ply => Sys2Proof.Machine.execPly s
  | .psh nn => Sys2Proof.Machine.execPsh nn s
  | .pul nn => Sys2Proof.Machine.execPul nn s
  | .pea imm => Sys2Proof.Machine.execPea imm s
  | .pei dd => Sys2Proof.Machine.execPei dd s
  | .per imm => Sys2Proof.Machine.execPer imm s
  | .adc r op => Sys2Proof.Machine.execAdc r op s
  | .adcl r m => Sys2Proof.Machine.execAdcl r m s
  | .sbc r op => Sys2Proof.Machine.execSbc r op s
  | .sbcl r m => Sys2Proof.Machine.execSbcl r m s
  | .inc t => Sys2Proof.Machine.execInc t s
  | .dec t => Sys2Proof.Machine.execDec t s
  | .inx => Sys2Proof.Machine.execInx s
  | .iny => Sys2Proof.Machine.execIny s
  | .dex => Sys2Proof.Machine.execDex s
  | .dey => Sys2Proof.Machine.execDey s
  | .mpy op => Sys2Proof.Machine.execMpy op s
  | .mpyl m => Sys2Proof.Machine.execMpyl m s
  | .div op => Sys2Proof.Machine.execDiv op s
  | .divl m => Sys2Proof.Machine.execDivl m s
  | .and r op => Sys2Proof.Machine.execAnd r op s
  | .andl r m => Sys2Proof.Machine.execAndl r m s
  | .ora r op => Sys2Proof.Machine.execOra r op s
  | .oral r m => Sys2Proof.Machine.execOral r m s
  | .eor r op => Sys2Proof.Machine.execEor r op s
  | .eorl r m => Sys2Proof.Machine.execEorl r m s
  | .cmp r op => Sys2Proof.Machine.execCmp r op s
  | .cmpl r m => Sys2Proof.Machine.execCmpl r m s
  | .cpx op => Sys2Proof.Machine.execCpx op s
  | .cpy op => Sys2Proof.Machine.execCpy op s
  | .asl t => Sys2Proof.Machine.execAsl t s
  | .lsr t => Sys2Proof.Machine.execLsr t s
  | .rol t => Sys2Proof.Machine.execRol t s
  | .ror t => Sys2Proof.Machine.execRor t s
  | .rla imm => Sys2Proof.Machine.execRla imm s
  | .clb m imm => Sys2Proof.Machine.execClb m imm s
  | .seb m imm => Sys2Proof.Machine.execSeb m imm s
  | .clp imm => Sys2Proof.Machine.execClp imm s
  | .sep imm => Sys2Proof.Machine.execSep imm s
  | .clc => Sys2Proof.Machine.execClc s
  | .sec => Sys2Proof.Machine.execSec s
  | .cli => Sys2Proof.Machine.execCli s
  | .sei => Sys2Proof.Machine.execSei s
  | .clm => Sys2Proof.Machine.execClm s
  | .sem => Sys2Proof.Machine.execSem s
  | .clv => Sys2Proof.Machine.execClv s
  | .bcc rr => Sys2Proof.Machine.execBcc rr s
  | .bcs rr => Sys2Proof.Machine.execBcs rr s
  | .beq rr => Sys2Proof.Machine.execBeq rr s
  | .bmi rr => Sys2Proof.Machine.execBmi rr s
  | .bne rr => Sys2Proof.Machine.execBne rr s
  | .bpl rr => Sys2Proof.Machine.execBpl rr s
  | .bvc rr => Sys2Proof.Machine.execBvc rr s
  | .bvs rr => Sys2Proof.Machine.execBvs rr s
  | .bra rr => Sys2Proof.Machine.execBra rr s
  | .bral rr => Sys2Proof.Machine.execBral rr s
  | .bbc m imm rr => Sys2Proof.Machine.execBbc m imm rr s
  | .bbs m imm rr => Sys2Proof.Machine.execBbs m imm rr s
  | .jmp t => Sys2Proof.Machine.execJmp t s
  | .jmpl t => Sys2Proof.Machine.execJmpl t s
  | .jsr t => Sys2Proof.Machine.execJsr t s
  | .jsrl hhmmll => Sys2Proof.Machine.execJsrl hhmmll s
  | .rts => Sys2Proof.Machine.execRts s
  | .rtl => Sys2Proof.Machine.execRtl s
  | .rti => Sys2Proof.Machine.execRti s
  | .brk nn => Sys2Proof.Machine.execBrk nn s
  | .nop => Sys2Proof.Machine.execNop s
  | .stp => Sys2Proof.Machine.execStp s
  | .wit => Sys2Proof.Machine.execWit s

end Sys2Proof.Machine
end

