-- ==== Sys2Proof/WellFormed.lean ====
section
/-! DEFINITION. Which instructions have an encoding under given values of the flags m and x: the
addressing mode is one the opcode table gives the mnemonic (40_addressing_modes.md R150,
30_encoding.md R103 to R105), and an immediate fits the length that m or x selects (R97). -/

namespace Sys2Proof

/-- The 12 memory modes of the accumulator instructions without L suffix, MPY and DIV (R230 without
IMM, L(DIR) and L(DIR),Y). -/
def Mem.isData : Mem → Bool
  | .dir _ | .dirX _ | .ind _ | .indX _ | .indY _ | .abs _ | .absX _ | .absY _ | .abl _ | .ablX _
  | .sr _ | .srY _ => true
  | .dirY _ | .long _ | .longY _ => false

/-- L(DIR) and L(DIR),Y: the modes of the mnemonics with L suffix (R110). -/
def Mem.isLong : Mem → Bool
  | .long _ | .longY _ => true
  | .dir _ | .dirX _ | .dirY _ | .ind _ | .indX _ | .indY _ | .abs _ | .absX _ | .absY _ | .abl _
  | .ablX _ | .sr _ | .srY _ => false

/-- DIR and ABS: the modes of CPX, CPY, CLB, SEB, BBC, BBS. -/
def Mem.isPlain : Mem → Bool
  | .dir _ | .abs _ => true
  | .dirX _ | .dirY _ | .ind _ | .indX _ | .indY _ | .long _ | .longY _ | .absX _ | .absY _ | .abl _
  | .ablX _ | .sr _ | .srY _ => false

/-- DIR; DIR,X; ABS; ABS,X: the modes of LDM, LDY, ASL, LSR, ROL, ROR, INC, DEC. -/
def Mem.isPlainX : Mem → Bool
  | .dir _ | .abs _ | .dirX _ | .absX _ => true
  | .dirY _ | .ind _ | .indX _ | .indY _ | .long _ | .longY _ | .absY _ | .abl _ | .ablX _ | .sr _
  | .srY _ => false

/-- DIR; DIR,Y; ABS; ABS,Y: the modes of LDX. -/
def Mem.isPlainY : Mem → Bool
  | .dir _ | .abs _ | .dirY _ | .absY _ => true
  | .dirX _ | .ind _ | .indX _ | .indY _ | .long _ | .longY _ | .absX _ | .abl _ | .ablX _ | .sr _
  | .srY _ => false

/-- The modes of STX: DIR; DIR,Y; ABS. -/
def Mem.isStx : Mem → Bool
  | .dir _ | .abs _ | .dirY _ => true
  | .dirX _ | .ind _ | .indX _ | .indY _ | .long _ | .longY _ | .absX _ | .absY _ | .abl _ | .ablX _
  | .sr _ | .srY _ => false

/-- The modes of STY: DIR; DIR,X; ABS. -/
def Mem.isSty : Mem → Bool
  | .dir _ | .abs _ | .dirX _ => true
  | .dirY _ | .ind _ | .indX _ | .indY _ | .long _ | .longY _ | .absX _ | .absY _ | .abl _ | .ablX _
  | .sr _ | .srY _ => false

/-- An immediate fits the length a flag selects: with the flag at 1 it is one byte (R97). -/
def immFits (narrow : Bool) (v : Word) : Bool := !narrow || v.toNat < 256

/-- A source operand whose immediate fits and whose memory mode is allowed. -/
def Operand.fits (narrow : Bool) (allowed : Mem → Bool) : Operand → Bool
  | .imm v => immFits narrow v
  | .mem k => allowed k

/-- The operand of a shift, INC or DEC (R256, R234, R235). -/
def Target.fits : Target → Bool
  | .acc _ => true
  | .mem k => k.isPlainX

/-- The instruction has an encoding when the flags m and x hold these values. -/
def Instr.wellFormed (m x : Bool) : Instr → Bool
  | .lda _ op | .adc _ op | .sbc _ op | .and _ op | .ora _ op | .eor _ op | .cmp _ op
  | .mpy op | .div op => op.fits m Mem.isData
  | .sta _ k => k.isData
  | .ldal _ k | .stal _ k | .adcl _ k | .sbcl _ k | .andl _ k | .oral _ k | .eorl _ k | .cmpl _ k
  | .mpyl k | .divl k => k.isLong
  | .ldx op => op.fits x Mem.isPlainY
  | .ldy op => op.fits x Mem.isPlainX
  | .cpx op | .cpy op => op.fits x Mem.isPlain
  | .stx k => k.isStx
  | .sty k => k.isSty
  | .ldm k v => k.isPlainX && immFits m v
  | .clb k v | .seb k v | .bbc k v _ | .bbs k v _ => k.isPlain && immFits m v
  | .rla v => immFits m v
  | .asl t | .lsr t | .rol t | .ror t | .inc t | .dec t => t.fits
  | .ldt _ | .tad | .tas | .tax | .tay | .tbd | .tbs | .tbx | .tby | .tda | .tdb | .tsa | .tsb | .tsx
  | .txa | .txb | .txs | .txy | .tya | .tyb | .tyx | .xab | .mvn _ _ | .mvp _ _
  | .pha | .phb | .phd | .phg | .php | .pht | .phx | .phy | .pla | .plb | .pld | .plp | .plt | .plx
  | .ply | .psh _ | .pul _ | .pea _ | .pei _ | .per _
  | .inx | .iny | .dex | .dey
  | .clp _ | .sep _ | .clc | .sec | .cli | .sei | .clm | .sem | .clv
  | .bcc _ | .bcs _ | .beq _ | .bmi _ | .bne _ | .bpl _ | .bvc _ | .bvs _ | .bra _ | .bral _
  | .jmp _ | .jmpl _ | .jsr _ | .jsrl _ | .rts | .rtl | .rti | .brk _ | .nop | .stp | .wit => true

end Sys2Proof
end

