-- ==== Sys2Proof/Decode.lean ====
section
/-! DEFINITION. The decoder, from the three instruction code tables (30_encoding.md R93, R100, R104,
R105) and the operand layouts (R91, R99); then the encoder, from the opcode lists by instruction
(R103, R230 and the pages of the instructions). -/

namespace Sys2Proof

/-- An operand layout of R91 together with the instruction its operands make. The field names are
R91's format names in lower case. -/
inductive Layout where
  | none (i : Instr)
  | i8 (k : Byte → Instr)
  | im (k : Word → Instr)
  | ix (k : Word → Instr)
  | d8 (k : Byte → Instr)
  | a16 (k : Word → Instr)
  | a24 (k : Addr → Instr)
  | r8 (k : Byte → Instr)
  | r16 (k : Word → Instr)
  | d8im (k : Byte → Word → Instr)
  | a16im (k : Word → Word → Instr)
  | d8imr8 (k : Byte → Word → Byte → Instr)
  | a16imr8 (k : Word → Word → Byte → Instr)
  | blk (k : Byte → Byte → Instr)

/-- A cell of an instruction code table: blank (R106), a form without accumulator choice, or a form
that prefix 42h turns from accumulator A to B (R94, R104). -/
inductive Cell where
  | blank
  | one (l : Layout)
  | acc (l : Acc → Layout)

/-! Abbreviations for the cells of the tables, one per shape. -/

/-- Implied, accumulator-free and operand-free. -/
def cImp (i : Instr) : Cell := .one (.none i)

/-- An operand-free form with a B partner: `a` unprefixed, `b` behind 42h. -/
def cPair (a b : Instr) : Cell := .acc fun r => match r with
  | .a => .none a
  | .b => .none b

/-- Immediate of an accumulator instruction. -/
def cImm (k : Acc → Operand → Instr) : Cell := .acc fun r => .im fun v => k r (.imm v)

/-- A direct-page or stack-relative mode of an accumulator instruction. -/
def cD (k : Acc → Operand → Instr) (md : Byte → Mem) : Cell := .acc fun r => .d8 fun d => k r (.mem (md d))

/-- A 16-bit absolute mode of an accumulator instruction. -/
def cA (k : Acc → Operand → Instr) (md : Word → Mem) : Cell := .acc fun r => .a16 fun w => k r (.mem (md w))

/-- A 24-bit absolute mode of an accumulator instruction. -/
def cAl (k : Acc → Operand → Instr) (md : Addr → Mem) : Cell := .acc fun r => .a24 fun w => k r (.mem (md w))

/-- A direct-page mode of an instruction with accumulator that takes only memory (STA, the L forms). -/
def cDm (k : Acc → Mem → Instr) (md : Byte → Mem) : Cell := .acc fun r => .d8 fun d => k r (md d)

/-- A 16-bit absolute mode of STA. -/
def cAm (k : Acc → Mem → Instr) (md : Word → Mem) : Cell := .acc fun r => .a16 fun w => k r (md w)

/-- A 24-bit absolute mode of STA. -/
def cAlm (k : Acc → Mem → Instr) (md : Addr → Mem) : Cell := .acc fun r => .a24 fun w => k r (md w)

/-- A direct-page mode of an instruction without accumulator choice. -/
def cD1 (k : Mem → Instr) (md : Byte → Mem) : Cell := .one (.d8 fun d => k (md d))

/-- A 16-bit absolute mode of an instruction without accumulator choice. -/
def cA1 (k : Mem → Instr) (md : Word → Mem) : Cell := .one (.a16 fun w => k (md w))

/-- A 24-bit absolute mode of an instruction without accumulator choice. -/
def cAl1 (k : Mem → Instr) (md : Addr → Mem) : Cell := .one (.a24 fun w => k (md w))

/-- Immediate of an index register instruction. -/
def cIx (k : Operand → Instr) : Cell := .one (.ix fun v => k (.imm v))

/-- The accumulator form of a shift, INC or DEC. -/
def cT (k : Target → Instr) : Cell := .acc fun r => .none (k (.acc r))

/-- Memory as a source operand. -/
def srcOp (k : Operand → Instr) : Mem → Instr := fun m => k (.mem m)

/-- Memory as the target of a read-modify-write instruction. -/
def target (k : Target → Instr) : Mem → Instr := fun m => k (.mem m)

open Instr Mem in
/-- Instruction Code Table 1, rows 0x to 3x, column by column (R100). -/
def table1a : List (List Cell) := [
  [.one (.i8 brk), cD ora indX, .blank, cD ora sr,
   .one (.d8im fun d v => seb (dir d) v), cD ora dir, cD1 (target asl) dir, cDm oral long,
   cImp php, cImm ora, cT asl, cImp phd,
   .one (.a16im fun w v => seb (abs w) v), cA ora abs, cA1 (target asl) abs, cAl ora abl],
  [.one (.r8 bpl), cD ora indY, cD ora ind, cD ora srY,
   .one (.d8im fun d v => clb (dir d) v), cD ora dirX, cD1 (target asl) dirX, cDm oral longY,
   cImp clc, cA ora absY, cT dec, cPair tas tbs,
   .one (.a16im fun w v => clb (abs w) v), cA ora absX, cA1 (target asl) absX, cAl ora ablX],
  [.one (.a16 fun w => jsr (.abs w)), cD Instr.and indX, .one (.a24 jsrl), cD Instr.and sr,
   .one (.d8imr8 fun d v r => bbs (dir d) v r), cD Instr.and dir, cD1 (target rol) dir, cDm andl long,
   cImp plp, cImm Instr.and, cT rol, cImp pld,
   .one (.a16imr8 fun w v r => bbs (abs w) v r), cA Instr.and abs, cA1 (target rol) abs, cAl Instr.and abl],
  [.one (.r8 bmi), cD Instr.and indY, cD Instr.and ind, cD Instr.and srY,
   .one (.d8imr8 fun d v r => bbc (dir d) v r), cD Instr.and dirX, cD1 (target rol) dirX, cDm andl longY,
   cImp sec, cA Instr.and absY, cT inc, cPair tsa tsb,
   .one (.a16imr8 fun w v r => bbc (abs w) v r), cA Instr.and absX, cA1 (target rol) absX, cAl Instr.and ablX]]

open Instr Mem in
/-- Instruction Code Table 1, rows 4x to 7x (R100). The cell of the prefix byte 42h is blank here. -/
def table1b : List (List Cell) := [
  [cImp rti, cD eor indX, .blank, cD eor sr,
   .one (.blk mvp), cD eor dir, cD1 (target lsr) dir, cDm eorl long,
   cPair pha phb, cImm eor, cT lsr, cImp phg,
   .one (.a16 fun w => jmp (.abs w)), cA eor abs, cA1 (target lsr) abs, cAl eor abl],
  [.one (.r8 bvc), cD eor indY, cD eor ind, cD eor srY,
   .one (.blk mvn), cD eor dirX, cD1 (target lsr) dirX, cDm eorl longY,
   cImp cli, cA eor absY, cImp phy, cPair tad tbd,
   .one (.a24 fun w => jmpl (.abl w)), cA eor absX, cA1 (target lsr) absX, cAl eor ablX],
  [cImp rts, cD adc indX, .one (.a16 per), cD adc sr,
   .one (.d8im fun d v => ldm (dir d) v), cD adc dir, cD1 (target ror) dir, cDm adcl long,
   cPair pla plb, cImm adc, cT ror, cImp rtl,
   .one (.a16 fun w => jmp (.ind w)), cA adc abs, cA1 (target ror) abs, cAl adc abl],
  [.one (.r8 bvs), cD adc indY, cD adc ind, cD adc srY,
   .one (.d8im fun d v => ldm (dirX d) v), cD adc dirX, cD1 (target ror) dirX, cDm adcl longY,
   cImp sei, cA adc absY, cImp ply, cPair tda tdb,
   .one (.a16 fun w => jmp (.indX w)), cA adc absX, cA1 (target ror) absX, cAl adc ablX]]

open Instr Mem in
/-- Instruction Code Table 1, rows 8x to Bx (R100). The cell of the prefix byte 89h is blank here. -/
def table1c : List (List Cell) := [
  [.one (.r8 bra), cDm sta indX, .one (.r16 bral), cDm sta sr,
   cD1 sty dir, cDm sta dir, cD1 stx dir, cDm stal long,
   cImp dey, .blank, cPair txa txb, cImp pht,
   cA1 sty abs, cAm sta abs, cA1 stx abs, cAlm sta abl],
  [.one (.r8 bcc), cDm sta indY, cDm sta ind, cDm sta srY,
   cD1 sty dirX, cDm sta dirX, cD1 stx dirY, cDm stal longY,
   cPair tya tyb, cAm sta absY, cImp txs, cImp txy,
   .one (.a16im fun w v => ldm (abs w) v), cAm sta absX, .one (.a16im fun w v => ldm (absX w) v), cAlm sta ablX],
  [cIx ldy, cD lda indX, cIx ldx, cD lda sr,
   cD1 (srcOp ldy) dir, cD lda dir, cD1 (srcOp ldx) dir, cDm ldal long,
   cPair tay tby, cImm lda, cPair tax tbx, cImp plt,
   cA1 (srcOp ldy) abs, cA lda abs, cA1 (srcOp ldx) abs, cAl lda abl],
  [.one (.r8 bcs), cD lda indY, cD lda ind, cD lda srY,
   cD1 (srcOp ldy) dirX, cD lda dirX, cD1 (srcOp ldx) dirY, cDm ldal longY,
   cImp clv, cA lda absY, cImp tsx, cImp tyx,
   cA1 (srcOp ldy) absX, cA lda absX, cA1 (srcOp ldx) absY, cAl lda ablX]]

open Instr Mem in
/-- Instruction Code Table 1, rows Cx to Fx (R100). -/
def table1d : List (List Cell) := [
  [cIx cpy, cD cmp indX, .one (.i8 clp), cD cmp sr,
   cD1 (srcOp cpy) dir, cD cmp dir, cD1 (target dec) dir, cDm cmpl long,
   cImp iny, cImm cmp, cImp dex, cImp wit,
   cA1 (srcOp cpy) abs, cA cmp abs, cA1 (target dec) abs, cAl cmp abl],
  [.one (.r8 bne), cD cmp indY, cD cmp ind, cD cmp srY,
   .one (.d8 pei), cD cmp dirX, cD1 (target dec) dirX, cDm cmpl longY,
   cImp clm, cA cmp absY, cImp phx, cImp stp,
   .one (.a16 fun w => jmpl (.ind w)), cA cmp absX, cA1 (target dec) absX, cAl cmp ablX],
  [cIx cpx, cD sbc indX, .one (.i8 sep), cD sbc sr,
   cD1 (srcOp cpx) dir, cD sbc dir, cD1 (target inc) dir, cDm sbcl long,
   cImp inx, cImm sbc, cImp nop, .one (.i8 psh),
   cA1 (srcOp cpx) abs, cA sbc abs, cA1 (target inc) abs, cAl sbc abl],
  [.one (.r8 beq), cD sbc indY, cD sbc ind, cD sbc srY,
   .one (.a16 pea), cD sbc dirX, cD1 (target inc) dirX, cDm sbcl longY,
   cImp sem, cA sbc absY, cImp plx, .one (.i8 pul),
   .one (.a16 fun w => jsr (.indX w)), cA sbc absX, cA1 (target inc) absX, cAl sbc ablX]]

/-- Instruction Code Table 1: 16 rows of 16 cells (R100). -/
def table1 : List (List Cell) := table1a ++ table1b ++ table1c ++ table1d

open Instr Mem in
/-- Instruction Code Table 3, rows 0x to 3x; below them only 49h and C2h are filled (R105). -/
def table3a : List (List Cell) := [
  [.blank, cD1 (srcOp mpy) indX, .blank, cD1 (srcOp mpy) sr,
   .blank, cD1 (srcOp mpy) dir, .blank, cD1 mpyl long,
   .blank, .one (.im fun v => mpy (.imm v)), .blank, .blank,
   .blank, cA1 (srcOp mpy) abs, .blank, cAl1 (srcOp mpy) abl],
  [.blank, cD1 (srcOp mpy) indY, cD1 (srcOp mpy) ind, cD1 (srcOp mpy) srY,
   .blank, cD1 (srcOp mpy) dirX, .blank, cD1 mpyl longY,
   .blank, cA1 (srcOp mpy) absY, .blank, .blank,
   .blank, cA1 (srcOp mpy) absX, .blank, cAl1 (srcOp mpy) ablX],
  [.blank, cD1 (srcOp div) indX, .blank, cD1 (srcOp div) sr,
   .blank, cD1 (srcOp div) dir, .blank, cD1 divl long,
   cImp xab, .one (.im fun v => div (.imm v)), .blank, .blank,
   .blank, cA1 (srcOp div) abs, .blank, cAl1 (srcOp div) abl],
  [.blank, cD1 (srcOp div) indY, cD1 (srcOp div) ind, cD1 (srcOp div) srY,
   .blank, cD1 (srcOp div) dirX, .blank, cD1 divl longY,
   .blank, cA1 (srcOp div) absY, .blank, .blank,
   .blank, cA1 (srcOp div) absX, .blank, cAl1 (srcOp div) ablX]]

/-- The cell at a byte: row = high nibble, column = low nibble (R90, R100). -/
def cellAt (t : List (List Cell)) (b : Byte) : Cell :=
  (t.getD (b.toNat / 16) []).getD (b.toNat % 16) .blank

/-- Table 1 at a byte, accumulator A (R100). -/
def layout1 (b : Byte) : Option Layout :=
  match cellAt table1 b with
  | .blank => none
  | .one l => some l
  | .acc l => some (l .a)

/-- Table 2 at a byte: the accumulator forms of Table 1 with B for A (R94, R104). -/
def layout2 (b : Byte) : Option Layout :=
  match cellAt table1 b with
  | .blank => none
  | .one _ => none
  | .acc l => some (l .b)

/-- Table 3 at a byte (R105): MPY, DIV and XAB in rows 0 to 3, RLA at 49h, LDT at C2h. -/
def layout3 (b : Byte) : Option Layout :=
  if b = 0x49#8 then some (.im .rla)
  else if b = 0xC2#8 then some (.i8 .ldt)
  else match cellAt table3a b with
    | .blank => none
    | .one l => some l
    | .acc _ => none

/-- An undefined encoding, by the table whose cell is blank (R106, R332). -/
inductive Undefined where
  | first (b : Byte)
  | after42 (b : Byte)
  | after89 (b : Byte)
deriving DecidableEq, Repr

/-- The bytes of an undefined encoding, for the fault that names it (R332). -/
def Undefined.bytes : Undefined → List Byte
  | .first b => [b]
  | .after42 b => [0x42#8, b]
  | .after89 b => [0x89#8, b]

/-- An immediate of one byte (flag 1) or two, low byte first, and how many bytes it takes (R97, R99). -/
def immAt (narrow : Bool) (g : Nat → Byte) (k : Nat) : Word × Nat :=
  if narrow then (zx8 (g k), 1) else (mkWord (g (k + 1)) (g k), 2)

/-- The instruction a layout makes of the operand bytes `g 0`, `g 1`, …, and how many of them it takes
(R91, R92, R99). -/
def Layout.read (m x : Bool) (g : Nat → Byte) : Layout → Instr × Nat
  | .none i => (i, 0)
  | .i8 k => (k (g 0), 1)
  | .im k => (k (immAt m g 0).1, (immAt m g 0).2)
  | .ix k => (k (immAt x g 0).1, (immAt x g 0).2)
  | .d8 k => (k (g 0), 1)
  | .a16 k => (k (mkWord (g 1) (g 0)), 2)
  | .a24 k => (k (mkAddr (g 2) (mkWord (g 1) (g 0))), 3)
  | .r8 k => (k (g 0), 1)
  | .r16 k => (k (mkWord (g 1) (g 0)), 2)
  | .d8im k => (k (g 0) (immAt m g 1).1, 1 + (immAt m g 1).2)
  | .a16im k => (k (mkWord (g 1) (g 0)) (immAt m g 2).1, 2 + (immAt m g 2).2)
  | .d8imr8 k => (k (g 0) (immAt m g 1).1 (g (1 + (immAt m g 1).2)), 2 + (immAt m g 1).2)
  | .a16imr8 k =>
    (k (mkWord (g 1) (g 0)) (immAt m g 2).1 (g (2 + (immAt m g 2).2)), 3 + (immAt m g 2).2)
  | .blk k => (k (g 0) (g 1), 2)

/-- A layout read after `p` prefix and opcode bytes: the instruction and its whole length (R92). -/
def Layout.readAfter (m x : Bool) (f : Nat → Byte) (p : Nat) (l : Layout) : Instr × Nat :=
  let r := l.read m x (fun k => f (p + k))
  (r.1, p + r.2)

/-- The decoder: the instruction at the bytes `f 0`, `f 1`, … under the flags m and x, and its length in
bytes; or which encoding is undefined (R93, R96, R106). -/
def decode (m x : Bool) (f : Nat → Byte) : Except Undefined (Instr × Nat) :=
  if f 0 = 0x42#8 then
    match layout2 (f 1) with
    | some l => .ok (l.readAfter m x f 2)
    | none => .error (.after42 (f 1))
  else if f 0 = 0x89#8 then
    match layout3 (f 1) with
    | some l => .ok (l.readAfter m x f 2)
    | none => .error (.after89 (f 1))
  else
    match layout1 (f 0) with
    | some l => .ok (l.readAfter m x f 1)
    | none => .error (.first (f 0))

/-! The encoder. -/

/-- The two bytes of a 16-bit operand, low byte first (R99). -/
def wordBytes (v : Word) : List Byte := [lo8 v, hi8 v]

/-- The three bytes of a 24-bit address: `ll`, `mm`, `hh` (R99). -/
def addrBytes (a : Addr) : List Byte := [lo8 (offOf a), hi8 (offOf a), bankOf a]

/-- An immediate at the length a flag selects (R97, R99). -/
def immBytes (narrow : Bool) (v : Word) : List Byte := if narrow then [lo8 v] else wordBytes v

/-- The operand bytes of a memory operand (R101). -/
def Mem.bytes : Mem → List Byte
  | .dir d | .dirX d | .dirY d | .ind d | .indX d | .indY d | .long d | .longY d | .sr d | .srY d => [d]
  | .abs w | .absX w | .absY w => wordBytes w
  | .abl a | .ablX a => addrBytes a

/-- What R230 adds to the base opcode of an accumulator instruction for a memory mode; DIR,Y is none
of the fifteen modes and gets an offset that no opcode uses. -/
def Mem.offset : Mem → Byte
  | .dir _ => 0x05#8
  | .dirX _ => 0x15#8
  | .dirY _ => 0x02#8
  | .ind _ => 0x12#8
  | .indX _ => 0x01#8
  | .indY _ => 0x11#8
  | .long _ => 0x07#8
  | .longY _ => 0x17#8
  | .abs _ => 0x0D#8
  | .absX _ => 0x1D#8
  | .absY _ => 0x19#8
  | .abl _ => 0x0F#8
  | .ablX _ => 0x1F#8
  | .sr _ => 0x03#8
  | .srY _ => 0x13#8

/-- The prefix bytes of an accumulator: none for A, 42h for B (R94). -/
def Acc.lead : Acc → List Byte
  | .a => []
  | .b => [0x42#8]

/-- A memory form at base + offset (R230). -/
def memForm (base : Byte) (k : Mem) : List Byte := (base + k.offset) :: k.bytes

/-- An immediate or memory form at base + offset; the offset of IMM is 09h (R230). -/
def opForm (m : Bool) (base : Byte) : Operand → List Byte
  | .imm v => (base + 0x09#8) :: immBytes m v
  | .mem k => memForm base k

/-- The opcode of a mode in an instruction's own list; modes outside the list have none. -/
def pickMode (dir dirX dirY abs absX absY : Byte) : Mem → Byte
  | .dir _ => dir
  | .dirX _ => dirX
  | .dirY _ => dirY
  | .abs _ => abs
  | .absX _ => absX
  | .absY _ => absY
  | .ind _ | .indX _ | .indY _ | .long _ | .longY _ | .abl _ | .ablX _ | .sr _ | .srY _ => 0x02#8

/-- A shift, INC or DEC: the accumulator opcode, and the opcodes of DIR; DIR,X; ABS; ABS,X (R103). -/
def targetForm (accOp dir dirX abs absX : Byte) : Target → List Byte
  | .acc r => r.lead ++ [accOp]
  | .mem k => pickMode dir dirX 0x02#8 abs absX 0x02#8 k :: k.bytes

/-- An index register instruction: its IMM opcode and those of DIR; DIR,X; DIR,Y; ABS; ABS,X; ABS,Y. -/
def indexForm (x : Bool) (immOp dir dirX dirY abs absX absY : Byte) : Operand → List Byte
  | .imm v => immOp :: immBytes x v
  | .mem k => pickMode dir dirX dirY abs absX absY k :: k.bytes

/-- The bytes of a well-formed instruction under the flags m and x, in address order (R91, R103 to
R105, R117). -/
def encode (m x : Bool) : Instr → List Byte
  | .lda r o => r.lead ++ opForm m 0xA0#8 o
  | .ldal r k => r.lead ++ memForm 0xA0#8 k
  | .ldm k v => pickMode 0x64#8 0x74#8 0x02#8 0x9C#8 0x9E#8 0x02#8 k :: (k.bytes ++ immBytes m v)
  | .ldt v => [0x89#8, 0xC2#8, v]
  | .ldx o => indexForm x 0xA2#8 0xA6#8 0x02#8 0xB6#8 0xAE#8 0x02#8 0xBE#8 o
  | .ldy o => indexForm x 0xA0#8 0xA4#8 0xB4#8 0x02#8 0xAC#8 0xBC#8 0x02#8 o
  | .sta r k => r.lead ++ memForm 0x80#8 k
  | .stal r k => r.lead ++ memForm 0x80#8 k
  | .stx k => pickMode 0x86#8 0x02#8 0x96#8 0x8E#8 0x02#8 0x02#8 k :: k.bytes
  | .sty k => pickMode 0x84#8 0x94#8 0x02#8 0x8C#8 0x02#8 0x02#8 k :: k.bytes
  | .tad => [0x5B#8]
  | .tas => [0x1B#8]
  | .tax => [0xAA#8]
  | .tay => [0xA8#8]
  | .tbd => [0x42#8, 0x5B#8]
  | .tbs => [0x42#8, 0x1B#8]
  | .tbx => [0x42#8, 0xAA#8]
  | .tby => [0x42#8, 0xA8#8]
  | .tda => [0x7B#8]
  | .tdb => [0x42#8, 0x7B#8]
  | .tsa => [0x3B#8]
  | .tsb => [0x42#8, 0x3B#8]
  | .tsx => [0xBA#8]
  | .txa => [0x8A#8]
  | .txb => [0x42#8, 0x8A#8]
  | .txs => [0x9A#8]
  | .txy => [0x9B#8]
  | .tya => [0x98#8]
  | .tyb => [0x42#8, 0x98#8]
  | .tyx => [0xBB#8]
  | .xab => [0x89#8, 0x28#8]
  | .mvn n1 n2 => [0x54#8, n1, n2]
  | .mvp n1 n2 => [0x44#8, n1, n2]
  | .pha => [0x48#8]
  | .phb => [0x42#8, 0x48#8]
  | .phd => [0x0B#8]
  | .phg => [0x4B#8]
  | .php => [0x08#8]
  | .pht => [0x8B#8]
  | .phx => [0xDA#8]
  | .phy => [0x5A#8]
  | .pla => [0x68#8]
  | .plb => [0x42#8, 0x68#8]
  | .pld => [0x2B#8]
  | .plp => [0x28#8]
  | .plt => [0xAB#8]
  | .plx => [0xFA#8]
  | .ply => [0x7A#8]
  | .psh nn => [0xEB#8, nn]
  | .pul nn => [0xFB#8, nn]
  | .pea v => 0xF4#8 :: wordBytes v
  | .pei d => [0xD4#8, d]
  | .per v => 0x62#8 :: wordBytes v
  | .adc r o => r.lead ++ opForm m 0x60#8 o
  | .adcl r k => r.lead ++ memForm 0x60#8 k
  | .sbc r o => r.lead ++ opForm m 0xE0#8 o
  | .sbcl r k => r.lead ++ memForm 0xE0#8 k
  | .inc t => targetForm 0x3A#8 0xE6#8 0xF6#8 0xEE#8 0xFE#8 t
  | .dec t => targetForm 0x1A#8 0xC6#8 0xD6#8 0xCE#8 0xDE#8 t
  | .inx => [0xE8#8]
  | .iny => [0xC8#8]
  | .dex => [0xCA#8]
  | .dey => [0x88#8]
  | .mpy o => 0x89#8 :: opForm m 0x00#8 o
  | .mpyl k => 0x89#8 :: memForm 0x00#8 k
  | .div o => 0x89#8 :: opForm m 0x20#8 o
  | .divl k => 0x89#8 :: memForm 0x20#8 k
  | .and r o => r.lead ++ opForm m 0x20#8 o
  | .andl r k => r.lead ++ memForm 0x20#8 k
  | .ora r o => r.lead ++ opForm m 0x00#8 o
  | .oral r k => r.lead ++ memForm 0x00#8 k
  | .eor r o => r.lead ++ opForm m 0x40#8 o
  | .eorl r k => r.lead ++ memForm 0x40#8 k
  | .cmp r o => r.lead ++ opForm m 0xC0#8 o
  | .cmpl r k => r.lead ++ memForm 0xC0#8 k
  | .cpx o => indexForm x 0xE0#8 0xE4#8 0x02#8 0x02#8 0xEC#8 0x02#8 0x02#8 o
  | .cpy o => indexForm x 0xC0#8 0xC4#8 0x02#8 0x02#8 0xCC#8 0x02#8 0x02#8 o
  | .asl t => targetForm 0x0A#8 0x06#8 0x16#8 0x0E#8 0x1E#8 t
  | .lsr t => targetForm 0x4A#8 0x46#8 0x56#8 0x4E#8 0x5E#8 t
  | .rol t => targetForm 0x2A#8 0x26#8 0x36#8 0x2E#8 0x3E#8 t
  | .ror t => targetForm 0x6A#8 0x66#8 0x76#8 0x6E#8 0x7E#8 t
  | .rla v => [0x89#8, 0x49#8] ++ immBytes m v
  | .clb k v => pickMode 0x14#8 0x02#8 0x02#8 0x1C#8 0x02#8 0x02#8 k :: (k.bytes ++ immBytes m v)
  | .seb k v => pickMode 0x04#8 0x02#8 0x02#8 0x0C#8 0x02#8 0x02#8 k :: (k.bytes ++ immBytes m v)
  | .clp v => [0xC2#8, v]
  | .sep v => [0xE2#8, v]
  | .clc => [0x18#8]
  | .sec => [0x38#8]
  | .cli => [0x58#8]
  | .sei => [0x78#8]
  | .clm => [0xD8#8]
  | .sem => [0xF8#8]
  | .clv => [0xB8#8]
  | .bcc rr => [0x90#8, rr]
  | .bcs rr => [0xB0#8, rr]
  | .beq rr => [0xF0#8, rr]
  | .bmi rr => [0x30#8, rr]
  | .bne rr => [0xD0#8, rr]
  | .bpl rr => [0x10#8, rr]
  | .bvc rr => [0x50#8, rr]
  | .bvs rr => [0x70#8, rr]
  | .bra rr => [0x80#8, rr]
  | .bral rr => 0x82#8 :: wordBytes rr
  | .bbc k v rr => pickMode 0x34#8 0x02#8 0x02#8 0x3C#8 0x02#8 0x02#8 k :: (k.bytes ++ immBytes m v ++ [rr])
  | .bbs k v rr => pickMode 0x24#8 0x02#8 0x02#8 0x2C#8 0x02#8 0x02#8 k :: (k.bytes ++ immBytes m v ++ [rr])
  | .jmp (.abs w) => 0x4C#8 :: wordBytes w
  | .jmp (.ind w) => 0x6C#8 :: wordBytes w
  | .jmp (.indX w) => 0x7C#8 :: wordBytes w
  | .jmpl (.abl a) => 0x5C#8 :: addrBytes a
  | .jmpl (.ind w) => 0xDC#8 :: wordBytes w
  | .jsr (.abs w) => 0x20#8 :: wordBytes w
  | .jsr (.indX w) => 0xFC#8 :: wordBytes w
  | .jsrl a => 0x22#8 :: addrBytes a
  | .rts => [0x60#8]
  | .rtl => [0x6B#8]
  | .rti => [0x40#8]
  | .brk nn => [0x00#8, nn]
  | .nop => [0xEA#8]
  | .stp => [0xDB#8]
  | .wit => [0xCB#8]

/-! The host's question: a row of the opcode table as a number. -/

/-- The bytes of an instruction given as `nbits` bits of `w`, then zeros. The opcode table writes a
prefixed row as one 16-bit number with the FIRST byte in the high-order position (R112); any other
number is read low byte first. The two readings cannot be confused: no row has 42h or 89h as its
second byte (R96). -/
def tableByte (nbits w : Nat) (k : Nat) : Byte :=
  let hi := w / 256 % 256
  if nbits = 16 ∧ (hi = 0x42 ∨ hi = 0x89) then
    match k with
    | 0 => BitVec.ofNat 8 hi
    | 1 => BitVec.ofNat 8 w
    | _ => 0#8
  else if 8 * k < nbits then BitVec.ofNat 8 (w / 256 ^ k)
  else 0#8

/-- What the decoder reads from a row's number, with m = x = 0 as after reset (R54). -/
def decodeTableWord (nbits w : Nat) : Option Instr :=
  match decode false false (tableByte nbits w) with
  | .ok r => some r.1
  | .error _ => none

end Sys2Proof
end

