-- ==== Sys2Proof/Machine/Fetch.lean ====
section
/-! DEFINITION. Fetching and decoding the instruction at PG :: PC (00_scope.md R15, R19), with the hazard of
the 3-byte instruction queue (20_memory.md R79, decision D11). -/

namespace Sys2Proof.Machine

/-- The earlier contents that the queue may hold for an address. -/
def staleAt (s : State) (a : Addr) : List Byte :=
  (s.stale.filter fun c => c.1 == a.toNat).map Prod.snd

/-- The byte that instruction fetch sees at an address: memory's, or, for a byte stored to while it may
have lain in the queue, an open choice between memory's byte and the earlier ones (R79, U11). -/
def fetchAt (s : State) (a : Addr) : Byte :=
  match staleAt s a with
  | [] => busRead s a
  | old :: more =>
    let all := busRead s a :: old :: more
    all.getD (Config.queueChoice s.draws a.toNat % all.length) (busRead s a)

/-- `Fetch8` at the `k`-th byte from PG :: PC (R15, R65). -/
def fetchByte (s : State) (k : Nat) : Byte := fetchAt s (s.pc24 + BitVec.ofNat 24 k)

/-- The instruction at PG :: PC under the flags m and x as they are now (30_encoding.md R97), with its
length. -/
def fetchDecode (s : State) : Except Undefined (Instr × Nat) := decode s.ps.m s.ps.x (fetchByte s)

/-- Before an instruction's rule is performed: PG :: PC is past its `len` bytes (R19, R31), and of the
earlier contents only those stay that the queue may still hold. The instruction's data reads draw apart
from the reads of its fetch. -/
def enterInstr (len : Nat) (s : State) : State :=
  let t := advancePc len s
  { t with
    stale := t.stale.filter fun c => inQueueWindow t (BitVec.ofNat 24 c.1)
    draws := t.draws + 1 }

end Sys2Proof.Machine
end

