-- ==== Sys2Proof/Machine/Interrupt.lean ====
section
/-! DEFINITION. The platform's moves between two steps (00_scope.md R17), and the acceptance of a request
(60_exceptions.md R335 to R337, R343, R346). -/

namespace Sys2Proof.Machine

/-- The watchdog timer's request (R335, R343). -/
def watchdogRequest (source : Nat) (s : State) : Request :=
  { source := source, level := Level.nonmaskable, vector := s.par.vecWatchdog }

/-- One move of the platform (R335, R370). -/
def platformMove (s : State) : PlatformMove → State
  | .request r => { s with pending := addRequest s.pending r }
  | .watchdog source => { s with pending := addRequest s.pending (watchdogRequest source s) }
  | .reset pending => resetTransition pending s

/-- The moves of one boundary, in their order. -/
def platformMoves : List PlatformMove → State → State
  | [], s => s
  | mv :: rest, s => platformMoves rest (platformMove s mv)

/-- The moves the platform makes at the boundary before this step. -/
def movesNow (s : State) : List PlatformMove := s.schedule.headD []

/-- A move is a reset. -/
def PlatformMove.isReset : PlatformMove → Bool
  | .reset _ => true
  | .request _ | .watchdog _ => false

/-- Reset is asserted at the boundary before this step. -/
def resetAsserted (s : State) : Bool := (movesNow s).any PlatformMove.isReset

/-- The state after the platform's moves at this boundary. The draw counter advances: between any two
instructions the platform may also change what its I/O locations answer (R76 (5)). -/
def boundary (s : State) : State :=
  platformMoves (movesNow s) { s with schedule := s.schedule.tail, draws := s.draws + 1 }

/-- The acceptance test for one request (R336). -/
def acceptable (s : State) (r : Request) : Bool :=
  match r.level with
  | .nonmaskable => true
  | .maskable level => !s.ps.i && s.ps.ipl < level

/-- The candidates (R336). -/
def candidates (s : State) : List Request := s.pending.filter (acceptable s)

/-- The rank of a request among candidates: nonmaskable above every level (R337). -/
def Level.rank : Level → Nat
  | .maskable level => level.toNat
  | .nonmaskable => 8

/-- The highest rank among requests. -/
def topRank : List Request → Nat
  | [] => 0
  | r :: rest => max r.level.rank (topRank rest)

/-- The candidates of the highest rank. -/
def finalists (s : State) : List Request :=
  (candidates s).filter fun r => r.level.rank == topRank (candidates s)

/-- `Choose` (R337): among several finalists the choice is open (U16). -/
def chooseRequest (s : State) : Option Request :=
  match finalists s with
  | [] => none
  | [r] => some r
  | r :: r' :: rest =>
    (r :: r' :: rest)[Config.tieChoice s.draws % (rest.length + 2)]?

/-- The IPL that an accepted request sets (R340, R343, decision D7). -/
def levelIpl (s : State) : Level → BitVec 3
  | .maskable level => level
  | .nonmaskable => s.par.watchdogIpl

/-- Accepting a request (R343): it leaves `pending`, and its entry resumes at the boundary's PG :: PC. -/
def acceptRequest (r : Request) (s : State) : State :=
  let t := enterException s.pc24 r.vector (some (levelIpl s r.level)) s
  { t with pending := removeRequest s.pending r, draws := s.draws + 1 }

end Sys2Proof.Machine
end

