-- ==== Sys2Proof/Machine/Step.lean ====
section
/-! DEFINITION. One step of the machine (00_scope.md R19), and the placing of an instruction where the
next step fetches it. -/

namespace Sys2Proof.Machine

/-- The instruction step: fetch, decode, advance PG :: PC, perform the rule; an undefined encoding is a
fault (R19, R106, R332). -/
def instrStep (s : State) : Result :=
  match fetchDecode s with
  | .ok r => exec r.1 (enterInstr r.2 s)
  | .error e => .fault (.undefinedOpcode s.pc24 e.bytes)

/-- The step of the CPU after the platform's moves: an accepted request first, then the waiting and
stopped states, then an instruction (R19, R336, R346). -/
def cpuStep (s : State) : Result :=
  match chooseRequest s with
  | some r => .next (acceptRequest r s)
  | none =>
    match s.run with
    | .waiting | .stopped => .next s
    | .running => instrStep s

/-- One step (R19): the platform's moves at the boundary; a reset overrides everything else (R337,
R370). -/
def step (s : State) : Result :=
  if resetAsserted s then .next (boundary s) else cpuStep (boundary s)

/-- The bytes of a row stored from an address on, last byte first. -/
def placeBytes (f : Nat → Byte) (a : Addr) : Nat → List Host.Cell → List Host.Cell
  | 0, mem => mem
  | n + 1, mem => memWrite (placeBytes f a n mem) (a + BitVec.ofNat 24 n).toNat (f n)

/-- `s` with the instruction of a table row at PG :: PC, zeros above its bits up to six bytes, and nothing
that would keep the next step from fetching it: the CPU running, no request, no platform move, and no
earlier contents in the queue. -/
def State.withFetchWord (s : State) (nbits w : Nat) : State :=
  { s with
    mem := placeBytes (tableByte nbits w) s.pc24 6 s.mem
    run := .running
    pending := []
    schedule := []
    stale := [] }

end Sys2Proof.Machine
end

