-- ==== Sys2Proof/Machine/Run.lean ====
section
/-! DEFINITION. Runs of the machine and their end (00_scope.md R18, decision D12). The step itself never
ends a run but at an undefined encoding: that a run has ended is said here, beside it. -/

namespace Sys2Proof.Machine

/-- The platform makes no further move at any coming boundary. -/
def platformQuiet (s : State) : Bool := s.schedule.all List.isEmpty

/-- After STP or WIT, and nothing will resume the CPU: the platform presents no further request and no
request it has presented passes the acceptance test (R18, R322, R323, R346). -/
def suspendedForGood (s : State) : Bool :=
  decide (s.run ≠ .running) && platformQuiet s && (candidates s).isEmpty

/-- Control has reached one of the addresses that the launch designated (R18). -/
def exitReached (exits : List Addr) (s : State) : Bool :=
  decide (s.run = .running) && decide (s.pc24 ∈ exits)

/-- The run has ended (R18, decision D12). -/
def runEnded (exits : List Addr) (s : State) : Bool := suspendedForGood s || exitReached exits s

/-- `n` steps, whether or not the run has ended: the first fault or refusal, else the state after them. -/
def stepMany : Nat → State → Result
  | 0, s => .next s
  | n + 1, s =>
    match step s with
    | .next t => stepMany n t
    | .fault f => .fault f
    | .refused r => .refused r

/-- The run from `s` to its end, at most `n` steps of it (R18). -/
def runFor (exits : List Addr) : Nat → State → Result
  | 0, s => .next s
  | n + 1, s =>
    if runEnded exits s then .next s
    else
      match step s with
      | .next t => runFor exits n t
      | .fault f => .fault f
      | .refused r => .refused r

end Sys2Proof.Machine
end

