-- ==== Sys2Proof/Safety.lean ====
section
/-! DEFINITION. The terms the statements use. First the invariant of the machine and its safe runs. Then
results and effects said in numbers and in reads of single bytes, apart from the operations of the
machine, so that a statement compares two descriptions. Last, who writes what (10_state.md R31, R44, R46). -/

namespace Sys2Proof.Machine

/-! ## The invariant, and safety -/

/-- An earlier content that the queue may hold lies at one of the three bytes from PG :: PC on (R79). -/
def staleNear (s : State) : Bool :=
  s.stale.all fun c => decide (c.1 < 2 ^ 24) && inQueueWindow s (BitVec.ofNat 24 c.1)

/-- The invariant of the machine: memory is in its canonical form, and the queue can hold earlier contents
only of the three bytes from PG :: PC on, and the pending requests are a set (R335). -/
def State.Inv (s : State) : Prop :=
  Memory.wf s.mem = true ∧ staleNear s = true ∧ s.pending.Nodup

/-- The run from `s`, to its end or for `n` steps of it, meets no undefined encoding and no refusal
(R18). -/
def SafeFor (exits : List Addr) : Nat → State → Prop
  | 0, _ => True
  | n + 1, s => runEnded exits s = true ∨ ∃ t, step s = .next t ∧ SafeFor exits n t

/-! ## Numbers at a length -/

/-- How many values an operand has whose length flag is `flag`: 2^8 or 2^16 (R10). -/
def span (flag : Bool) : Nat := if flag then 256 else 65536

/-- `r[7:0]` or `r[15:0]` as a number (R11, R12). -/
def low (flag : Bool) (v : Word) : Nat := v.toNat % span flag

/-- A register that held `old` after a write of `n` at a length: with 8 bits, bits 15-8 stay (R11, R12). -/
def withLow (flag : Bool) (old : Word) (n : Nat) : Word :=
  BitVec.ofNat 16 (if flag then old.toNat / 256 * 256 + n % 256 else n)

/-- N and Z of a result at a length (R13). -/
def withNZ (flag : Bool) (n : Nat) (p : Psr) : Psr :=
  { p with n := decide (span flag ≤ 2 * (n % span flag)), z := decide (n % span flag = 0) }

/-- A number at a length read as a signed one. -/
def signed (flag : Bool) (n : Nat) : Int := if 2 * n < span flag then n else (n : Int) - span flag

/-- The number an accumulator form reads (R11). -/
def accNum (r : Acc) (s : State) : Nat := low s.ps.m (accGet r s)

/-- The number an operand form reads. -/
def opNum (flag : Bool) (op : Operand) (s : State) : Nat := (opRead (widthOf flag) op s).toNat

/-- The number a memory form reads. -/
def memNum (flag : Bool) (k : Mem) (s : State) : Nat := (memOperand (widthOf flag) k s).toNat

/-- The state after a write to an accumulator (R11). -/
def withAcc (r : Acc) (n : Nat) (s : State) : State :=
  match r with
  | .a => { s with a := withLow s.ps.m s.a n }
  | .b => { s with b := withLow s.ps.m s.b n }

/-- The state after a result into an accumulator with N and Z by m. -/
def gotAcc (r : Acc) (n : Nat) (s : State) : State :=
  { withAcc r n s with ps := withNZ s.ps.m n s.ps }

/-- The state after a result into X with N and Z by x. -/
def gotX (n : Nat) (s : State) : State :=
  { s with x := withLow s.ps.x s.x n, ps := withNZ s.ps.x n s.ps }

/-- The state after a result into Y with N and Z by x. -/
def gotY (n : Nat) (s : State) : State :=
  { s with y := withLow s.ps.x s.y n, ps := withNZ s.ps.x n s.ps }

/-! ## Stores, said by the reads of single bytes -/

/-- The byte at an address after stores to `cells`, the first one first: RAM takes a store, nothing else
shows it (R76, R81). -/
def viewAfter (s : State) (cells : List (Addr × Byte)) : Addr → Byte :=
  cells.foldl (fun f c a => if a = c.1 ∧ mapKind s c.1 = .ram then c.2 else f a) (busRead s)

/-- What has gone out to I/O after stores to `cells` (R81). -/
def ioAfterAll (s : State) (cells : List (Addr × Byte)) : List Host.Cell :=
  cells.foldl (fun io c => if mapKind s c.1 = .io then (c.1.toNat, c.2) :: io else io) s.ioOut

/-- `u` with the memory of `t`, its queue contents and what has gone out to I/O. -/
def State.memoryOf (u t : State) : State := { u with mem := t.mem, stale := t.stale, ioOut := t.ioOut }

/-- `t` is `u`, a state with the memory of `s`, after stores to exactly `cells`: every other byte reads as
before. What the queue may still hold of earlier contents is left to `InstructionQueueHazard`. -/
def Stores (cells : List (Addr × Byte)) (s u t : State) : Prop :=
  t = u.memoryOf t ∧
  (∀ a, busRead t a = viewAfter s cells a) ∧
  (∀ a, a ∉ cells.map Prod.fst → busRead t a = busRead s a) ∧
  t.ioOut = ioAfterAll s cells

/-- The bytes of a datum stored at an address at a length, low byte first (R63, R64). -/
def dataCells (flag : Bool) (p : Addr) (n : Nat) : List (Addr × Byte) :=
  if flag then [(p, BitVec.ofNat 8 n)] else [(p, BitVec.ofNat 8 n), (p + 1#24, BitVec.ofNat 8 (n / 256))]

/-- Bytes pushed in this order from S on: at 00 :: S, 00 :: S - 1, … modulo 2^16 (R14, R200). -/
def pushCells : Word → List Byte → List (Addr × Byte)
  | _, [] => []
  | sp, b :: rest => (zx24 sp, b) :: pushCells (sp - 1#16) rest

/-- `u` with another stack pointer. -/
def State.withSp (sp : Word) (u : State) : State := { u with sp := sp }

/-- `t` is `u` after the bytes have been pushed in this order on the stack of `s` (R14). -/
def Pushes (bytes : List Byte) (s u t : State) : Prop :=
  Stores (pushCells s.sp bytes) s (u.withSp (s.sp - BitVec.ofNat 16 bytes.length)) t

/-- A register's bytes in the order of their push: high byte first (R14, R200). -/
def pushBytes (flag : Bool) (v : Word) : List Byte := if flag then [lo8 v] else [hi8 v, lo8 v]

/-- The `k`-th byte above S, the `k`-th that pulls return (R14). -/
def stackByte (k : Nat) (s : State) : Nat := (busRead s (zx24 (s.sp + BitVec.ofNat 16 k))).toNat

/-- The word whose low byte is the `k`-th byte above S. -/
def stackWord (k : Nat) (s : State) : Nat := stackByte k s + 256 * stackByte (k + 1) s

/-- The word at a 24-bit address, as a number: low byte first, the second at the next address modulo 2^24
(R63, R64). -/
def wordAt (p : Nat) (s : State) : Nat :=
  (busRead s (BitVec.ofNat 24 p)).toNat + 256 * (busRead s (BitVec.ofNat 24 (p + 1))).toNat

/-- The result `n` of a read-modify-write form and the status `p` after it (R160). -/
def Modified (tg : Target) (n : Nat) (p : Psr) (s t : State) : Prop :=
  match tg with
  | .acc r => t = { withAcc r n s with ps := p }
  | .mem k => Stores (dataCells s.ps.m (effAddr k s) n) s { s with ps := p } t

/-- The number a read-modify-write form reads (R160). -/
def targetNum (tg : Target) (s : State) : Nat := (targetRead tg s).toNat

/-- The bytes seen after the first `n` transfers of a block: each is read, then written, before the next
(R196, R197). -/
def blockView (s : State) (src dst : Nat → Addr) : Nat → Addr → Byte
  | 0 => busRead s
  | n + 1 => fun a =>
    if a = dst n ∧ mapKind s (dst n) = .ram then blockView s src dst n (src n)
    else blockView s src dst n a

/-- The first `n` stores of a block, in their order: each byte as it is read when its turn comes. -/
def blockCells (s : State) (src dst : Nat → Addr) (n : Nat) : List (Addr × Byte) :=
  (List.range n).map fun k => (dst k, blockView s src dst k (src k))

/-! ## Control transfers -/

/-- Execution goes on at a 24-bit address, from a queue refilled from memory (R79). -/
def goTo (n : Nat) (s : State) : State :=
  { s with pg := BitVec.ofNat 8 (n / 65536), pc := BitVec.ofNat 16 n, stale := [] }

/-- A branch by a signed displacement from the next instruction (R290). -/
def branched (taken : Bool) (d : Int) (s : State) : State :=
  if taken then goTo (((s.pc24.toNat : Int) + d) % 2 ^ 24).toNat s else s

/-- `RET_BIAS` added to a number below 2^24 (R304). -/
def biased (n : Nat) (s : State) : Nat :=
  match s.par.retBias with
  | .zero => n % 2 ^ 24
  | .minusOne => (n + (2 ^ 24 - 1)) % 2 ^ 24

/-- `RET_BIAS` subtracted: 1 is added where the bias is -1 (R305, R306). -/
def unbiased (n : Nat) (s : State) : Nat :=
  match s.par.retBias with
  | .zero => n
  | .minusOne => n + 1

/-- `t` is `s` after the entry sequence with return address `ret`, a vector and the level `ipl` (R340):
five bytes pushed, I set, execution at the handler in bank 0. -/
def Entered (ret : Addr) (vector : Word) (ipl : BitVec 3) (s t : State) : Prop :=
  Pushes [bankOf ret, hi8 (offOf ret), lo8 (offOf ret), hi8 s.ps.toWord, lo8 s.ps.toWord] s
    { s with
      pg := 0#8
      pc := mkWord (busRead t (zx24 (vector + 1#16))) (busRead t (zx24 vector))
      ps := { s.ps with i := true, ipl := ipl }
      run := .running } t ∧
  t.stale = []

/-- A request passes the acceptance test (R336). -/
def Passes (s : State) (r : Request) : Prop :=
  r.level = .nonmaskable ∨ ∃ l, r.level = .maskable l ∧ s.ps.i = false ∧ s.ps.ipl.toNat < l.toNat

/-- A move presents a request (R335, R343). -/
def PlatformMove.presents (s : State) (q : Request) (mv : PlatformMove) : Prop :=
  mv = .request q ∨ ∃ source, mv = .watchdog source ∧ q = ⟨source, .nonmaskable, s.par.vecWatchdog⟩

/-- Every byte of bank 0 is RAM, as the stack needs (R62). -/
def StackIsRam (s : State) : Prop := ∀ a : Word, mapKind s (zx24 a) = .ram

end Sys2Proof.Machine

namespace Sys2Proof

/-! ## Who writes what -/

/-- A target in an accumulator. -/
def Target.isAcc (r : Acc) : Target → Bool
  | .acc q => q == r
  | .mem _ => false

/-- A target in memory. -/
def Target.isMem : Target → Bool
  | .acc _ => false
  | .mem _ => true

/-- The instructions that load or compute into a chosen accumulator (R46). -/
def Instr.resultIn (r : Acc) : Instr → Bool
  | .lda q _ | .ldal q _ | .adc q _ | .adcl q _ | .sbc q _ | .sbcl q _ | .and q _ | .andl q _
  | .ora q _ | .oral q _ | .eor q _ | .eorl q _ => q == r
  | .asl t | .lsr t | .rol t | .ror t | .inc t | .dec t => t.isAcc r
  | .xab | .mpy _ | .mpyl _ | .div _ | .divl _ => true
  | _ => false

/-- "Written by" of A (R46). -/
def Instr.writesA : Instr → Bool
  | .rla _ | .pla | .txa | .tya | .tda | .tsa | .mvn _ _ | .mvp _ _ => true
  | .pul nn => nn.getLsbD 0
  | i => i.resultIn .a

/-- "Written by" of B (R46); a PUL that restores PS may change its upper byte (R218). -/
def Instr.writesB : Instr → Bool
  | .plb | .txb | .tyb | .tdb | .tsb => true
  | .pul nn => nn.getLsbD 1 || nn.getLsbD 7
  | i => i.resultIn .b

/-- "Written by" of X (R46). -/
def Instr.writesX : Instr → Bool
  | .ldx _ | .inx | .dex | .plx | .tax | .tbx | .tsx | .tyx | .mvn _ _ | .mvp _ _ => true
  | .pul nn => nn.getLsbD 2
  | _ => false

/-- "Written by" of Y (R46). -/
def Instr.writesY : Instr → Bool
  | .ldy _ | .iny | .dey | .ply | .tay | .tby | .txy | .mvn _ _ | .mvp _ _ => true
  | .pul nn => nn.getLsbD 3
  | _ => false

/-- The pushes of 43_stack.md. -/
def Instr.isPush : Instr → Bool
  | .pha | .phb | .phd | .phg | .php | .pht | .phx | .phy | .psh _ | .pea _ | .pei _ | .per _ => true
  | _ => false

/-- "Written by" of S (R46), with the zero-division entry of DIV. -/
def Instr.writesS : Instr → Bool
  | .tas | .tbs | .txs | .pla | .plb | .pld | .plp | .plt | .plx | .ply | .pul _
  | .jsr _ | .jsrl _ | .rts | .rtl | .rti | .brk _ | .div _ | .divl _ => true
  | i => i.isPush

/-- "Written by" of DT (R46). -/
def Instr.writesDt : Instr → Bool
  | .ldt _ | .plt | .mvn _ _ | .mvp _ _ => true
  | .pul nn => nn.getLsbD 5
  | _ => false

/-- "Written by" of DPR (R46). -/
def Instr.writesDpr : Instr → Bool
  | .tad | .tbd | .pld => true
  | .pul nn => nn.getLsbD 4
  | _ => false

/-- The instructions that change PG :: PC beyond passing their own bytes (R31). -/
def Instr.transfersControl : Instr → Bool
  | .bcc _ | .bcs _ | .beq _ | .bmi _ | .bne _ | .bpl _ | .bvc _ | .bvs _ | .bra _ | .bral _
  | .bbc _ _ _ | .bbs _ _ _ | .jmp _ | .jmpl _ | .jsr _ | .jsrl _ | .rts | .rtl | .rti | .brk _
  | .div _ | .divl _ => true
  | _ => false

/-- The instructions whose rule makes a store. -/
def Instr.stores : Instr → Bool
  | .sta _ _ | .stal _ _ | .stx _ | .sty _ | .ldm _ _ | .clb _ _ | .seb _ _ | .mvn _ _ | .mvp _ _
  | .jsr _ | .jsrl _ | .brk _ | .div _ | .divl _ => true
  | .asl t | .lsr t | .rol t | .ror t | .inc t | .dec t => t.isMem
  | i => i.isPush

/-- The instructions that write no bit of PS: those R44 lists so, and PUL without bit 7, which its table of
writers does not hold. -/
def Instr.keepsPs : Instr → Bool
  | .bbc _ _ _ | .bbs _ _ _ | .bcc _ | .bcs _ | .beq _ | .bmi _ | .bne _ | .bpl _ | .bvc _ | .bvs _
  | .bra _ | .bral _ | .clb _ _ | .seb _ _ | .jmp _ | .jmpl _ | .jsr _ | .jsrl _ | .ldm _ _ | .ldt _
  | .mvn _ _ | .mvp _ _ | .nop | .pea _ | .pei _ | .per _ | .pha | .phb | .phd | .phg | .php | .pht
  | .phx | .phy | .pld | .psh _ | .rla _ | .rtl | .rts | .sta _ _ | .stal _ _ | .stx _ | .sty _
  | .stp | .wit | .tad | .tas | .tbd | .tbs | .txs => true
  | .pul nn => !nn.getLsbD 7
  | _ => false

/-- The instructions that pull PS from the stack (R33, R42). -/
def Instr.pullsPs : Instr → Bool
  | .plp | .rti => true
  | .pul nn => nn.getLsbD 7
  | _ => false

end Sys2Proof
end

