-- ==== Sys2Proof/Certificates/Slice0/Obligations.lean ====
section
/-! DEFINITION. The statements for the provers. Results are said in numbers, bytes read and records of the
state, in the terms of Sys2Proof/Safety.lean. A record `{ s with … }` says the whole state: what it does
not name is as in `s`, every register, flag and byte of memory. -/

section Statements

open Sys2Proof Sys2Proof.Machine

/-! ## Encoding -/

/-- R91 to R105, R110: decoding the encoded bytes of a well-formed instruction, whatever follows them,
gives the instruction and its length, under every value of the flags m and x. -/
def Obligations.DecodeInvertsEncode : Prop :=
  ∀ (m x : Bool) (i : Instr) (f : Nat → Byte), i.wellFormed m x = true →
    (∀ k b, (encode m x i)[k]? = some b → f k = b) →
    decode m x f = .ok (i, (encode m x i).length)

/-- R91 to R105: what decodes is well-formed, and its encoding is exactly the bytes that were read. -/
def Obligations.EncodeInvertsDecode : Prop :=
  ∀ (m x : Bool) (f : Nat → Byte) (i : Instr) (len : Nat), decode m x f = .ok (i, len) →
    i.wellFormed m x = true ∧ encode m x i = (List.range len).map f

/-- R118: worked examples of the manual decode to the instructions they stand for. -/
def Obligations.ManualWordsDecode : Prop :=
  let at' : List Byte → Nat → Byte := fun l k => l.getD k 0#8
  decode true true (at' [0x61#8, 0x1E#8]) = .ok (.adc .a (.mem (.indX 0x1E#8)), 2) ∧
  decode true true (at' [0x77#8, 0x1E#8]) = .ok (.adcl .a (.longY 0x1E#8), 2) ∧
  decode false false (at' [0x6F#8, 0x56#8, 0x34#8, 0x12#8]) = .ok (.adc .a (.mem (.abl 0x123456#24)), 4) ∧
  decode false false (at' [0x5C#8, 0x56#8, 0x34#8, 0x12#8]) = .ok (.jmpl (.abl 0x123456#24), 4) ∧
  decode false false (at' [0xDC#8, 0x34#8, 0x12#8]) = .ok (.jmpl (.ind 0x1234#16), 3) ∧
  decode false false (at' [0xD4#8, 0x12#8]) = .ok (.pei 0x12#8, 2) ∧
  decode false false (at' [0x62#8, 0x34#8, 0x12#8]) = .ok (.per 0x1234#16, 3) ∧
  decode true false (at' [0x24#8, 0x04#8, 0x5A#8, 0xF6#8]) = .ok (.bbs (.dir 0x04#8) 0x5A#16 0xF6#8, 4) ∧
  decode false false (at' [0x2C#8, 0x34#8, 0x12#8, 0xA5#8, 0x5A#8, 0xF6#8]) =
    .ok (.bbs (.abs 0x1234#16) 0x5AA5#16 0xF6#8, 6)

/-! ## The step -/

/-- R19: with no reset, no accepted request and the CPU running, the step performs the decoded instruction
on the state whose PG :: PC has passed the instruction's bytes; apart from that, the queue's earlier
contents and the draw counter, that state is the one after the platform's moves. THE MODEL'S CHOICE, log
entry 18 (decision D16): past FFFFFFh the address goes on at 000000h. -/
def Obligations.StepRunsDecodedInstruction : Prop :=
  ∀ (s : State) (i : Instr) (len : Nat), resetAsserted s = false → chooseRequest (boundary s) = none →
    (boundary s).run = .running →
    decode (boundary s).ps.m (boundary s).ps.x (fetchByte (boundary s)) = .ok (i, len) →
    step s = exec i (enterInstr len (boundary s)) ∧
    (enterInstr len (boundary s)).pc24.toNat = ((boundary s).pc24.toNat + len) % 2 ^ 24 ∧
    enterInstr len (boundary s) =
      { boundary s with
        pg := (enterInstr len (boundary s)).pg
        pc := (enterInstr len (boundary s)).pc
        stale := (enterInstr len (boundary s)).stale
        draws := (boundary s).draws + 1 } ∧
    (s.schedule.headD [] = [] →
      boundary s = { s with schedule := s.schedule.tail, draws := s.draws + 1 })

/-- R106, R332 (decision D4, log entry 19): an undefined encoding ends the run with the fault that names its
address and bytes; the undefined encodings are first byte 02h, 121 second bytes after 42h and 223 after 89h. -/
def Obligations.UndefinedEncodingFaults : Prop :=
  (∀ s : State, resetAsserted s = false → chooseRequest (boundary s) = none →
    (boundary s).run = .running → ∀ e,
    decode (boundary s).ps.m (boundary s).ps.x (fetchByte (boundary s)) = .error e →
    step s = .fault (.undefinedOpcode (boundary s).pc24 e.bytes)) ∧
  (∀ (m x : Bool) (f : Nat → Byte),
    (∃ e, decode m x f = .error e) ↔
      f 0 = 0x02#8 ∨ (f 0 = 0x42#8 ∧ layout2 (f 1) = none) ∨ (f 0 = 0x89#8 ∧ layout3 (f 1) = none)) ∧
  ((List.range 256).filter fun b => (layout2 (BitVec.ofNat 8 b)).isNone).length = 121 ∧
  ((List.range 256).filter fun b => (layout3 (BitVec.ofNat 8 b)).isNone).length = 223

/-- R336, R340, R343, R346: a chosen request is accepted whatever the run state: the entry sequence with the
boundary's PG :: PC as return address, IPL set to the level (for the watchdog to the parameter), and the
request removed from the set. THE MODEL'S CHOICE, log entries 24 and 26 (decision D7): the test is made at
boundaries only, and the watchdog's IPL is a parameter; and log entry 8 (deduced): the second byte of a
vector at FFFFh is read at 000000h, in bank 0. -/
def Obligations.StepAcceptsRequest : Prop :=
  ∀ (s : State) (r : Request), resetAsserted s = false → chooseRequest (boundary s) = some r →
    Memory.wf s.mem = true →
    ∃ u ipl,
      (∀ l, r.level = .maskable l → ipl = l) ∧ (r.level = .nonmaskable → ipl = s.par.watchdogIpl) ∧
      Entered (boundary s).pc24 r.vector ipl (boundary s) u ∧
      step s = .next
        { u with
          pending := (boundary s).pending.filter fun q => decide (q ≠ r)
          draws := u.draws + 1 }

/-- R336, R337: a request is chosen exactly when one passes the acceptance test; the chosen one is pending,
passes it, and none that passes is of higher rank: nonmaskable first, then the highest level. THE MODEL'S
CHOICE, log entries 7 and 26 (decision D7): the watchdog ignores I and IPL and comes before every maskable
request, and among equals the choice is free. -/
def Obligations.ChosenRequestIsHighest : Prop :=
  ∀ s : State,
    (chooseRequest s = none ↔ ∀ r ∈ s.pending, ¬ Passes s r) ∧
    ∀ r, chooseRequest s = some r →
      r ∈ s.pending ∧ Passes s r ∧
      ∀ q ∈ s.pending, Passes s q →
        (q.level = .nonmaskable → r.level = .nonmaskable) ∧
        ∀ l l', r.level = .maskable l → q.level = .maskable l' → l'.toNat ≤ l.toNat

/-- R346: waiting or stopped, and no request passing the test, the step does nothing (the draw counter,
which is the model's own, advances). THE MODEL'S CHOICE, log entry 24 (decision D7): a request that fails the
test does not end WIT or STP. -/
def Obligations.WaitingAndStoppedStay : Prop :=
  ∀ s : State, resetAsserted s = false → (∀ r ∈ (boundary s).pending, ¬ Passes (boundary s) r) →
    (s.run = .waiting ∨ s.run = .stopped) →
    step s = .next (boundary s) ∧ (boundary s).run = s.run ∧
    (s.schedule = [] → boundary s = { s with draws := s.draws + 1 })

/-- R370, R337: a boundary at which the platform asserts reset, whatever else it does there and from any run
state: the last reset decides. The fields of RESET_STATE, PC from VEC_RESET, the CPU running, and pending
the platform's choice with what it presents after the reset, as a set; what was pending or presented before
is gone, and memory is kept. What R370 leaves unspecified is not stated. THE MODEL'S CHOICE, log entries 2
and 8 (decision D2): that reset sets these fields from RESET_STATE and PC from the two bank-0 bytes at
VEC_RESET. -/
def Obligations.ResetTransition : Prop :=
  ∀ (s : State) (before after : List PlatformMove) (p : List Request) (rest : List (List PlatformMove)),
    s.schedule = (before ++ PlatformMove.reset p :: after) :: rest →
    after.any PlatformMove.isReset = false →
    let u : State := { s with draws := s.draws + 1 + before.countP PlatformMove.isReset }
    ∃ t, step s = .next t ∧ t.run = .running ∧
      t.pending.Nodup ∧ (∀ q, q ∈ t.pending ↔ q ∈ p ∨ ∃ mv ∈ after, mv.presents s q) ∧
      t.pg = s.par.resetState.pg ∧ t.dt = s.par.resetState.dt ∧ t.dpr = s.par.resetState.dpr ∧
      t.pc = mkWord (busRead u (zx24 (s.par.vecReset + 1#16))) (busRead u (zx24 s.par.vecReset)) ∧
      t.ps.ipl = s.par.resetState.ipl ∧ t.ps.i = s.par.resetState.i ∧
      t.ps.m = s.par.resetState.m ∧ t.ps.x = s.par.resetState.x ∧
      t.mem = s.mem ∧ t.ioOut = s.ioOut ∧ t.stale = [] ∧ t.par = s.par ∧ t.schedule = rest

/-! ## Invariants and whole-machine rules -/

/-- Every step keeps the canonical form of memory, and earlier contents in the queue only at the three bytes
from PG :: PC on (R79), and the pending requests a set (R335). -/
def Obligations.StepKeepsInvariant : Prop :=
  ∀ s t : State, s.Inv → step s = .next t → t.Inv

/-- The invariant holds after reset. -/
def Obligations.ResetHasInvariant : Prop := State.reset.Inv

/-- THE MODEL'S CHOICE, log entries 1, 2, 3, 7 and 20: the values of State.reset. The spec gives the
defaults of RESET_STATE as general knowledge; the rest it leaves unspecified. -/
def Obligations.ResetStateValues : Prop :=
  let s := State.reset
  s.run = .running ∧ s.ps.toWord = 0x0004#16 ∧ s.pg = 0#8 ∧ s.dt = 0#8 ∧ s.dpr = 0#16 ∧
  s.pc24 = 0#24 ∧ s.a = 0#16 ∧ s.b = 0#16 ∧ s.x = 0#16 ∧ s.y = 0#16 ∧ s.sp = 0#16 ∧
  s.pending = [] ∧ s.mem = [] ∧ s.par = Config.Params.default ∧
  s.pc = mkWord (busRead s (zx24 (s.par.vecReset + 1#16))) (busRead s (zx24 s.par.vecReset))

/-- R331: every instruction, whatever its operands and the state, completes with a next state. -/
def Obligations.EveryInstructionCompletes : Prop := ∀ (i : Instr) (s : State), ∃ t, exec i s = .next t

/-- R331, R332: a step goes on, or it stops because the bytes at PG :: PC are an undefined encoding. THE
MODEL'S CHOICE, log entry 19 (decision D4): that it stops there, with this fault. -/
def Obligations.StepOnlyStopsOnUndefined : Prop :=
  ∀ s : State, (∃ t, step s = .next t) ∨
    ∃ e, fetchDecode (boundary s) = .error e ∧
      step s = .fault (.undefinedOpcode (boundary s).pc24 e.bytes)

/-- R7: no step changes a parameter, and each takes one entry of the platform's schedule. -/
def Obligations.StepKeepsParameters : Prop :=
  ∀ s t : State, step s = .next t → t.par = s.par ∧ t.schedule = s.schedule.tail

/-- R33 (last column), R42, R349: IPL is written only by what pulls PS; D and x further only by SEP and CLP;
m further by SEM and CLM; I further by CLI, SEI and the entries of BRK and zero division. -/
def Obligations.ModeBitWriters : Prop :=
  ∀ (i : Instr) (s t : State), exec i s = .next t → i.pullsPs = false →
    t.ps.ipl = s.ps.ipl ∧
    ((∀ v, i ≠ .sep v) → (∀ v, i ≠ .clp v) →
      t.ps.d = s.ps.d ∧ t.ps.x = s.ps.x ∧
      (i ≠ .sem → i ≠ .clm → t.ps.m = s.ps.m) ∧
      (i ≠ .sei → i ≠ .cli → (∀ n, i ≠ .brk n) → (∀ o, i ≠ .div o) → (∀ k, i ≠ .divl k) →
        t.ps.i = s.ps.i))

/-- R44: an instruction that the table of flag writers does not list writes no bit of PS; PUL without bit 7
is one. -/
def Obligations.UnlistedInstructionsKeepPs : Prop :=
  ∀ (i : Instr) (s t : State), exec i s = .next t → i.keepsPs = true → t.ps = s.ps

/-- R46, column "written by": each register is written only by the instructions listed for it (S also by
the entry of a zero division, B's upper byte also by R218). -/
def Obligations.RegisterWriters : Prop :=
  ∀ (i : Instr) (s t : State), exec i s = .next t →
    (i.writesA = false → t.a = s.a) ∧ (i.writesB = false → t.b = s.b) ∧
    (i.writesX = false → t.x = s.x) ∧ (i.writesY = false → t.y = s.y) ∧
    (i.writesS = false → t.sp = s.sp) ∧ (i.writesDt = false → t.dt = s.dt) ∧
    (i.writesDpr = false → t.dpr = s.dpr)

/-- R31: an instruction that is no control transfer leaves PG :: PC at the following instruction. -/
def Obligations.ProgramCounterKept : Prop :=
  ∀ (i : Instr) (s t : State), exec i s = .next t → i.transfersControl = false →
    t.pg = s.pg ∧ t.pc = s.pc

/-- R70, R335: an instruction whose rule makes no store leaves every byte as it was and sends nothing to
I/O; no instruction changes the pending requests, the schedule, the parameters or the draw counter. -/
def Obligations.NonStoringKeepMemory : Prop :=
  ∀ (i : Instr) (s t : State), exec i s = .next t →
    (i.stores = false → t.mem = s.mem ∧ t.ioOut = s.ioOut ∧ ∀ a, busRead t a = busRead s a) ∧
    t.pending = s.pending ∧ t.schedule = s.schedule ∧ t.par = s.par ∧ t.draws = s.draws

/-! ## PS, memory, queue -/

/-- R33, R43: the image of PS has each field in its place and zeros above; a word pulled into PS loses its
bits 15-11 and nothing else. -/
def Obligations.PsImage : Prop :=
  (∀ p : Psr, p.toWord.toNat =
    p.c.toNat + 2 * p.z.toNat + 4 * p.i.toNat + 8 * p.d.toNat + 16 * p.x.toNat + 32 * p.m.toNat +
      64 * p.v.toNat + 128 * p.n.toNat + 256 * p.ipl.toNat) ∧
  (∀ p : Psr, Psr.ofWord p.toWord = p) ∧
  ∀ w : Word, (Psr.ofWord w).toWord.toNat = w.toNat % 2048

/-- R63, R64, R76: what a datum stored at an address reads as, at both lengths, in RAM; the second byte is at
the next address. THE MODEL'S CHOICE, log entry 18 (decision D16): past FFFFFFh that is 000000h. -/
def Obligations.WordsAreLittleEndian : Prop :=
  ∀ (s : State) (a : Addr) (v : Word), Memory.wf s.mem = true → mapKind s a = .ram →
    mapKind s (a + 1#24) = .ram →
    readWord (writeData .word a v s) a = v ∧
    readData .byte (writeData .word a v s) a = zx8 (lo8 v) ∧
    readData .byte (writeData .word a v s) (a + 1#24) = zx8 (hi8 v) ∧
    readWord (writeData .byte a v s) a = mkWord (busRead s (a + 1#24)) (lo8 v)

/-- R79: a store leaves an earlier content for the queue only at the three bytes from PG :: PC on; a fetch
sees memory's byte or an earlier content held for its address, and memory's byte where none is held; a
control transfer leaves none. THE MODEL'S CHOICE, log entry 6 (decision D11): either content may be seen;
and log entry 18 (decision D16): the three bytes go on at 000000h past FFFFFFh. -/
def Obligations.InstructionQueueHazard : Prop :=
  (∀ (s : State) (a : Addr) (v : Byte) (c : Host.Cell), c ∈ (busWrite a v s).stale →
    c ∈ s.stale ∨
      (c = (a.toNat, memRead s.mem a.toNat) ∧
        ∃ k, k < 3 ∧ a.toNat = (s.pc24.toNat + k) % 2 ^ 24)) ∧
  (∀ (s : State) (a : Addr),
    fetchAt s a = busRead s a ∨ (a.toNat, fetchAt s a) ∈ s.stale) ∧
  (∀ (s : State) (a : Addr), (∀ b, (a.toNat, b) ∉ s.stale) → fetchAt s a = busRead s a) ∧
  ∀ (s : State) (n : Addr), (jumpTo n s).stale = []

/-! ## Addressing modes -/

/-- R123, R125, R126, R145, R149: the direct and stack-relative addresses, unreduced sums that may leave
bank 0. -/
def Obligations.DirectAddresses : Prop :=
  ∀ (s : State) (d : Byte),
    (effAddr (.dir d) s).toNat = s.dpr.toNat + d.toNat ∧
    (effAddr (.dirX d) s).toNat = s.dpr.toNat + d.toNat + low s.ps.x s.x ∧
    (effAddr (.dirY d) s).toNat = s.dpr.toNat + d.toNat + low s.ps.x s.y ∧
    (effAddr (.sr d) s).toNat = s.sp.toNat + d.toNat

/-- R127 to R131, R146: the addresses that go through a pointer in memory. THE MODEL'S CHOICE, log entry 18
(decision D16): the sums with Y, and the bytes of a pointer, go on at 000000h past FFFFFFh. -/
def Obligations.IndirectAddresses : Prop :=
  ∀ (s : State) (d : Byte),
    let p := s.dpr.toNat + d.toNat
    let bank := s.dt.toNat * 65536
    let long := wordAt p s + 65536 * (busRead s (BitVec.ofNat 24 (p + 2))).toNat
    (effAddr (.ind d) s).toNat = bank + wordAt p s ∧
    (effAddr (.indX d) s).toNat = bank + wordAt (p + low s.ps.x s.x) s ∧
    (effAddr (.indY d) s).toNat = (bank + wordAt p s + low s.ps.x s.y) % 2 ^ 24 ∧
    (effAddr (.long d) s).toNat = long ∧
    (effAddr (.longY d) s).toNat = (long + low s.ps.x s.y) % 2 ^ 24 ∧
    (effAddr (.srY d) s).toNat = (bank + wordAt (s.sp.toNat + d.toNat) s + low s.ps.x s.y) % 2 ^ 24

/-- R132, R134 to R137 (data): the absolute addresses. THE MODEL'S CHOICE, log entry 18 (decision D16): the
indexed ones go on at 000000h past FFFFFFh. -/
def Obligations.AbsoluteAddresses : Prop :=
  ∀ (s : State) (w : Word) (l : Addr),
    (effAddr (.abs w) s).toNat = s.dt.toNat * 65536 + w.toNat ∧
    (effAddr (.absX w) s).toNat = (s.dt.toNat * 65536 + w.toNat + low s.ps.x s.x) % 2 ^ 24 ∧
    (effAddr (.absY w) s).toNat = (s.dt.toNat * 65536 + w.toNat + low s.ps.x s.y) % 2 ^ 24 ∧
    (effAddr (.abl l) s).toNat = l.toNat ∧
    (effAddr (.ablX l) s).toNat = (l.toNat + low s.ps.x s.x) % 2 ^ 24

/-- R121, R122, R160: the number each operand form reads: the immediate, the accumulator, or memory at the
effective address, one byte or two with the low byte first. THE MODEL'S CHOICE, log entry 18 (decision D16):
after FFFFFFh the second byte is at 000000h. -/
def Obligations.OperandReads : Prop :=
  ∀ (s : State) (flag : Bool),
    (∀ v, opNum flag (.imm v) s = low flag v) ∧
    (∀ k, opNum flag (.mem k) s = memNum flag k s) ∧
    (∀ k, memNum flag k s =
      if flag then (busRead s (effAddr k s)).toNat else wordAt (effAddr k s).toNat s) ∧
    (∀ r, targetNum (.acc r) s = accNum r s) ∧
    ∀ k, targetNum (.mem k) s = memNum s.ps.m k s

/-! ## Load and store -/

/-- R161, R163, R164, R165: the loads. -/
def Obligations.LoadResults : Prop :=
  ∀ s : State,
    (∀ r op, exec (.lda r op) s = .next (gotAcc r (opNum s.ps.m op s) s)) ∧
    (∀ r k, exec (.ldal r k) s = .next (gotAcc r (memNum s.ps.m k s) s)) ∧
    (∀ op, exec (.ldx op) s = .next (gotX (opNum s.ps.x op s) s)) ∧
    (∀ op, exec (.ldy op) s = .next (gotY (opNum s.ps.x op s) s)) ∧
    ∀ v, exec (.ldt v) s = .next { s with dt := v }

/-- R162, R166, R167, R168: the stores, of one byte or two at the effective address; no register and no
flag changes. THE MODEL'S CHOICE, log entry 18 (decision D16): after FFFFFFh the second byte is at 000000h. -/
def Obligations.StoreResults : Prop :=
  ∀ s : State, Memory.wf s.mem = true →
    (∀ r k, ∃ t, exec (.sta r k) s = .next t ∧
      Stores (dataCells s.ps.m (effAddr k s) (accNum r s)) s s t) ∧
    (∀ r k, ∃ t, exec (.stal r k) s = .next t ∧
      Stores (dataCells s.ps.m (effAddr k s) (accNum r s)) s s t) ∧
    (∀ k, ∃ t, exec (.stx k) s = .next t ∧
      Stores (dataCells s.ps.x (effAddr k s) (low s.ps.x s.x)) s s t) ∧
    (∀ k, ∃ t, exec (.sty k) s = .next t ∧
      Stores (dataCells s.ps.x (effAddr k s) (low s.ps.x s.y)) s s t) ∧
    ∀ k (v : Word), ∃ t, exec (.ldm k v) s = .next t ∧
      Stores (dataCells s.ps.m (effAddr k s) v.toNat) s s t

/-! ## Transfers -/

/-- R179 to R182, R184, R185, R188, R189: the transfers into an accumulator, with their encodings. -/
def Obligations.TransfersToAccumulators : Prop :=
  (∀ s : State,
    exec .tda s = .next (gotAcc .a s.dpr.toNat s) ∧
    exec .tdb s = .next (gotAcc .b s.dpr.toNat s) ∧
    exec .tsa s = .next (gotAcc .a s.sp.toNat s) ∧
    exec .tsb s = .next (gotAcc .b s.sp.toNat s) ∧
    exec .txa s = .next (gotAcc .a (low s.ps.x s.x) s) ∧
    exec .txb s = .next (gotAcc .b (low s.ps.x s.x) s) ∧
    exec .tya s = .next (gotAcc .a (low s.ps.x s.y) s) ∧
    exec .tyb s = .next (gotAcc .b (low s.ps.x s.y) s)) ∧
  ∀ m x : Bool,
    encode m x .tda = [0x7B#8] ∧ encode m x .tdb = [0x42#8, 0x7B#8] ∧
    encode m x .tsa = [0x3B#8] ∧ encode m x .tsb = [0x42#8, 0x3B#8] ∧
    encode m x .txa = [0x8A#8] ∧ encode m x .txb = [0x42#8, 0x8A#8] ∧
    encode m x .tya = [0x98#8] ∧ encode m x .tyb = [0x42#8, 0x98#8]

/-- R173, R174, R177, R178, R183, R187, R190: the transfers into an index register, with their encodings. -/
def Obligations.TransfersToIndexRegisters : Prop :=
  (∀ s : State,
    exec .tax s = .next (gotX s.a.toNat s) ∧
    exec .tay s = .next (gotY s.a.toNat s) ∧
    exec .tbx s = .next (gotX s.b.toNat s) ∧
    exec .tby s = .next (gotY s.b.toNat s) ∧
    exec .tsx s = .next (gotX s.sp.toNat s) ∧
    exec .txy s = .next (gotY (low s.ps.x s.x) s) ∧
    exec .tyx s = .next (gotX (low s.ps.x s.y) s)) ∧
  ∀ m x : Bool,
    encode m x .tax = [0xAA#8] ∧ encode m x .tay = [0xA8#8] ∧
    encode m x .tbx = [0x42#8, 0xAA#8] ∧ encode m x .tby = [0x42#8, 0xA8#8] ∧
    encode m x .tsx = [0xBA#8] ∧ encode m x .txy = [0x9B#8] ∧ encode m x .tyx = [0xBB#8]

/-- R171, R172, R175, R176, R186: the transfers into DPR and S, 16 bits and no flag, with their encodings. -/
def Obligations.TransfersToStackAndDirectPage : Prop :=
  (∀ s : State,
    exec .tad s = .next { s with dpr := s.a } ∧
    exec .tbd s = .next { s with dpr := s.b } ∧
    exec .tas s = .next { s with sp := s.a } ∧
    exec .tbs s = .next { s with sp := s.b } ∧
    exec .txs s = .next { s with sp := BitVec.ofNat 16 (low s.ps.x s.x) }) ∧
  ∀ m x : Bool,
    encode m x .tad = [0x5B#8] ∧ encode m x .tbd = [0x42#8, 0x5B#8] ∧
    encode m x .tas = [0x1B#8] ∧ encode m x .tbs = [0x42#8, 0x1B#8] ∧ encode m x .txs = [0x9A#8]

/-- R191: XAB exchanges the accumulators at the data length; N and Z from the new A. THE MODEL'S CHOICE, log
entry 17 (decision D20): with m = 1 the low bytes only. -/
def Obligations.ExchangeAccumulators : Prop :=
  (∀ s : State, exec .xab s = .next
    { s with
      a := withLow s.ps.m s.a (low s.ps.m s.b)
      b := withLow s.ps.m s.b (low s.ps.m s.a)
      ps := withNZ s.ps.m (low s.ps.m s.b) s.ps }) ∧
  ∀ m x : Bool, encode m x .xab = [0x89#8, 0x28#8]

/-- R196, R197, R199: MVN and MVP move exactly the count's bytes, each read and then written before the
next, and end with A all ones at the data length, X and Y moved by the count and DT the target bank; what
goes to I/O is the stores there, in their order. THE MODEL'S CHOICE, log entry 10 (decisions D7 and D15):
the whole block is one step, and a count of 0 sets A and DT too; the element addresses are those of
`BlockElementAddresses` (log entries 10 and 18). -/
def Obligations.BlockMoves : Prop :=
  ∀ (s : State) (n1 n2 : Byte), Memory.wf s.mem = true →
    let cnt := accNum .a s
    (∃ t, exec (.mvn n1 n2) s = .next t ∧
      t = { s with
        a := withLow s.ps.m s.a 65535
        x := withLow s.ps.x s.x (low s.ps.x s.x + cnt)
        y := withLow s.ps.x s.y (low s.ps.x s.y + cnt)
        dt := n1, mem := t.mem, stale := t.stale, ioOut := t.ioOut } ∧
      (∀ a, busRead t a =
        blockView s (fun k => blockAddr n2 s.x (BitVec.ofNat 24 k) s)
          (fun k => blockAddr n1 s.y (BitVec.ofNat 24 k) s) cnt a) ∧
      (∀ a, (∀ k, k < cnt → a ≠ blockAddr n1 s.y (BitVec.ofNat 24 k) s) →
        busRead t a = busRead s a) ∧
      t.ioOut = ioAfterAll s
        (blockCells s (fun k => blockAddr n2 s.x (BitVec.ofNat 24 k) s)
          (fun k => blockAddr n1 s.y (BitVec.ofNat 24 k) s) cnt)) ∧
    ∃ t, exec (.mvp n1 n2) s = .next t ∧
      t = { s with
        a := withLow s.ps.m s.a 65535
        x := withLow s.ps.x s.x (low s.ps.x s.x + 65536 - cnt)
        y := withLow s.ps.x s.y (low s.ps.x s.y + 65536 - cnt)
        dt := n1, mem := t.mem, stale := t.stale, ioOut := t.ioOut } ∧
      (∀ a, busRead t a =
        blockView s (fun k => blockAddr n2 s.x (-BitVec.ofNat 24 k) s)
          (fun k => blockAddr n1 s.y (-BitVec.ofNat 24 k) s) cnt a) ∧
      (∀ a, (∀ k, k < cnt → a ≠ blockAddr n1 s.y (-BitVec.ofNat 24 k) s) →
        busRead t a = busRead s a) ∧
      t.ioOut = ioAfterAll s
        (blockCells s (fun k => blockAddr n2 s.x (-BitVec.ofNat 24 k) s)
          (fun k => blockAddr n1 s.y (-BitVec.ofNat 24 k) s) cnt)

/-- R198: the address of element `k` of a block, ascending and descending. THE MODEL'S CHOICE, log entries 10
and 18 (decisions D15 and D16): the two values of BLOCK_WRAP, and 000000h past FFFFFFh. -/
def Obligations.BlockElementAddresses : Prop :=
  ∀ (s : State) (bank : Byte) (index : Word) (k : Nat),
    let up := (blockAddr bank index (BitVec.ofNat 24 k) s).toNat
    let down := ((blockAddr bank index (-BitVec.ofNat 24 k) s).toNat : Int)
    let base := bank.toNat * 65536
    (s.ps.x = true → up = base + (index.toNat + k) % 256 ∧
      down = base + ((index.toNat : Int) - k) % 256) ∧
    (s.ps.x = false → s.par.blockWrap = .carry → up = (base + index.toNat + k) % 2 ^ 24 ∧
      down = ((base : Int) + index.toNat - k) % 2 ^ 24) ∧
    (s.ps.x = false → s.par.blockWrap = .wrap → up = base + (index.toNat + k) % 65536 ∧
      down = base + ((index.toNat : Int) - k) % 65536)

/-! ## Stack -/

/-- R201 to R208, R221 to R223: the pushes: which bytes, in which order, S lower by their number, nothing
else. THE MODEL'S CHOICE, log entry 11 (decision D3): the base of PER under RET_BIAS. -/
def Obligations.PushResults : Prop :=
  ∀ s : State, Memory.wf s.mem = true →
    (∃ t, exec .pha s = .next t ∧ Pushes (pushBytes s.ps.m s.a) s s t) ∧
    (∃ t, exec .phb s = .next t ∧ Pushes (pushBytes s.ps.m s.b) s s t) ∧
    (∃ t, exec .phx s = .next t ∧ Pushes (pushBytes s.ps.x s.x) s s t) ∧
    (∃ t, exec .phy s = .next t ∧ Pushes (pushBytes s.ps.x s.y) s s t) ∧
    (∃ t, exec .phd s = .next t ∧ Pushes [hi8 s.dpr, lo8 s.dpr] s s t) ∧
    (∃ t, exec .php s = .next t ∧ Pushes [hi8 s.ps.toWord, lo8 s.ps.toWord] s s t) ∧
    (∃ t, exec .phg s = .next t ∧ Pushes [s.pg] s s t) ∧
    (∃ t, exec .pht s = .next t ∧ Pushes [s.dt] s s t) ∧
    (∀ v : Word, ∃ t, exec (.pea v) s = .next t ∧ Pushes [hi8 v, lo8 v] s s t) ∧
    (∀ d : Byte, ∃ t, exec (.pei d) s = .next t ∧
      Pushes [busRead s (BitVec.ofNat 24 (s.dpr.toNat + d.toNat + 1)),
        busRead s (BitVec.ofNat 24 (s.dpr.toNat + d.toNat))] s s t) ∧
    ∀ v : Word, ∃ t, exec (.per v) s = .next t ∧
      let n := biased (s.pc.toNat + v.toNat) s
      Pushes [BitVec.ofNat 8 (n / 256), BitVec.ofNat 8 n] s s t

/-- R209 to R215: the single-register pulls, their lengths and their flags. -/
def Obligations.PullResults : Prop :=
  ∀ s : State,
    let nm : Word := if s.ps.m then 1#16 else 2#16
    let nx : Word := if s.ps.x then 1#16 else 2#16
    let w := stackWord 1 s
    exec .pla s = .next { gotAcc .a w s with sp := s.sp + nm } ∧
    exec .plb s = .next { gotAcc .b w s with sp := s.sp + nm } ∧
    exec .plx s = .next { gotX w s with sp := s.sp + nx } ∧
    exec .ply s = .next { gotY w s with sp := s.sp + nx } ∧
    exec .pld s = .next { s with dpr := BitVec.ofNat 16 w, sp := s.sp + 2#16 } ∧
    exec .plp s = .next { s with ps := Psr.ofWord (BitVec.ofNat 16 w), sp := s.sp + 2#16 } ∧
    exec .plt s = .next
      { s with
        dt := BitVec.ofNat 8 (stackByte 1 s)
        ps := withNZ true (stackByte 1 s) s.ps
        sp := s.sp + 1#16 }

/-- R216 with R114: PSH pushes the selected registers in the order A, B, X, Y, DPR, DT, PG, PS. -/
def Obligations.PshStores : Prop :=
  ∀ (s : State) (nn : Byte), Memory.wf s.mem = true →
    let sel : Nat → List Byte → List Byte := fun k bytes => if nn.getLsbD k then bytes else []
    ∃ t, exec (.psh nn) s = .next t ∧
      Pushes (sel 0 (pushBytes s.ps.m s.a) ++ sel 1 (pushBytes s.ps.m s.b) ++
        sel 2 (pushBytes s.ps.x s.x) ++ sel 3 (pushBytes s.ps.x s.y) ++
        sel 4 [hi8 s.dpr, lo8 s.dpr] ++ sel 5 [s.dt] ++ sel 6 [s.pg] ++
        sel 7 [hi8 s.ps.toWord, lo8 s.ps.toWord]) s s t

/-- R217, R218: PUL restores PS first, then DT, DPR, Y, X, B, A at the lengths of the PS now in force; no
flag is set by a pulled value; the upper byte of B is open only where R218 says so. THE MODEL'S CHOICE, log
entry 16 (decisions D13 and D14): bit 6 pulls nothing, and the restored m sizes A and B. -/
def Obligations.PulRestores : Prop :=
  ∀ (s : State) (nn : Byte),
    let bit := fun k => nn.getLsbD k
    let ps' := if bit 7 then Psr.ofWord (BitVec.ofNat 16 (stackWord 1 s)) else s.ps
    let lenM := if ps'.m then 1 else 2
    let lenX := if ps'.x then 1 else 2
    let o5 := if bit 7 then 2 else 0
    let o4 := o5 + if bit 5 then 1 else 0
    let o3 := o4 + if bit 4 then 2 else 0
    let o2 := o3 + if bit 3 then lenX else 0
    let o1 := o2 + if bit 2 then lenX else 0
    let o0 := o1 + if bit 1 then lenM else 0
    let total := o0 + if bit 0 then lenM else 0
    let b' := if bit 1 then withLow ps'.m s.b (stackWord (o1 + 1) s) else s.b
    ∃ h : Byte, exec (.pul nn) s = .next
      { s with
        ps := ps'
        dt := if bit 5 then BitVec.ofNat 8 (stackByte (o5 + 1) s) else s.dt
        dpr := if bit 4 then BitVec.ofNat 16 (stackWord (o4 + 1) s) else s.dpr
        y := if bit 3 then withLow ps'.x s.y (stackWord (o3 + 1) s) else s.y
        x := if bit 2 then withLow ps'.x s.x (stackWord (o2 + 1) s) else s.x
        b := if bit 7 && !s.ps.m && ps'.m then mkWord h (lo8 b') else b'
        a := if bit 0 then withLow ps'.m s.a (stackWord (o0 + 1) s) else s.a
        sp := s.sp + BitVec.ofNat 16 total }

/-- R216: PUL undoes PSH: with the same mask (and PG not selected) every register is as before PSH. -/
def Obligations.PulUndoesPsh : Prop :=
  ∀ (s t u : State) (nn : Byte), Memory.wf s.mem = true → StackIsRam s → nn.getLsbD 6 = false →
    exec (.psh nn) s = .next t → exec (.pul nn) t = .next u →
    u = { s with mem := u.mem, stale := u.stale }

/-! ## Arithmetic -/

/-- R231 and R232 with D = 0: binary ADC and SBC: the result modulo 2^W, C from the exact result, V from the
range of the signed result, N and Z by m. -/
def Obligations.BinaryAddAndSubtract : Prop :=
  ∀ (r : Acc) (s : State), s.ps.d = false →
    let f := s.ps.m
    let a := accNum r s
    let c := s.ps.c.toNat
    let fits : Int → Bool := fun n => decide (-(span f : Int) ≤ 2 * n ∧ 2 * n < span f)
    let sum : Nat → State := fun b =>
      { gotAcc r (a + b + c) s with
        ps := { withNZ f (a + b + c) s.ps with
          v := !fits (signed f a + signed f b + c)
          c := decide (span f ≤ a + b + c) } }
    let difference : Nat → State := fun b =>
      { gotAcc r (a + span f - b - (1 - c)) s with
        ps := { withNZ f (a + span f - b - (1 - c)) s.ps with
          v := !fits (signed f a - signed f b - (1 - (c : Int)))
          c := decide (b + (1 - c) ≤ a) } }
    (∀ op, exec (.adc r op) s = .next (sum (opNum f op s))) ∧
    (∀ k, exec (.adcl r k) s = .next (sum (memNum f k s))) ∧
    (∀ op, exec (.sbc r op) s = .next (difference (opNum f op s))) ∧
    ∀ k, exec (.sbcl r k) s = .next (difference (memNum f k s))

/-- R233 with D = 1: on decimal digits the result is the decimal sum or difference modulo 10^K and C (and,
for SBC, Z) is as the rule says; the flags the source disables, and everything on other digits, may be
anything. THE MODEL'S CHOICE, log entry 13 (decision D6): that these run on, with open values. -/
def Obligations.DecimalAddAndSubtract : Prop :=
  ∀ (r : Acc) (s : State), s.ps.d = true →
    let a : Word := BitVec.ofNat 16 (accNum r s)
    let c := s.ps.c.toNat
    let K := if s.ps.m then 100 else 10000
    let added : Nat → Result → Prop := fun b res => ∃ (q : Word) (n v z c' : Bool),
      res = .next { withAcc r q.toNat s with ps := { s.ps with n := n, v := v, z := z, c := c' } } ∧
      (bcdOk a = true → bcdOk (BitVec.ofNat 16 b) = true →
        let exact := bcdToNat a + bcdToNat (BitVec.ofNat 16 b) + c
        bcdOk q = true ∧ bcdToNat q = exact % K ∧ c' = decide (K ≤ exact))
    let subtracted : Nat → Result → Prop := fun b res => ∃ (q : Word) (n v z c' : Bool),
      res = .next { withAcc r q.toNat s with ps := { s.ps with n := n, v := v, z := z, c := c' } } ∧
      (bcdOk a = true → bcdOk (BitVec.ofNat 16 b) = true →
        let owed := bcdToNat (BitVec.ofNat 16 b) + (1 - c)
        bcdOk q = true ∧ bcdToNat q = (bcdToNat a + K - owed) % K ∧
          c' = decide (owed ≤ bcdToNat a) ∧ z = decide (q = 0#16))
    (∀ op, added (opNum s.ps.m op s) (exec (.adc r op) s)) ∧
    (∀ k, added (memNum s.ps.m k s) (exec (.adcl r k) s)) ∧
    (∀ op, subtracted (opNum s.ps.m op s) (exec (.sbc r op) s)) ∧
    ∀ k, subtracted (memNum s.ps.m k s) (exec (.sbcl r k) s)

/-- R234 to R239: the increments and decrements modulo 2^W, with N and Z and no carry. THE MODEL'S CHOICE, log
entry 18 (decision D16): after FFFFFFh the second byte of a memory operand is at 000000h. -/
def Obligations.IncrementAndDecrement : Prop :=
  ∀ s : State, Memory.wf s.mem = true →
    exec .inx s = .next (gotX (low s.ps.x s.x + 1) s) ∧
    exec .iny s = .next (gotY (low s.ps.x s.y + 1) s) ∧
    exec .dex s = .next (gotX (low s.ps.x s.x + span s.ps.x - 1) s) ∧
    exec .dey s = .next (gotY (low s.ps.x s.y + span s.ps.x - 1) s) ∧
    ∀ tg : Target,
      (∃ t, exec (.inc tg) s = .next t ∧
        Modified tg (targetNum tg s + 1) (withNZ s.ps.m (targetNum tg s + 1) s.ps) s t) ∧
      ∃ t, exec (.dec tg) s = .next t ∧
        let n := targetNum tg s + span s.ps.m - 1
        Modified tg n (withNZ s.ps.m n s.ps) s t

/-- R241: MPY: the 2W-bit unsigned product, its upper half in B and its lower half in A; N its top bit, Z
over all of it; C is unchanged or 0 (U6, log entry 15). THE MODEL'S CHOICE, log entry 14 (decision D5): the
factors are unsigned. -/
def Obligations.Multiplication : Prop :=
  ∀ s : State,
    let f := s.ps.m
    let product : Nat → Result → Prop := fun b res =>
      let p := accNum .a s * b
      ∃ c : Bool, (c = s.ps.c ∨ c = false) ∧
        res = .next { withAcc .b (p / span f) (withAcc .a p s) with
          ps := { s.ps with n := decide (span f * span f ≤ 2 * p), z := decide (p = 0), c := c } }
    (∀ op, product (opNum f op s) (exec (.mpy op) s)) ∧
    ∀ k, product (memNum f k s) (exec (.mpyl k) s)

/-- R240 with a divisor other than 0: where the quotient fits, quotient in A and remainder in B with V and C
cleared and N, Z from the quotient; where it does not, V = C = 1 and A, B at the data length, N and Z may
be anything (U5). THE MODEL'S CHOICE, log entry 14 (decision D5): the numbers are unsigned. -/
def Obligations.Division : Prop :=
  ∀ s : State,
    let f := s.ps.m
    let dividend := accNum .b s * span f + accNum .a s
    let divided : Nat → Result → Prop := fun d res => d ≠ 0 →
      (dividend < d * span f → ∃ q r, dividend = q * d + r ∧ r < d ∧
        res = .next { withAcc .b r (withAcc .a q s) with
          ps := { withNZ f q s.ps with v := false, c := false } }) ∧
      (d * span f ≤ dividend → ∃ (q r : Nat) (n z : Bool),
        res = .next { withAcc .b r (withAcc .a q s) with
          ps := { s.ps with v := true, c := true, n := n, z := z } })
    (∀ op, divided (opNum f op s) (exec (.div op) s)) ∧
    ∀ k, divided (memNum f k s) (exec (.divl k) s)

/-- R342, R340: DIV by zero takes the zero-division exception with the address of the next instruction; A, B
and every flag but I are kept, IPL too. THE MODEL'S CHOICE, log entry 12 (decision D8): the address and the
PS in the frame, and that N is kept; and log entry 8 (deduced): the second byte of a vector at FFFFh is read
at 000000h, in bank 0. -/
def Obligations.ZeroDivision : Prop :=
  ∀ s : State, Memory.wf s.mem = true →
    (∀ op, opNum s.ps.m op s = 0 →
      ∃ t, exec (.div op) s = .next t ∧ Entered s.pc24 s.par.vecZeroDiv s.ps.ipl s t) ∧
    ∀ k, memNum s.ps.m k s = 0 →
      ∃ t, exec (.divl k) s = .next t ∧ Entered s.pc24 s.par.vecZeroDiv s.ps.ipl s t

/-! ## Logic, compare, shift and rotate -/

/-- R250, R251, R252: AND, ORA, EOR bit by bit at the data length, with N and Z. -/
def Obligations.LogicalOperations : Prop :=
  ∀ (r : Acc) (s : State),
    let a := accNum r s
    (∀ op, exec (.and r op) s = .next (gotAcc r (a &&& opNum s.ps.m op s) s)) ∧
    (∀ k, exec (.andl r k) s = .next (gotAcc r (a &&& memNum s.ps.m k s) s)) ∧
    (∀ op, exec (.ora r op) s = .next (gotAcc r (a ||| opNum s.ps.m op s) s)) ∧
    (∀ k, exec (.oral r k) s = .next (gotAcc r (a ||| memNum s.ps.m k s) s)) ∧
    (∀ op, exec (.eor r op) s = .next (gotAcc r (a ^^^ opNum s.ps.m op s) s)) ∧
    ∀ k, exec (.eorl r k) s = .next (gotAcc r (a ^^^ memNum s.ps.m k s) s)

/-- R253, R254, R255: the comparisons: N and Z of the difference, C when it is not negative; nothing else. -/
def Obligations.Comparisons : Prop :=
  ∀ s : State,
    let compared : Bool → Nat → Nat → State := fun f a b =>
      { s with ps := { withNZ f (a + span f - b) s.ps with c := decide (b ≤ a) } }
    (∀ r op, exec (.cmp r op) s = .next (compared s.ps.m (accNum r s) (opNum s.ps.m op s))) ∧
    (∀ r k, exec (.cmpl r k) s = .next (compared s.ps.m (accNum r s) (memNum s.ps.m k s))) ∧
    (∀ op, exec (.cpx op) s = .next (compared s.ps.x (low s.ps.x s.x) (opNum s.ps.x op s))) ∧
    ∀ op, exec (.cpy op) s = .next (compared s.ps.x (low s.ps.x s.y) (opNum s.ps.x op s))

/-- R257 to R260: the single-bit shifts and rotates of an accumulator or of memory: the result, the bit that
goes to C, N and Z. THE MODEL'S CHOICE, log entry 18 (decision D16): after FFFFFFh the second byte of a
memory operand is at 000000h. -/
def Obligations.ShiftsAndRotates : Prop :=
  ∀ (s : State) (tg : Target), Memory.wf s.mem = true →
    let f := s.ps.m
    let v := targetNum tg s
    let c := s.ps.c.toNat
    let shifted : Nat → Bool → State → Prop := fun n c' t =>
      Modified tg n { withNZ f n s.ps with c := c' } s t
    (∃ t, exec (.asl tg) s = .next t ∧ shifted (2 * v % span f) (decide (span f ≤ 2 * v)) t) ∧
    (∃ t, exec (.lsr tg) s = .next t ∧ shifted (v / 2) (decide (v % 2 = 1)) t) ∧
    (∃ t, exec (.rol tg) s = .next t ∧ shifted (2 * v % span f + c) (decide (span f ≤ 2 * v)) t) ∧
    ∃ t, exec (.ror tg) s = .next t ∧ shifted (v / 2 + c * (span f / 2)) (decide (v % 2 = 1)) t

/-- R261: RLA is that many rotations of A by one place at the data length; no flag. -/
def Obligations.RotateLeftAccumulator : Prop :=
  ∀ (s : State) (imm : Word),
    let f := s.ps.m
    let once : Nat → Nat := fun v => 2 * v % span f + 2 * v / span f
    exec (.rla imm) s = .next { s with a := withLow f s.a (once^[low f imm] (accNum .a s)) }

/-! ## Bits and flags -/

/-- R271, R272: CLB clears and SEB sets the bits of the mask in memory, one write at the data length, no
flag. THE MODEL'S CHOICE, log entry 18 (decision D16): after FFFFFFh the second byte of the operand is at
000000h. -/
def Obligations.MemoryBits : Prop :=
  ∀ (s : State) (k : Mem) (imm : Word), Memory.wf s.mem = true →
    (∃ v t, (∀ j, v.testBit j = ((memNum s.ps.m k s).testBit j && !imm.getLsbD j)) ∧
      exec (.clb k imm) s = .next t ∧ Stores (dataCells s.ps.m (effAddr k s) v) s s t) ∧
    ∃ v t, (∀ j, v.testBit j = ((memNum s.ps.m k s).testBit j || imm.getLsbD j)) ∧
      exec (.seb k imm) s = .next t ∧ Stores (dataCells s.ps.m (effAddr k s) v) s s t

/-- R273, R274, R276 to R282: the instructions that write flags, with their encodings; CLP and SEP act on
the low byte of the image of PS. -/
def Obligations.FlagInstructions : Prop :=
  (∀ s : State,
    exec .clc s = .next { s with ps := { s.ps with c := false } } ∧
    exec .sec s = .next { s with ps := { s.ps with c := true } } ∧
    exec .cli s = .next { s with ps := { s.ps with i := false } } ∧
    exec .sei s = .next { s with ps := { s.ps with i := true } } ∧
    exec .clm s = .next { s with ps := { s.ps with m := false } } ∧
    exec .sem s = .next { s with ps := { s.ps with m := true } } ∧
    exec .clv s = .next { s with ps := { s.ps with v := false } } ∧
    ∀ imm : Byte,
      (∃ t, exec (.clp imm) s = .next t ∧ t = { s with ps := t.ps } ∧
        t.ps.toWord = s.ps.toWord &&& ~~~imm.setWidth 16) ∧
      ∃ t, exec (.sep imm) s = .next t ∧ t = { s with ps := t.ps } ∧
        t.ps.toWord = s.ps.toWord ||| imm.setWidth 16) ∧
  ∀ m x : Bool,
    encode m x .clc = [0x18#8] ∧ encode m x .sec = [0x38#8] ∧ encode m x .cli = [0x58#8] ∧
    encode m x .sei = [0x78#8] ∧ encode m x .clm = [0xD8#8] ∧ encode m x .sem = [0xF8#8] ∧
    encode m x .clv = [0xB8#8] ∧ ∀ imm,
      encode m x (.clp imm) = [0xC2#8, imm] ∧ encode m x (.sep imm) = [0xE2#8, imm]

/-! ## Branches, jumps, calls and returns -/

/-- R290 to R302: when each branch is taken, and where it goes. THE MODEL'S CHOICE, log entry 18 (decision
D16): the target is taken modulo 2^24 at both ends of the address space. -/
def Obligations.BranchResults : Prop :=
  ∀ (s : State) (rr : Byte),
    exec (.bcc rr) s = .next (branched (!s.ps.c) rr.toInt s) ∧
    exec (.bcs rr) s = .next (branched s.ps.c rr.toInt s) ∧
    exec (.beq rr) s = .next (branched s.ps.z rr.toInt s) ∧
    exec (.bne rr) s = .next (branched (!s.ps.z) rr.toInt s) ∧
    exec (.bmi rr) s = .next (branched s.ps.n rr.toInt s) ∧
    exec (.bpl rr) s = .next (branched (!s.ps.n) rr.toInt s) ∧
    exec (.bvc rr) s = .next (branched (!s.ps.v) rr.toInt s) ∧
    exec (.bvs rr) s = .next (branched s.ps.v rr.toInt s) ∧
    exec (.bra rr) s = .next (branched true rr.toInt s) ∧
    (∀ rel : Word, exec (.bral rel) s = .next (branched true rel.toInt s)) ∧
    ∀ (k : Mem) (imm : Word),
      let mask := low s.ps.m imm
      exec (.bbc k imm rr) s =
        .next (branched (decide (memNum s.ps.m k s &&& mask = 0)) rr.toInt s) ∧
      exec (.bbs k imm rr) s =
        .next (branched (decide (memNum s.ps.m k s &&& mask = mask)) rr.toInt s)

/-- R303 with R138 to R140: the jumps. THE MODEL'S CHOICE, log entries 9 and 18 (decisions D9 and D16): the
banks of the pointers and the wrap of the indexed one, and a pointer's bytes past FFFFFFh. -/
def Obligations.JumpResults : Prop :=
  ∀ (s : State) (w : Word) (l : Addr),
    let bank := s.pg.toNat * 65536
    let p := (jumpBank s.par.bankI s).toNat * 65536 + w.toNat
    let bx := (jumpBank s.par.bankX s).toNat * 65536
    let sum := w.toNat + low s.ps.x s.x
    let px := if s.par.indexWraps then bx + sum % 65536 else bx + sum
    exec (.jmp (.abs w)) s = .next (goTo (bank + w.toNat) s) ∧
    exec (.jmp (.ind w)) s = .next (goTo (bank + wordAt p s) s) ∧
    exec (.jmp (.indX w)) s = .next (goTo (bank + wordAt px s) s) ∧
    exec (.jmpl (.abl l)) s = .next (goTo l.toNat s) ∧
    exec (.jmpl (.ind w)) s =
      .next (goTo (wordAt p s + 65536 * (busRead s (BitVec.ofNat 24 (p + 2))).toNat) s)

/-- R304, R305, R306: the calls, with the bytes they push and their target, and the returns. THE MODEL'S
CHOICE, log entries 9, 11 and 18 (decisions D9, D3 and D16): the indexed pointer's bank and wrap, RET_BIAS,
and 000000h past FFFFFFh for that pointer's address and its second byte. -/
def Obligations.CallAndReturnResults : Prop :=
  ∀ s : State, Memory.wf s.mem = true →
    let ret := biased s.pc24.toNat s
    let pc := [BitVec.ofNat 8 (ret / 256), BitVec.ofNat 8 ret]
    (∀ w : Word, ∃ t, exec (.jsr (.abs w)) s = .next t ∧ Pushes pc s { s with pc := w } t ∧
      t.stale = []) ∧
    (∀ w : Word, ∃ t, exec (.jsr (.indX w)) s = .next t ∧
      let bx := (jumpBank s.par.bankX s).toNat * 65536
      let sum := w.toNat + low s.ps.x s.x
      let px := if s.par.indexWraps then bx + sum % 65536 else bx + sum
      Pushes pc s { s with pc := BitVec.ofNat 16 (wordAt px t) } t ∧ t.stale = []) ∧
    (∀ l : Addr, ∃ t, exec (.jsrl l) s = .next t ∧
      Pushes (BitVec.ofNat 8 (ret / 65536) :: pc) s { s with pg := bankOf l, pc := offOf l } t ∧
      t.stale = []) ∧
    exec .rts s = .next
      (goTo (s.pg.toNat * 65536 + unbiased (stackWord 1 s) s % 65536) { s with sp := s.sp + 2#16 }) ∧
    exec .rtl s = .next
      (goTo (unbiased (stackWord 1 s + 65536 * stackByte 3 s) s % 2 ^ 24) { s with sp := s.sp + 3#16 })

/-- R304 to R306: a call and its return, from wherever the subroutine executes it, come back to the
instruction after the call with S restored: JSR with RTS inside the bank, JSRL with RTL, under both values
of RET_BIAS (THE MODEL'S CHOICE, log entry 11, decision D3). -/
def Obligations.CallReturnsToCaller : Prop :=
  ∀ (s t u : State) (pc : Word) (pg : Byte), Memory.wf s.mem = true → StackIsRam s →
    (∀ j, exec (.jsr j) s = .next t → exec .rts { t with pc := pc } = .next u →
      u = { s with mem := u.mem, stale := [] }) ∧
    ∀ l, exec (.jsrl l) s = .next t → exec .rtl { t with pc := pc, pg := pg } = .next u →
      u = { s with mem := u.mem, stale := [] }

/-- R320, R341, R340 and R307, R347: BRK takes the entry sequence through FFFAh, whatever I and IPL are; RTI
pulls PS, PC and PG. -/
def Obligations.BreakAndReturnResults : Prop :=
  ∀ s : State, Memory.wf s.mem = true →
    (∀ nn, ∃ t, exec (.brk nn) s = .next t ∧ Entered s.pc24 0xFFFA#16 s.ps.ipl s t) ∧
    exec .rti s = .next
      (goTo (stackWord 3 s + 65536 * stackByte 5 s)
        { s with ps := Psr.ofWord (BitVec.ofNat 16 (stackWord 1 s)), sp := s.sp + 5#16 })

/-- R307, R347: RTI is the inverse of the entry sequence: after BRK, and from wherever the handler executes
RTI and with whatever status, it resumes at the next instruction with PS and S restored. -/
def Obligations.HandlerReturnsToInterrupted : Prop :=
  ∀ (s t u : State) (nn : Byte) (pc : Word) (pg : Byte) (ps : Psr), Memory.wf s.mem = true →
    StackIsRam s → exec (.brk nn) s = .next t →
    exec .rti { t with pc := pc, pg := pg, ps := ps } = .next u →
    u = { s with mem := u.mem, stale := [], run := .running }

/-- R321, R322, R323: NOP does nothing; STP and WIT change the run state alone; with their encodings. -/
def Obligations.NopStopAndWait : Prop :=
  (∀ s : State, exec .nop s = .next s ∧ exec .stp s = .next { s with run := .stopped } ∧
    exec .wit s = .next { s with run := .waiting }) ∧
  ∀ m x : Bool, encode m x .nop = [0xEA#8] ∧ encode m x .stp = [0xDB#8] ∧ encode m x .wit = [0xCB#8]

/-! ## Runs -/

/-- R18: when a run has ended; once STP or WIT has ended it, every number of further steps leaves all but the
schedule's count and the draw counter as they are; and a run stops at its end, else goes on by one step.
THE MODEL'S CHOICE, log entry 28 (decision D12): this end of a run is the spec's own suggestion. -/
def Obligations.EndOfRun : Prop :=
  ∀ (exits : List Addr) (s : State),
    (runEnded exits s = true ↔
      (s.run ≠ .running ∧ (∀ moves ∈ s.schedule, moves = []) ∧ ∀ r ∈ s.pending, ¬ Passes s r) ∨
        (s.run = .running ∧ s.pc24 ∈ exits)) ∧
    (s.run ≠ .running → runEnded exits s = true → ∀ n,
      stepMany n s = .next { s with schedule := s.schedule.drop n, draws := s.draws + n }) ∧
    ∀ n, (runEnded exits s = true → runFor exits n s = .next s) ∧
      ∀ t, runEnded exits s = false → step s = .next t → runFor exits (n + 1) s = runFor exits n t

end Statements
end

