-- ==== Sys2Proof/Laws/Bits.lean ====
section
/-! SUPPORT. The laws of the byte, word and address helpers and of the operand lengths: what each is as a
natural number, and how they undo one another. -/

namespace Sys2Proof.Laws

open Sys2Proof.Machine

/-! ## As natural numbers -/

theorem lo8_toNat (v : Word) : (lo8 v).toNat = v.toNat % 256 := by simp [lo8]

theorem hi8_toNat (v : Word) : (hi8 v).toNat = v.toNat / 256 := by
  simp [hi8, Nat.shiftRight_eq_div_pow]
  omega

theorem mkWord_toNat (h l : Byte) : (mkWord h l).toNat = h.toNat * 256 + l.toNat := by
  unfold mkWord
  rw [BitVec.toNat_append, ← Nat.shiftLeft_add_eq_or_of_lt (by omega), Nat.shiftLeft_eq]

theorem mkAddr_toNat (b : Byte) (o : Word) : (mkAddr b o).toNat = b.toNat * 65536 + o.toNat := by
  unfold mkAddr
  rw [BitVec.toNat_append, ← Nat.shiftLeft_add_eq_or_of_lt (by omega), Nat.shiftLeft_eq]

theorem bankOf_toNat (a : Addr) : (bankOf a).toNat = a.toNat / 65536 := by
  simp [bankOf, Nat.shiftRight_eq_div_pow]
  omega

theorem offOf_toNat (a : Addr) : (offOf a).toNat = a.toNat % 65536 := by simp [offOf]

theorem zx8_toNat (b : Byte) : (zx8 b).toNat = b.toNat := by
  simp [zx8]
  omega

theorem zx24_toNat (w : Word) : (zx24 w).toNat = w.toNat := by
  simp [zx24]
  omega

theorem off8_toNat (b : Byte) : (off8 b).toNat = b.toNat := by
  simp [off8]
  omega

/-! ## Taking apart and putting together -/

@[simp] theorem mkWord_hi8_lo8 (v : Word) : mkWord (hi8 v) (lo8 v) = v := by
  apply BitVec.eq_of_toNat_eq
  rw [mkWord_toNat, hi8_toNat, lo8_toNat]
  omega

@[simp] theorem lo8_mkWord (h l : Byte) : lo8 (mkWord h l) = l := by
  apply BitVec.eq_of_toNat_eq
  rw [lo8_toNat, mkWord_toNat]
  omega

@[simp] theorem hi8_mkWord (h l : Byte) : hi8 (mkWord h l) = h := by
  apply BitVec.eq_of_toNat_eq
  rw [hi8_toNat, mkWord_toNat]
  omega

@[simp] theorem bankOf_mkAddr (b : Byte) (o : Word) : bankOf (mkAddr b o) = b := by
  apply BitVec.eq_of_toNat_eq
  rw [bankOf_toNat, mkAddr_toNat]
  omega

@[simp] theorem offOf_mkAddr (b : Byte) (o : Word) : offOf (mkAddr b o) = o := by
  apply BitVec.eq_of_toNat_eq
  rw [offOf_toNat, mkAddr_toNat]
  omega

@[simp] theorem mkAddr_bankOf_offOf (a : Addr) : mkAddr (bankOf a) (offOf a) = a := by
  apply BitVec.eq_of_toNat_eq
  rw [mkAddr_toNat, bankOf_toNat, offOf_toNat]
  omega

@[simp] theorem lo8_zx8 (b : Byte) : lo8 (zx8 b) = b := by
  apply BitVec.eq_of_toNat_eq
  rw [lo8_toNat, zx8_toNat]
  omega

/-! ## Operand lengths -/

theorem trunc_byte (v : Word) : Width.byte.trunc v = zx8 (lo8 v) := rfl

theorem trunc_word (v : Word) : Width.word.trunc v = v := rfl

theorem merge_byte (old v : Word) : Width.byte.merge old v = mkWord (hi8 old) (lo8 v) := rfl

theorem merge_word (old v : Word) : Width.word.merge old v = v := rfl

theorem widthOf_true : widthOf true = Width.byte := rfl

theorem widthOf_false : widthOf false = Width.word := rfl

theorem trunc_toNat (w : Width) (v : Word) : (w.trunc v).toNat = v.toNat % 2 ^ w.bits := by
  cases w with
  | byte => rw [trunc_byte, zx8_toNat, lo8_toNat]; rfl
  | word => simp only [trunc_word, Width.bits]; omega

@[simp] theorem trunc_trunc (w : Width) (v : Word) : w.trunc (w.trunc v) = w.trunc v := by
  cases w <;> simp [Width.trunc]

@[simp] theorem merge_trunc (w : Width) (old v : Word) : w.merge old (w.trunc v) = w.merge old v := by
  cases w <;> simp [Width.trunc, Width.merge]

@[simp] theorem trunc_merge (w : Width) (old v : Word) : w.trunc (w.merge old v) = w.trunc v := by
  cases w <;> simp [Width.trunc, Width.merge]

@[simp] theorem merge_merge (w : Width) (old u v : Word) :
    w.merge (w.merge old u) v = w.merge old v := by
  cases w <;> simp [Width.merge]

theorem hi8_merge_byte (old v : Word) : hi8 (Width.byte.merge old v) = hi8 old := by
  simp [Width.merge]

theorem narrow_toNat (w : Width) (n : Nat) : (w.narrow n).toNat = n % 2 ^ w.bits := by
  simp only [Width.narrow, BitVec.toNat_ofNat]
  exact Nat.mod_eq_of_lt (Nat.lt_of_lt_of_le (Nat.mod_lt _ (Nat.two_pow_pos _)) (by cases w <;> decide))

@[simp] theorem trunc_narrow (w : Width) (n : Nat) : w.trunc (w.narrow n) = w.narrow n := by
  apply BitVec.eq_of_toNat_eq
  rw [trunc_toNat, narrow_toNat, Nat.mod_mod]

theorem top_byte_iff (v : Word) : Width.byte.top v = decide (128 ≤ v.toNat % 256) := by
  simp only [Width.top, BitVec.getLsbD, Nat.testBit_eq_decide_div_mod_eq]
  congr 1
  apply propext
  omega

theorem top_word_iff (v : Word) : Width.word.top v = decide (32768 ≤ v.toNat) := by
  simp only [Width.top, BitVec.getLsbD, Nat.testBit_eq_decide_div_mod_eq]
  congr 1
  apply propext
  omega

end Sys2Proof.Laws
end

