-- ==== Sys2Proof/Laws/State.lean ====
section
/-! SUPPORT. What each update of the state leaves in each field: one lemma per field per update. -/

namespace Sys2Proof.Laws

open Sys2Proof.Machine

/-! ## busWrite -/

section busWrite

variable (p : Addr) (v : Byte) (s : State)

@[simp] theorem busWrite_a : (busWrite p v s).a = s.a := rfl
@[simp] theorem busWrite_b : (busWrite p v s).b = s.b := rfl
@[simp] theorem busWrite_x : (busWrite p v s).x = s.x := rfl
@[simp] theorem busWrite_y : (busWrite p v s).y = s.y := rfl
@[simp] theorem busWrite_sp : (busWrite p v s).sp = s.sp := rfl
@[simp] theorem busWrite_pc : (busWrite p v s).pc = s.pc := rfl
@[simp] theorem busWrite_pg : (busWrite p v s).pg = s.pg := rfl
@[simp] theorem busWrite_dt : (busWrite p v s).dt = s.dt := rfl
@[simp] theorem busWrite_dpr : (busWrite p v s).dpr = s.dpr := rfl
@[simp] theorem busWrite_ps : (busWrite p v s).ps = s.ps := rfl
@[simp] theorem busWrite_run : (busWrite p v s).run = s.run := rfl
@[simp] theorem busWrite_pending : (busWrite p v s).pending = s.pending := rfl
@[simp] theorem busWrite_schedule : (busWrite p v s).schedule = s.schedule := rfl
@[simp] theorem busWrite_draws : (busWrite p v s).draws = s.draws := rfl
@[simp] theorem busWrite_par : (busWrite p v s).par = s.par := rfl

end busWrite

/-! ## writeData -/

section writeData

variable (w : Width) (p : Addr) (v : Word) (s : State)

@[simp] theorem writeData_a : (writeData w p v s).a = s.a := by cases w <;> rfl
@[simp] theorem writeData_b : (writeData w p v s).b = s.b := by cases w <;> rfl
@[simp] theorem writeData_x : (writeData w p v s).x = s.x := by cases w <;> rfl
@[simp] theorem writeData_y : (writeData w p v s).y = s.y := by cases w <;> rfl
@[simp] theorem writeData_sp : (writeData w p v s).sp = s.sp := by cases w <;> rfl
@[simp] theorem writeData_pc : (writeData w p v s).pc = s.pc := by cases w <;> rfl
@[simp] theorem writeData_pg : (writeData w p v s).pg = s.pg := by cases w <;> rfl
@[simp] theorem writeData_dt : (writeData w p v s).dt = s.dt := by cases w <;> rfl
@[simp] theorem writeData_dpr : (writeData w p v s).dpr = s.dpr := by cases w <;> rfl
@[simp] theorem writeData_ps : (writeData w p v s).ps = s.ps := by cases w <;> rfl
@[simp] theorem writeData_run : (writeData w p v s).run = s.run := by cases w <;> rfl
@[simp] theorem writeData_pending : (writeData w p v s).pending = s.pending := by cases w <;> rfl
@[simp] theorem writeData_schedule : (writeData w p v s).schedule = s.schedule := by cases w <;> rfl
@[simp] theorem writeData_draws : (writeData w p v s).draws = s.draws := by cases w <;> rfl
@[simp] theorem writeData_par : (writeData w p v s).par = s.par := by cases w <;> rfl

end writeData

/-! ## setNZ -/

section setNZ

variable (w : Width) (v : Word) (s : State)

@[simp] theorem setNZ_a : (setNZ w v s).a = s.a := rfl
@[simp] theorem setNZ_b : (setNZ w v s).b = s.b := rfl
@[simp] theorem setNZ_x : (setNZ w v s).x = s.x := rfl
@[simp] theorem setNZ_y : (setNZ w v s).y = s.y := rfl
@[simp] theorem setNZ_sp : (setNZ w v s).sp = s.sp := rfl
@[simp] theorem setNZ_pc : (setNZ w v s).pc = s.pc := rfl
@[simp] theorem setNZ_pg : (setNZ w v s).pg = s.pg := rfl
@[simp] theorem setNZ_dt : (setNZ w v s).dt = s.dt := rfl
@[simp] theorem setNZ_dpr : (setNZ w v s).dpr = s.dpr := rfl
@[simp] theorem setNZ_run : (setNZ w v s).run = s.run := rfl
@[simp] theorem setNZ_mem : (setNZ w v s).mem = s.mem := rfl
@[simp] theorem setNZ_pending : (setNZ w v s).pending = s.pending := rfl
@[simp] theorem setNZ_stale : (setNZ w v s).stale = s.stale := rfl
@[simp] theorem setNZ_schedule : (setNZ w v s).schedule = s.schedule := rfl
@[simp] theorem setNZ_ioOut : (setNZ w v s).ioOut = s.ioOut := rfl
@[simp] theorem setNZ_draws : (setNZ w v s).draws = s.draws := rfl
@[simp] theorem setNZ_par : (setNZ w v s).par = s.par := rfl

end setNZ

/-! ## accPut -/

section accPut

variable (r : Acc) (v : Word) (s : State)

@[simp] theorem accPut_x : (accPut r v s).x = s.x := by cases r <;> rfl
@[simp] theorem accPut_y : (accPut r v s).y = s.y := by cases r <;> rfl
@[simp] theorem accPut_sp : (accPut r v s).sp = s.sp := by cases r <;> rfl
@[simp] theorem accPut_pc : (accPut r v s).pc = s.pc := by cases r <;> rfl
@[simp] theorem accPut_pg : (accPut r v s).pg = s.pg := by cases r <;> rfl
@[simp] theorem accPut_dt : (accPut r v s).dt = s.dt := by cases r <;> rfl
@[simp] theorem accPut_dpr : (accPut r v s).dpr = s.dpr := by cases r <;> rfl
@[simp] theorem accPut_ps : (accPut r v s).ps = s.ps := by cases r <;> rfl
@[simp] theorem accPut_run : (accPut r v s).run = s.run := by cases r <;> rfl
@[simp] theorem accPut_mem : (accPut r v s).mem = s.mem := by cases r <;> rfl
@[simp] theorem accPut_pending : (accPut r v s).pending = s.pending := by cases r <;> rfl
@[simp] theorem accPut_stale : (accPut r v s).stale = s.stale := by cases r <;> rfl
@[simp] theorem accPut_schedule : (accPut r v s).schedule = s.schedule := by cases r <;> rfl
@[simp] theorem accPut_ioOut : (accPut r v s).ioOut = s.ioOut := by cases r <;> rfl
@[simp] theorem accPut_draws : (accPut r v s).draws = s.draws := by cases r <;> rfl
@[simp] theorem accPut_par : (accPut r v s).par = s.par := by cases r <;> rfl

end accPut

/-! ## accWrite -/

section accWrite

variable (r : Acc) (v : Word) (s : State)

@[simp] theorem accWrite_x : (accWrite r v s).x = s.x := by cases r <;> rfl
@[simp] theorem accWrite_y : (accWrite r v s).y = s.y := by cases r <;> rfl
@[simp] theorem accWrite_sp : (accWrite r v s).sp = s.sp := by cases r <;> rfl
@[simp] theorem accWrite_pc : (accWrite r v s).pc = s.pc := by cases r <;> rfl
@[simp] theorem accWrite_pg : (accWrite r v s).pg = s.pg := by cases r <;> rfl
@[simp] theorem accWrite_dt : (accWrite r v s).dt = s.dt := by cases r <;> rfl
@[simp] theorem accWrite_dpr : (accWrite r v s).dpr = s.dpr := by cases r <;> rfl
@[simp] theorem accWrite_ps : (accWrite r v s).ps = s.ps := by cases r <;> rfl
@[simp] theorem accWrite_run : (accWrite r v s).run = s.run := by cases r <;> rfl
@[simp] theorem accWrite_mem : (accWrite r v s).mem = s.mem := by cases r <;> rfl
@[simp] theorem accWrite_pending : (accWrite r v s).pending = s.pending := by cases r <;> rfl
@[simp] theorem accWrite_stale : (accWrite r v s).stale = s.stale := by cases r <;> rfl
@[simp] theorem accWrite_schedule : (accWrite r v s).schedule = s.schedule := by cases r <;> rfl
@[simp] theorem accWrite_ioOut : (accWrite r v s).ioOut = s.ioOut := by cases r <;> rfl
@[simp] theorem accWrite_draws : (accWrite r v s).draws = s.draws := by cases r <;> rfl
@[simp] theorem accWrite_par : (accWrite r v s).par = s.par := by cases r <;> rfl

end accWrite

/-! ## writeX -/

section writeX

variable (v : Word) (s : State)

@[simp] theorem writeX_a : (writeX v s).a = s.a := rfl
@[simp] theorem writeX_b : (writeX v s).b = s.b := rfl
@[simp] theorem writeX_y : (writeX v s).y = s.y := rfl
@[simp] theorem writeX_sp : (writeX v s).sp = s.sp := rfl
@[simp] theorem writeX_pc : (writeX v s).pc = s.pc := rfl
@[simp] theorem writeX_pg : (writeX v s).pg = s.pg := rfl
@[simp] theorem writeX_dt : (writeX v s).dt = s.dt := rfl
@[simp] theorem writeX_dpr : (writeX v s).dpr = s.dpr := rfl
@[simp] theorem writeX_ps : (writeX v s).ps = s.ps := rfl
@[simp] theorem writeX_run : (writeX v s).run = s.run := rfl
@[simp] theorem writeX_mem : (writeX v s).mem = s.mem := rfl
@[simp] theorem writeX_pending : (writeX v s).pending = s.pending := rfl
@[simp] theorem writeX_stale : (writeX v s).stale = s.stale := rfl
@[simp] theorem writeX_schedule : (writeX v s).schedule = s.schedule := rfl
@[simp] theorem writeX_ioOut : (writeX v s).ioOut = s.ioOut := rfl
@[simp] theorem writeX_draws : (writeX v s).draws = s.draws := rfl
@[simp] theorem writeX_par : (writeX v s).par = s.par := rfl

end writeX

/-! ## writeY -/

section writeY

variable (v : Word) (s : State)

@[simp] theorem writeY_a : (writeY v s).a = s.a := rfl
@[simp] theorem writeY_b : (writeY v s).b = s.b := rfl
@[simp] theorem writeY_x : (writeY v s).x = s.x := rfl
@[simp] theorem writeY_sp : (writeY v s).sp = s.sp := rfl
@[simp] theorem writeY_pc : (writeY v s).pc = s.pc := rfl
@[simp] theorem writeY_pg : (writeY v s).pg = s.pg := rfl
@[simp] theorem writeY_dt : (writeY v s).dt = s.dt := rfl
@[simp] theorem writeY_dpr : (writeY v s).dpr = s.dpr := rfl
@[simp] theorem writeY_ps : (writeY v s).ps = s.ps := rfl
@[simp] theorem writeY_run : (writeY v s).run = s.run := rfl
@[simp] theorem writeY_mem : (writeY v s).mem = s.mem := rfl
@[simp] theorem writeY_pending : (writeY v s).pending = s.pending := rfl
@[simp] theorem writeY_stale : (writeY v s).stale = s.stale := rfl
@[simp] theorem writeY_schedule : (writeY v s).schedule = s.schedule := rfl
@[simp] theorem writeY_ioOut : (writeY v s).ioOut = s.ioOut := rfl
@[simp] theorem writeY_draws : (writeY v s).draws = s.draws := rfl
@[simp] theorem writeY_par : (writeY v s).par = s.par := rfl

end writeY

/-! ## loadAcc -/

section loadAcc

variable (r : Acc) (v : Word) (s : State)

@[simp] theorem loadAcc_x : (loadAcc r v s).x = s.x := by cases r <;> rfl
@[simp] theorem loadAcc_y : (loadAcc r v s).y = s.y := by cases r <;> rfl
@[simp] theorem loadAcc_sp : (loadAcc r v s).sp = s.sp := by cases r <;> rfl
@[simp] theorem loadAcc_pc : (loadAcc r v s).pc = s.pc := by cases r <;> rfl
@[simp] theorem loadAcc_pg : (loadAcc r v s).pg = s.pg := by cases r <;> rfl
@[simp] theorem loadAcc_dt : (loadAcc r v s).dt = s.dt := by cases r <;> rfl
@[simp] theorem loadAcc_dpr : (loadAcc r v s).dpr = s.dpr := by cases r <;> rfl
@[simp] theorem loadAcc_run : (loadAcc r v s).run = s.run := by cases r <;> rfl
@[simp] theorem loadAcc_mem : (loadAcc r v s).mem = s.mem := by cases r <;> rfl
@[simp] theorem loadAcc_pending : (loadAcc r v s).pending = s.pending := by cases r <;> rfl
@[simp] theorem loadAcc_stale : (loadAcc r v s).stale = s.stale := by cases r <;> rfl
@[simp] theorem loadAcc_schedule : (loadAcc r v s).schedule = s.schedule := by cases r <;> rfl
@[simp] theorem loadAcc_ioOut : (loadAcc r v s).ioOut = s.ioOut := by cases r <;> rfl
@[simp] theorem loadAcc_draws : (loadAcc r v s).draws = s.draws := by cases r <;> rfl
@[simp] theorem loadAcc_par : (loadAcc r v s).par = s.par := by cases r <;> rfl

end loadAcc

/-! ## loadX -/

section loadX

variable (v : Word) (s : State)

@[simp] theorem loadX_a : (loadX v s).a = s.a := rfl
@[simp] theorem loadX_b : (loadX v s).b = s.b := rfl
@[simp] theorem loadX_y : (loadX v s).y = s.y := rfl
@[simp] theorem loadX_sp : (loadX v s).sp = s.sp := rfl
@[simp] theorem loadX_pc : (loadX v s).pc = s.pc := rfl
@[simp] theorem loadX_pg : (loadX v s).pg = s.pg := rfl
@[simp] theorem loadX_dt : (loadX v s).dt = s.dt := rfl
@[simp] theorem loadX_dpr : (loadX v s).dpr = s.dpr := rfl
@[simp] theorem loadX_run : (loadX v s).run = s.run := rfl
@[simp] theorem loadX_mem : (loadX v s).mem = s.mem := rfl
@[simp] theorem loadX_pending : (loadX v s).pending = s.pending := rfl
@[simp] theorem loadX_stale : (loadX v s).stale = s.stale := rfl
@[simp] theorem loadX_schedule : (loadX v s).schedule = s.schedule := rfl
@[simp] theorem loadX_ioOut : (loadX v s).ioOut = s.ioOut := rfl
@[simp] theorem loadX_draws : (loadX v s).draws = s.draws := rfl
@[simp] theorem loadX_par : (loadX v s).par = s.par := rfl

end loadX

/-! ## loadY -/

section loadY

variable (v : Word) (s : State)

@[simp] theorem loadY_a : (loadY v s).a = s.a := rfl
@[simp] theorem loadY_b : (loadY v s).b = s.b := rfl
@[simp] theorem loadY_x : (loadY v s).x = s.x := rfl
@[simp] theorem loadY_sp : (loadY v s).sp = s.sp := rfl
@[simp] theorem loadY_pc : (loadY v s).pc = s.pc := rfl
@[simp] theorem loadY_pg : (loadY v s).pg = s.pg := rfl
@[simp] theorem loadY_dt : (loadY v s).dt = s.dt := rfl
@[simp] theorem loadY_dpr : (loadY v s).dpr = s.dpr := rfl
@[simp] theorem loadY_run : (loadY v s).run = s.run := rfl
@[simp] theorem loadY_mem : (loadY v s).mem = s.mem := rfl
@[simp] theorem loadY_pending : (loadY v s).pending = s.pending := rfl
@[simp] theorem loadY_stale : (loadY v s).stale = s.stale := rfl
@[simp] theorem loadY_schedule : (loadY v s).schedule = s.schedule := rfl
@[simp] theorem loadY_ioOut : (loadY v s).ioOut = s.ioOut := rfl
@[simp] theorem loadY_draws : (loadY v s).draws = s.draws := rfl
@[simp] theorem loadY_par : (loadY v s).par = s.par := rfl

end loadY

/-! ## push8 -/

section push8

variable (v : Byte) (s : State)

@[simp] theorem push8_a : (push8 v s).a = s.a := rfl
@[simp] theorem push8_b : (push8 v s).b = s.b := rfl
@[simp] theorem push8_x : (push8 v s).x = s.x := rfl
@[simp] theorem push8_y : (push8 v s).y = s.y := rfl
@[simp] theorem push8_pc : (push8 v s).pc = s.pc := rfl
@[simp] theorem push8_pg : (push8 v s).pg = s.pg := rfl
@[simp] theorem push8_dt : (push8 v s).dt = s.dt := rfl
@[simp] theorem push8_dpr : (push8 v s).dpr = s.dpr := rfl
@[simp] theorem push8_ps : (push8 v s).ps = s.ps := rfl
@[simp] theorem push8_run : (push8 v s).run = s.run := rfl
@[simp] theorem push8_pending : (push8 v s).pending = s.pending := rfl
@[simp] theorem push8_schedule : (push8 v s).schedule = s.schedule := rfl
@[simp] theorem push8_draws : (push8 v s).draws = s.draws := rfl
@[simp] theorem push8_par : (push8 v s).par = s.par := rfl

end push8

/-! ## push16 -/

section push16

variable (v : Word) (s : State)

@[simp] theorem push16_a : (push16 v s).a = s.a := rfl
@[simp] theorem push16_b : (push16 v s).b = s.b := rfl
@[simp] theorem push16_x : (push16 v s).x = s.x := rfl
@[simp] theorem push16_y : (push16 v s).y = s.y := rfl
@[simp] theorem push16_pc : (push16 v s).pc = s.pc := rfl
@[simp] theorem push16_pg : (push16 v s).pg = s.pg := rfl
@[simp] theorem push16_dt : (push16 v s).dt = s.dt := rfl
@[simp] theorem push16_dpr : (push16 v s).dpr = s.dpr := rfl
@[simp] theorem push16_ps : (push16 v s).ps = s.ps := rfl
@[simp] theorem push16_run : (push16 v s).run = s.run := rfl
@[simp] theorem push16_pending : (push16 v s).pending = s.pending := rfl
@[simp] theorem push16_schedule : (push16 v s).schedule = s.schedule := rfl
@[simp] theorem push16_draws : (push16 v s).draws = s.draws := rfl
@[simp] theorem push16_par : (push16 v s).par = s.par := rfl

end push16

/-! ## pushData -/

section pushData

variable (w : Width) (v : Word) (s : State)

@[simp] theorem pushData_a : (pushData w v s).a = s.a := by cases w <;> rfl
@[simp] theorem pushData_b : (pushData w v s).b = s.b := by cases w <;> rfl
@[simp] theorem pushData_x : (pushData w v s).x = s.x := by cases w <;> rfl
@[simp] theorem pushData_y : (pushData w v s).y = s.y := by cases w <;> rfl
@[simp] theorem pushData_pc : (pushData w v s).pc = s.pc := by cases w <;> rfl
@[simp] theorem pushData_pg : (pushData w v s).pg = s.pg := by cases w <;> rfl
@[simp] theorem pushData_dt : (pushData w v s).dt = s.dt := by cases w <;> rfl
@[simp] theorem pushData_dpr : (pushData w v s).dpr = s.dpr := by cases w <;> rfl
@[simp] theorem pushData_ps : (pushData w v s).ps = s.ps := by cases w <;> rfl
@[simp] theorem pushData_run : (pushData w v s).run = s.run := by cases w <;> rfl
@[simp] theorem pushData_pending : (pushData w v s).pending = s.pending := by cases w <;> rfl
@[simp] theorem pushData_schedule : (pushData w v s).schedule = s.schedule := by cases w <;> rfl
@[simp] theorem pushData_draws : (pushData w v s).draws = s.draws := by cases w <;> rfl
@[simp] theorem pushData_par : (pushData w v s).par = s.par := by cases w <;> rfl

end pushData

/-! ## dropStack -/

section dropStack

variable (n : Word) (s : State)

@[simp] theorem dropStack_a : (dropStack n s).a = s.a := rfl
@[simp] theorem dropStack_b : (dropStack n s).b = s.b := rfl
@[simp] theorem dropStack_x : (dropStack n s).x = s.x := rfl
@[simp] theorem dropStack_y : (dropStack n s).y = s.y := rfl
@[simp] theorem dropStack_pc : (dropStack n s).pc = s.pc := rfl
@[simp] theorem dropStack_pg : (dropStack n s).pg = s.pg := rfl
@[simp] theorem dropStack_dt : (dropStack n s).dt = s.dt := rfl
@[simp] theorem dropStack_dpr : (dropStack n s).dpr = s.dpr := rfl
@[simp] theorem dropStack_ps : (dropStack n s).ps = s.ps := rfl
@[simp] theorem dropStack_run : (dropStack n s).run = s.run := rfl
@[simp] theorem dropStack_mem : (dropStack n s).mem = s.mem := rfl
@[simp] theorem dropStack_pending : (dropStack n s).pending = s.pending := rfl
@[simp] theorem dropStack_stale : (dropStack n s).stale = s.stale := rfl
@[simp] theorem dropStack_schedule : (dropStack n s).schedule = s.schedule := rfl
@[simp] theorem dropStack_ioOut : (dropStack n s).ioOut = s.ioOut := rfl
@[simp] theorem dropStack_draws : (dropStack n s).draws = s.draws := rfl
@[simp] theorem dropStack_par : (dropStack n s).par = s.par := rfl

end dropStack

/-! ## pullData -/

section pullData

variable (w : Width) (s : State)

@[simp] theorem pullData_a : (pullData w s).a = s.a := rfl
@[simp] theorem pullData_b : (pullData w s).b = s.b := rfl
@[simp] theorem pullData_x : (pullData w s).x = s.x := rfl
@[simp] theorem pullData_y : (pullData w s).y = s.y := rfl
@[simp] theorem pullData_pc : (pullData w s).pc = s.pc := rfl
@[simp] theorem pullData_pg : (pullData w s).pg = s.pg := rfl
@[simp] theorem pullData_dt : (pullData w s).dt = s.dt := rfl
@[simp] theorem pullData_dpr : (pullData w s).dpr = s.dpr := rfl
@[simp] theorem pullData_ps : (pullData w s).ps = s.ps := rfl
@[simp] theorem pullData_run : (pullData w s).run = s.run := rfl
@[simp] theorem pullData_mem : (pullData w s).mem = s.mem := rfl
@[simp] theorem pullData_pending : (pullData w s).pending = s.pending := rfl
@[simp] theorem pullData_stale : (pullData w s).stale = s.stale := rfl
@[simp] theorem pullData_schedule : (pullData w s).schedule = s.schedule := rfl
@[simp] theorem pullData_ioOut : (pullData w s).ioOut = s.ioOut := rfl
@[simp] theorem pullData_draws : (pullData w s).draws = s.draws := rfl
@[simp] theorem pullData_par : (pullData w s).par = s.par := rfl

end pullData

/-! ## jumpTo -/

section jumpTo

variable (p : Addr) (s : State)

@[simp] theorem jumpTo_a : (jumpTo p s).a = s.a := rfl
@[simp] theorem jumpTo_b : (jumpTo p s).b = s.b := rfl
@[simp] theorem jumpTo_x : (jumpTo p s).x = s.x := rfl
@[simp] theorem jumpTo_y : (jumpTo p s).y = s.y := rfl
@[simp] theorem jumpTo_sp : (jumpTo p s).sp = s.sp := rfl
@[simp] theorem jumpTo_dt : (jumpTo p s).dt = s.dt := rfl
@[simp] theorem jumpTo_dpr : (jumpTo p s).dpr = s.dpr := rfl
@[simp] theorem jumpTo_ps : (jumpTo p s).ps = s.ps := rfl
@[simp] theorem jumpTo_run : (jumpTo p s).run = s.run := rfl
@[simp] theorem jumpTo_mem : (jumpTo p s).mem = s.mem := rfl
@[simp] theorem jumpTo_pending : (jumpTo p s).pending = s.pending := rfl
@[simp] theorem jumpTo_schedule : (jumpTo p s).schedule = s.schedule := rfl
@[simp] theorem jumpTo_ioOut : (jumpTo p s).ioOut = s.ioOut := rfl
@[simp] theorem jumpTo_draws : (jumpTo p s).draws = s.draws := rfl
@[simp] theorem jumpTo_par : (jumpTo p s).par = s.par := rfl

end jumpTo

/-! ## advancePc -/

section advancePc

variable (n : Nat) (s : State)

@[simp] theorem advancePc_a : (advancePc n s).a = s.a := rfl
@[simp] theorem advancePc_b : (advancePc n s).b = s.b := rfl
@[simp] theorem advancePc_x : (advancePc n s).x = s.x := rfl
@[simp] theorem advancePc_y : (advancePc n s).y = s.y := rfl
@[simp] theorem advancePc_sp : (advancePc n s).sp = s.sp := rfl
@[simp] theorem advancePc_dt : (advancePc n s).dt = s.dt := rfl
@[simp] theorem advancePc_dpr : (advancePc n s).dpr = s.dpr := rfl
@[simp] theorem advancePc_ps : (advancePc n s).ps = s.ps := rfl
@[simp] theorem advancePc_run : (advancePc n s).run = s.run := rfl
@[simp] theorem advancePc_mem : (advancePc n s).mem = s.mem := rfl
@[simp] theorem advancePc_pending : (advancePc n s).pending = s.pending := rfl
@[simp] theorem advancePc_stale : (advancePc n s).stale = s.stale := rfl
@[simp] theorem advancePc_schedule : (advancePc n s).schedule = s.schedule := rfl
@[simp] theorem advancePc_ioOut : (advancePc n s).ioOut = s.ioOut := rfl
@[simp] theorem advancePc_draws : (advancePc n s).draws = s.draws := rfl
@[simp] theorem advancePc_par : (advancePc n s).par = s.par := rfl

end advancePc

/-! ## The fields an update does write -/

@[simp] theorem setNZ_ps (w : Width) (v : Word) (s : State) : (setNZ w v s).ps = s.ps.setNZ w v := rfl
@[simp] theorem writeX_x (v : Word) (s : State) : (writeX v s).x = s.wx.merge s.x v := rfl
@[simp] theorem writeY_y (v : Word) (s : State) : (writeY v s).y = s.wx.merge s.y v := rfl
@[simp] theorem accWrite_a (v : Word) (s : State) : (accWrite .a v s).a = s.wm.merge s.a v := rfl
@[simp] theorem accWrite_b (v : Word) (s : State) : (accWrite .b v s).b = s.wm.merge s.b v := rfl
@[simp] theorem accWrite_a_b (v : Word) (s : State) : (accWrite .a v s).b = s.b := rfl
@[simp] theorem accWrite_b_a (v : Word) (s : State) : (accWrite .b v s).a = s.a := rfl
@[simp] theorem loadX_x (v : Word) (s : State) : (loadX v s).x = s.wx.merge s.x v := rfl
@[simp] theorem loadY_y (v : Word) (s : State) : (loadY v s).y = s.wx.merge s.y v := rfl
@[simp] theorem loadX_ps (v : Word) (s : State) : (loadX v s).ps = s.ps.setNZ s.wx v := rfl
@[simp] theorem loadY_ps (v : Word) (s : State) : (loadY v s).ps = s.ps.setNZ s.wx v := rfl
@[simp] theorem loadAcc_ps (r : Acc) (v : Word) (s : State) : (loadAcc r v s).ps = s.ps.setNZ s.wm v := by
  cases r <;> rfl
@[simp] theorem push8_sp (v : Byte) (s : State) : (push8 v s).sp = s.sp - 1#16 := rfl
@[simp] theorem push16_sp (v : Word) (s : State) : (push16 v s).sp = s.sp - 1#16 - 1#16 := rfl
@[simp] theorem dropStack_sp (n : Word) (s : State) : (dropStack n s).sp = s.sp + n := rfl
@[simp] theorem jumpTo_stale (p : Addr) (s : State) : (jumpTo p s).stale = [] := rfl
@[simp] theorem jumpTo_pg (p : Addr) (s : State) : (jumpTo p s).pg = bankOf p := rfl
@[simp] theorem jumpTo_pc (p : Addr) (s : State) : (jumpTo p s).pc = offOf p := rfl

/-! ## The flags under the flag updates -/

@[simp] theorem psr_setNZ_m (p : Psr) (w : Width) (v : Word) : (p.setNZ w v).m = p.m := rfl
@[simp] theorem psr_setNZ_x (p : Psr) (w : Width) (v : Word) : (p.setNZ w v).x = p.x := rfl
@[simp] theorem psr_setNZ_ipl (p : Psr) (w : Width) (v : Word) : (p.setNZ w v).ipl = p.ipl := rfl
@[simp] theorem psr_setNZ_trunc (p : Psr) (w : Width) (v : Word) : p.setNZ w (w.trunc v) = p.setNZ w v := by
  cases w <;> simp [Psr.setNZ, Width.top, Width.trunc, zx8, lo8]

end Sys2Proof.Laws
end

