-- ==== Sys2Proof/Laws/Frames.lean ====
section
/-! SUPPORT. What the composite operations leave in each field: one lemma per field per operation. -/

namespace Sys2Proof.Laws

open Sys2Proof.Machine

/-! ## branchIf -/

section branchIf

variable (taken : Bool) (d : Addr) (s : State)

@[simp] theorem branchIf_a : (branchIf taken d s).a = s.a := by cases taken <;> rfl
@[simp] theorem branchIf_b : (branchIf taken d s).b = s.b := by cases taken <;> rfl
@[simp] theorem branchIf_x : (branchIf taken d s).x = s.x := by cases taken <;> rfl
@[simp] theorem branchIf_y : (branchIf taken d s).y = s.y := by cases taken <;> rfl
@[simp] theorem branchIf_sp : (branchIf taken d s).sp = s.sp := by cases taken <;> rfl
@[simp] theorem branchIf_dt : (branchIf taken d s).dt = s.dt := by cases taken <;> rfl
@[simp] theorem branchIf_dpr : (branchIf taken d s).dpr = s.dpr := by cases taken <;> rfl
@[simp] theorem branchIf_ps : (branchIf taken d s).ps = s.ps := by cases taken <;> rfl
@[simp] theorem branchIf_run : (branchIf taken d s).run = s.run := by cases taken <;> rfl
@[simp] theorem branchIf_mem : (branchIf taken d s).mem = s.mem := by cases taken <;> rfl
@[simp] theorem branchIf_pending : (branchIf taken d s).pending = s.pending := by cases taken <;> rfl
@[simp] theorem branchIf_schedule : (branchIf taken d s).schedule = s.schedule := by cases taken <;> rfl
@[simp] theorem branchIf_ioOut : (branchIf taken d s).ioOut = s.ioOut := by cases taken <;> rfl
@[simp] theorem branchIf_draws : (branchIf taken d s).draws = s.draws := by cases taken <;> rfl
@[simp] theorem branchIf_par : (branchIf taken d s).par = s.par := by cases taken <;> rfl

end branchIf

/-! ## targetWrite -/

section targetWrite

variable (t : Target) (v : Word) (s : State)

@[simp] theorem targetWrite_x : (targetWrite t v s).x = s.x := by cases t <;> simp [targetWrite]
@[simp] theorem targetWrite_y : (targetWrite t v s).y = s.y := by cases t <;> simp [targetWrite]
@[simp] theorem targetWrite_sp : (targetWrite t v s).sp = s.sp := by cases t <;> simp [targetWrite]
@[simp] theorem targetWrite_pc : (targetWrite t v s).pc = s.pc := by cases t <;> simp [targetWrite]
@[simp] theorem targetWrite_pg : (targetWrite t v s).pg = s.pg := by cases t <;> simp [targetWrite]
@[simp] theorem targetWrite_dt : (targetWrite t v s).dt = s.dt := by cases t <;> simp [targetWrite]
@[simp] theorem targetWrite_dpr : (targetWrite t v s).dpr = s.dpr := by cases t <;> simp [targetWrite]
@[simp] theorem targetWrite_ps : (targetWrite t v s).ps = s.ps := by cases t <;> simp [targetWrite]
@[simp] theorem targetWrite_run : (targetWrite t v s).run = s.run := by cases t <;> simp [targetWrite]
@[simp] theorem targetWrite_pending : (targetWrite t v s).pending = s.pending := by cases t <;> simp [targetWrite]
@[simp] theorem targetWrite_schedule : (targetWrite t v s).schedule = s.schedule := by cases t <;> simp [targetWrite]
@[simp] theorem targetWrite_draws : (targetWrite t v s).draws = s.draws := by cases t <;> simp [targetWrite]
@[simp] theorem targetWrite_par : (targetWrite t v s).par = s.par := by cases t <;> simp [targetWrite]

end targetWrite

/-! ## pushFrame -/

section pushFrame

variable (ret : Addr) (s : State)

@[simp] theorem pushFrame_a : (pushFrame ret s).a = s.a := by simp [pushFrame]
@[simp] theorem pushFrame_b : (pushFrame ret s).b = s.b := by simp [pushFrame]
@[simp] theorem pushFrame_x : (pushFrame ret s).x = s.x := by simp [pushFrame]
@[simp] theorem pushFrame_y : (pushFrame ret s).y = s.y := by simp [pushFrame]
@[simp] theorem pushFrame_pc : (pushFrame ret s).pc = s.pc := by simp [pushFrame]
@[simp] theorem pushFrame_pg : (pushFrame ret s).pg = s.pg := by simp [pushFrame]
@[simp] theorem pushFrame_dt : (pushFrame ret s).dt = s.dt := by simp [pushFrame]
@[simp] theorem pushFrame_dpr : (pushFrame ret s).dpr = s.dpr := by simp [pushFrame]
@[simp] theorem pushFrame_ps : (pushFrame ret s).ps = s.ps := by simp [pushFrame]
@[simp] theorem pushFrame_run : (pushFrame ret s).run = s.run := by simp [pushFrame]
@[simp] theorem pushFrame_pending : (pushFrame ret s).pending = s.pending := by simp [pushFrame]
@[simp] theorem pushFrame_schedule : (pushFrame ret s).schedule = s.schedule := by simp [pushFrame]
@[simp] theorem pushFrame_draws : (pushFrame ret s).draws = s.draws := by simp [pushFrame]
@[simp] theorem pushFrame_par : (pushFrame ret s).par = s.par := by simp [pushFrame]

end pushFrame

/-! ## enterException -/

section enterException

variable (ret : Addr) (vector : Word) (ipl : Option (BitVec 3)) (s : State)

@[simp] theorem enterException_a : (enterException ret vector ipl s).a = s.a := by simp [enterException]
@[simp] theorem enterException_b : (enterException ret vector ipl s).b = s.b := by simp [enterException]
@[simp] theorem enterException_x : (enterException ret vector ipl s).x = s.x := by simp [enterException]
@[simp] theorem enterException_y : (enterException ret vector ipl s).y = s.y := by simp [enterException]
@[simp] theorem enterException_dt : (enterException ret vector ipl s).dt = s.dt := by simp [enterException]
@[simp] theorem enterException_dpr : (enterException ret vector ipl s).dpr = s.dpr := by simp [enterException]
@[simp] theorem enterException_pending : (enterException ret vector ipl s).pending = s.pending := by simp [enterException]
@[simp] theorem enterException_schedule : (enterException ret vector ipl s).schedule = s.schedule := by simp [enterException]
@[simp] theorem enterException_draws : (enterException ret vector ipl s).draws = s.draws := by simp [enterException]
@[simp] theorem enterException_par : (enterException ret vector ipl s).par = s.par := by simp [enterException]

end enterException

/-! ## returnException -/

section returnException

variable  (s : State)

@[simp] theorem returnException_a : (returnException s).a = s.a := by simp [returnException]
@[simp] theorem returnException_b : (returnException s).b = s.b := by simp [returnException]
@[simp] theorem returnException_x : (returnException s).x = s.x := by simp [returnException]
@[simp] theorem returnException_y : (returnException s).y = s.y := by simp [returnException]
@[simp] theorem returnException_dt : (returnException s).dt = s.dt := by simp [returnException]
@[simp] theorem returnException_dpr : (returnException s).dpr = s.dpr := by simp [returnException]
@[simp] theorem returnException_run : (returnException s).run = s.run := by simp [returnException]
@[simp] theorem returnException_mem : (returnException s).mem = s.mem := by simp [returnException]
@[simp] theorem returnException_pending : (returnException s).pending = s.pending := by simp [returnException]
@[simp] theorem returnException_schedule : (returnException s).schedule = s.schedule := by simp [returnException]
@[simp] theorem returnException_ioOut : (returnException s).ioOut = s.ioOut := by simp [returnException]
@[simp] theorem returnException_draws : (returnException s).draws = s.draws := by simp [returnException]
@[simp] theorem returnException_par : (returnException s).par = s.par := by simp [returnException]

end returnException

/-! ## moveBytes -/

section moveBytes

variable (src dst : Nat → Addr) (s : State)

@[simp] theorem moveBytes_a : ∀ n : Nat, (moveBytes src dst n s).a = s.a
  | 0 => rfl
  | n + 1 => moveBytes_a n
@[simp] theorem moveBytes_b : ∀ n : Nat, (moveBytes src dst n s).b = s.b
  | 0 => rfl
  | n + 1 => moveBytes_b n
@[simp] theorem moveBytes_x : ∀ n : Nat, (moveBytes src dst n s).x = s.x
  | 0 => rfl
  | n + 1 => moveBytes_x n
@[simp] theorem moveBytes_y : ∀ n : Nat, (moveBytes src dst n s).y = s.y
  | 0 => rfl
  | n + 1 => moveBytes_y n
@[simp] theorem moveBytes_sp : ∀ n : Nat, (moveBytes src dst n s).sp = s.sp
  | 0 => rfl
  | n + 1 => moveBytes_sp n
@[simp] theorem moveBytes_pc : ∀ n : Nat, (moveBytes src dst n s).pc = s.pc
  | 0 => rfl
  | n + 1 => moveBytes_pc n
@[simp] theorem moveBytes_pg : ∀ n : Nat, (moveBytes src dst n s).pg = s.pg
  | 0 => rfl
  | n + 1 => moveBytes_pg n
@[simp] theorem moveBytes_dt : ∀ n : Nat, (moveBytes src dst n s).dt = s.dt
  | 0 => rfl
  | n + 1 => moveBytes_dt n
@[simp] theorem moveBytes_dpr : ∀ n : Nat, (moveBytes src dst n s).dpr = s.dpr
  | 0 => rfl
  | n + 1 => moveBytes_dpr n
@[simp] theorem moveBytes_ps : ∀ n : Nat, (moveBytes src dst n s).ps = s.ps
  | 0 => rfl
  | n + 1 => moveBytes_ps n
@[simp] theorem moveBytes_run : ∀ n : Nat, (moveBytes src dst n s).run = s.run
  | 0 => rfl
  | n + 1 => moveBytes_run n
@[simp] theorem moveBytes_pending : ∀ n : Nat, (moveBytes src dst n s).pending = s.pending
  | 0 => rfl
  | n + 1 => moveBytes_pending n
@[simp] theorem moveBytes_schedule : ∀ n : Nat, (moveBytes src dst n s).schedule = s.schedule
  | 0 => rfl
  | n + 1 => moveBytes_schedule n
@[simp] theorem moveBytes_draws : ∀ n : Nat, (moveBytes src dst n s).draws = s.draws
  | 0 => rfl
  | n + 1 => moveBytes_draws n
@[simp] theorem moveBytes_par : ∀ n : Nat, (moveBytes src dst n s).par = s.par
  | 0 => rfl
  | n + 1 => moveBytes_par n

end moveBytes

/-! ## putPair -/

section putPair

variable (hi lo : Word) (s : State)

@[simp] theorem putPair_x : (putPair hi lo s).x = s.x := by simp [putPair]
@[simp] theorem putPair_y : (putPair hi lo s).y = s.y := by simp [putPair]
@[simp] theorem putPair_sp : (putPair hi lo s).sp = s.sp := by simp [putPair]
@[simp] theorem putPair_pc : (putPair hi lo s).pc = s.pc := by simp [putPair]
@[simp] theorem putPair_pg : (putPair hi lo s).pg = s.pg := by simp [putPair]
@[simp] theorem putPair_dt : (putPair hi lo s).dt = s.dt := by simp [putPair]
@[simp] theorem putPair_dpr : (putPair hi lo s).dpr = s.dpr := by simp [putPair]
@[simp] theorem putPair_ps : (putPair hi lo s).ps = s.ps := by simp [putPair]
@[simp] theorem putPair_run : (putPair hi lo s).run = s.run := by simp [putPair]
@[simp] theorem putPair_mem : (putPair hi lo s).mem = s.mem := by simp [putPair]
@[simp] theorem putPair_pending : (putPair hi lo s).pending = s.pending := by simp [putPair]
@[simp] theorem putPair_stale : (putPair hi lo s).stale = s.stale := by simp [putPair]
@[simp] theorem putPair_schedule : (putPair hi lo s).schedule = s.schedule := by simp [putPair]
@[simp] theorem putPair_ioOut : (putPair hi lo s).ioOut = s.ioOut := by simp [putPair]
@[simp] theorem putPair_draws : (putPair hi lo s).draws = s.draws := by simp [putPair]
@[simp] theorem putPair_par : (putPair hi lo s).par = s.par := by simp [putPair]

end putPair

/-! ## multiply -/

section multiply

variable (v : Word) (s : State)

@[simp] theorem multiply_x : (multiply v s).x = s.x := by simp [multiply]
@[simp] theorem multiply_y : (multiply v s).y = s.y := by simp [multiply]
@[simp] theorem multiply_sp : (multiply v s).sp = s.sp := by simp [multiply]
@[simp] theorem multiply_pc : (multiply v s).pc = s.pc := by simp [multiply]
@[simp] theorem multiply_pg : (multiply v s).pg = s.pg := by simp [multiply]
@[simp] theorem multiply_dt : (multiply v s).dt = s.dt := by simp [multiply]
@[simp] theorem multiply_dpr : (multiply v s).dpr = s.dpr := by simp [multiply]
@[simp] theorem multiply_run : (multiply v s).run = s.run := by simp [multiply]
@[simp] theorem multiply_mem : (multiply v s).mem = s.mem := by simp [multiply]
@[simp] theorem multiply_pending : (multiply v s).pending = s.pending := by simp [multiply]
@[simp] theorem multiply_stale : (multiply v s).stale = s.stale := by simp [multiply]
@[simp] theorem multiply_schedule : (multiply v s).schedule = s.schedule := by simp [multiply]
@[simp] theorem multiply_ioOut : (multiply v s).ioOut = s.ioOut := by simp [multiply]
@[simp] theorem multiply_draws : (multiply v s).draws = s.draws := by simp [multiply]
@[simp] theorem multiply_par : (multiply v s).par = s.par := by simp [multiply]

end multiply

/-! ## blockEnd -/

section blockEnd

variable (n1 : Byte) (d : Word) (s : State)

@[simp] theorem blockEnd_b : (blockEnd n1 d s).b = s.b := by simp [blockEnd]
@[simp] theorem blockEnd_sp : (blockEnd n1 d s).sp = s.sp := by simp [blockEnd]
@[simp] theorem blockEnd_pc : (blockEnd n1 d s).pc = s.pc := by simp [blockEnd]
@[simp] theorem blockEnd_pg : (blockEnd n1 d s).pg = s.pg := by simp [blockEnd]
@[simp] theorem blockEnd_dpr : (blockEnd n1 d s).dpr = s.dpr := by simp [blockEnd]
@[simp] theorem blockEnd_ps : (blockEnd n1 d s).ps = s.ps := by simp [blockEnd]
@[simp] theorem blockEnd_run : (blockEnd n1 d s).run = s.run := by simp [blockEnd]
@[simp] theorem blockEnd_mem : (blockEnd n1 d s).mem = s.mem := by simp [blockEnd]
@[simp] theorem blockEnd_pending : (blockEnd n1 d s).pending = s.pending := by simp [blockEnd]
@[simp] theorem blockEnd_stale : (blockEnd n1 d s).stale = s.stale := by simp [blockEnd]
@[simp] theorem blockEnd_schedule : (blockEnd n1 d s).schedule = s.schedule := by simp [blockEnd]
@[simp] theorem blockEnd_ioOut : (blockEnd n1 d s).ioOut = s.ioOut := by simp [blockEnd]
@[simp] theorem blockEnd_draws : (blockEnd n1 d s).draws = s.draws := by simp [blockEnd]
@[simp] theorem blockEnd_par : (blockEnd n1 d s).par = s.par := by simp [blockEnd]

end blockEnd

/-! ## The fields they do write -/

theorem returnException_ps (s : State) : (returnException s).ps = Psr.ofWord (peek16 1#16 s) := rfl

theorem returnException_sp (s : State) : (returnException s).sp = s.sp + 5#16 := rfl

theorem enterException_ps (ret : Addr) (vector : Word) (ipl : Option (BitVec 3)) (s : State) :
    (enterException ret vector ipl s).ps = { s.ps with i := true, ipl := ipl.getD s.ps.ipl } := by
  simp [enterException]

theorem enterException_run (ret : Addr) (vector : Word) (ipl : Option (BitVec 3)) (s : State) :
    (enterException ret vector ipl s).run = .running := by simp [enterException]

/-! ## Conditional updates -/

/-- What `f` keeps, doing `f` or nothing keeps. -/
theorem onBit_keeps {α : Type} (g : State → α) (bit : Bool) (f : State → State) (s : State)
    (h : g (f s) = g s) : g (onBit bit f s) = g s := by
  cases bit
  · rfl
  · exact h

@[simp] theorem onBit_true (f : State → State) (s : State) : onBit true f s = f s := rfl

@[simp] theorem onBit_false (f : State → State) (s : State) : onBit false f s = s := rfl

/-- The three outcomes of a division (R240). -/
theorem divide_cases (v : Word) (s : State) :
    (v = 0#16 ∧ divide v s = enterException s.pc24 s.par.vecZeroDiv none s) ∨
    (v ≠ 0#16 ∧ divide v s = divideOverflows s) ∨
    (v ≠ 0#16 ∧ ∃ q r, divide v s = divideFits q r s) := by
  by_cases hv : v = 0#16
  · exact .inl ⟨hv, if_pos hv⟩
  · by_cases hq : 2 ^ s.wm.bits ≤ dividend s.wm (accRead .b s) (accRead .a s) / v.toNat
    · exact .inr (.inl ⟨hv, (if_neg hv).trans (if_pos hq)⟩)
    · exact .inr (.inr ⟨hv, _, _, (if_neg hv).trans (if_neg hq)⟩)

end Sys2Proof.Laws
end

