-- ==== Sys2Proof/Laws/Memory.lean ====
section
/-! SUPPORT. The laws of memory as a list of cells: reading what was written, leaving the rest alone,
keeping the canonical form, and equality of memories that read alike; then the same of the bus. -/

namespace Sys2Proof.Laws

open Sys2Proof.Machine

/-! ## Cells -/

theorem memWfFrom_cons (lo : Nat) (c : Host.Cell) (rest : List Host.Cell) :
    memWfFrom lo (c :: rest) = true ↔
      lo ≤ c.1 ∧ c.1 < 2 ^ 24 ∧ c.2 ≠ blankByte ∧ memWfFrom (c.1 + 1) rest = true := by
  simp [memWfFrom, and_assoc]

theorem memWfFrom_mono {lo lo' : Nat} (h : lo' ≤ lo) {m : List Host.Cell} (hm : memWfFrom lo m = true) :
    memWfFrom lo' m = true := by
  cases m with
  | nil => rfl
  | cons c rest =>
    rw [memWfFrom_cons] at hm ⊢
    exact ⟨by omega, hm.2⟩

/-- Below the bound of a canonical list nothing is listed. -/
theorem memRead_below {lo a : Nat} (h : a < lo) {m : List Host.Cell} (hm : memWfFrom lo m = true) :
    memRead m a = blankByte := by
  cases m with
  | nil => rfl
  | cons c rest =>
    rw [memWfFrom_cons] at hm
    have h1 : a ≠ c.1 := by omega
    have h2 : a < c.1 := by omega
    simp [memRead, h1, h2]

theorem memRead_memCons_same (a : Nat) (v : Byte) {rest : List Host.Cell} (h : memWfFrom (a + 1) rest = true) :
    memRead (memCons a v rest) a = v := by
  unfold memCons
  split
  · next hv => rw [hv]; exact memRead_below (by omega) h
  · simp [memRead]

theorem memRead_memCons_other {a b : Nat} (v : Byte) (h : b ≠ a) {rest : List Host.Cell}
    (hr : memWfFrom (a + 1) rest = true) : memRead (memCons a v rest) b = memRead rest b := by
  unfold memCons
  split
  · rfl
  · by_cases hb : b < a
    · simp only [memRead, h, hb, if_true, if_false]
      exact (memRead_below (by omega) hr).symm
    · simp [memRead, h, hb]

theorem memCons_wf {lo a : Nat} (h : lo ≤ a) (ha : a < 2 ^ 24) (v : Byte) {rest : List Host.Cell}
    (hr : memWfFrom (a + 1) rest = true) : memWfFrom lo (memCons a v rest) = true := by
  unfold memCons
  split
  · exact memWfFrom_mono (by omega) hr
  · next hv => rw [memWfFrom_cons]; exact ⟨h, ha, hv, hr⟩

theorem memWrite_wfFrom {a : Nat} (ha : a < 2 ^ 24) (v : Byte) :
    ∀ (m : List Host.Cell) (lo : Nat), lo ≤ a → memWfFrom lo m = true → memWfFrom lo (memWrite m a v) = true
  | [], lo, h, _ => memCons_wf h ha v rfl
  | c :: rest, lo, h, hm => by
    rw [memWfFrom_cons] at hm
    unfold memWrite
    split
    · next e => exact memCons_wf h ha v (by rw [e]; exact hm.2.2.2)
    · split
      · next hlt =>
        refine memCons_wf h ha v ?_
        rw [memWfFrom_cons]
        exact ⟨by omega, hm.2⟩
      · next hne hlt =>
        rw [memWfFrom_cons]
        exact ⟨hm.1, hm.2.1, hm.2.2.1, memWrite_wfFrom ha v rest (c.1 + 1) (by omega) hm.2.2.2⟩

/-- Storing a byte keeps the canonical form. -/
theorem memWrite_wf {m : List Host.Cell} (hm : Memory.wf m = true) {a : Nat} (ha : a < 2 ^ 24) (v : Byte) :
    Memory.wf (memWrite m a v) = true :=
  memWrite_wfFrom ha v m 0 (by omega) hm

theorem memRead_memWrite_from {a b : Nat} (v : Byte) :
    ∀ (m : List Host.Cell) (lo : Nat), memWfFrom lo m = true →
      memRead (memWrite m a v) b = if b = a then v else memRead m b
  | [], _, _ => by
    unfold memWrite
    split
    · next e => rw [e]; exact memRead_memCons_same a v rfl
    · next e => exact memRead_memCons_other v e rfl
  | c :: rest, lo, hm => by
    have hm' := hm
    rw [memWfFrom_cons] at hm
    unfold memWrite
    split
    · next e =>
      have hr : memWfFrom (a + 1) rest = true := by rw [e]; exact hm.2.2.2
      split
      · next eb => rw [eb]; exact memRead_memCons_same a v hr
      · next eb =>
        rw [memRead_memCons_other v eb hr]
        have hc : b ≠ c.1 := by omega
        by_cases hlt : b < c.1
        · simp only [memRead, hc, hlt, if_true, if_false]
          exact memRead_below (by omega) hr
        · simp [memRead, hc, hlt]
    · split
      · next hne hlt =>
        have hr : memWfFrom (a + 1) (c :: rest) = true := by
          rw [memWfFrom_cons]; exact ⟨by omega, hm.2⟩
        split
        · next eb => rw [eb]; exact memRead_memCons_same a v hr
        · next eb => exact memRead_memCons_other v eb hr
      · next hne hlt =>
        have ih := memRead_memWrite_from (a := a) (b := b) v rest (c.1 + 1) hm.2.2.2
        by_cases hb : b = c.1
        · have hba : b ≠ a := by omega
          simp [memRead, hb, hb ▸ hba]
        · by_cases hbl : b < c.1
          · have hba : b ≠ a := by omega
            simp [memRead, hb, hbl, hba]
          · simp [memRead, hb, hbl, ih]

/-- Reading after a store: the stored byte at its address, the earlier byte elsewhere. -/
theorem memRead_memWrite {m : List Host.Cell} (hm : Memory.wf m = true) (a b : Nat) (v : Byte) :
    memRead (memWrite m a v) b = if b = a then v else memRead m b :=
  memRead_memWrite_from v m 0 hm

theorem memRead_head {c : Host.Cell} {rest : List Host.Cell} : memRead (c :: rest) c.1 = c.2 := by
  simp [memRead]

/-- Canonical memories that read alike everywhere are the same list. -/
theorem mem_ext_from : ∀ (m n : List Host.Cell) (lo : Nat), memWfFrom lo m = true → memWfFrom lo n = true →
    (∀ a, memRead m a = memRead n a) → m = n
  | [], [], _, _, _, _ => rfl
  | [], d :: rest, lo, _, hn, h => by
    rw [memWfFrom_cons] at hn
    have h1 := h d.1
    rw [memRead_head] at h1
    exact absurd h1.symm hn.2.2.1
  | c :: rest, [], lo, hm, _, h => by
    rw [memWfFrom_cons] at hm
    have h1 := h c.1
    rw [memRead_head] at h1
    exact absurd h1 hm.2.2.1
  | c :: rest, d :: rest', lo, hm, hn, h => by
    rw [memWfFrom_cons] at hm hn
    have e1 : c.1 = d.1 := by
      rcases Nat.lt_trichotomy c.1 d.1 with hlt | heq | hgt
      · have h1 := h c.1
        have h2 : c.1 ≠ d.1 := by omega
        rw [memRead_head] at h1
        simp only [memRead, h2, hlt, if_true, if_false] at h1
        exact absurd h1 hm.2.2.1
      · exact heq
      · have h1 := h d.1
        have h2 : d.1 ≠ c.1 := by omega
        rw [memRead_head] at h1
        simp only [memRead, h2, hgt, if_true, if_false] at h1
        exact absurd h1.symm hn.2.2.1
    have e2 : c.2 = d.2 := by
      have h1 := h c.1
      rw [memRead_head, e1, memRead_head] at h1
      exact h1
    have e3 : rest = rest' := by
      refine mem_ext_from rest rest' (c.1 + 1) hm.2.2.2 (by rw [e1]; exact hn.2.2.2) fun a => ?_
      by_cases ha : a < c.1 + 1
      · rw [memRead_below ha hm.2.2.2, memRead_below (by omega) hn.2.2.2]
      · have h1 := h a
        have h2 : a ≠ c.1 := by omega
        have h3 : ¬ a < c.1 := by omega
        have h4 : a ≠ d.1 := by omega
        have h5 : ¬ a < d.1 := by omega
        simpa [memRead, h2, h3, h4, h5] using h1
    rw [e3, Prod.ext e1 e2]

/-- Canonical memories that read alike everywhere are equal. -/
theorem mem_ext {m n : List Host.Cell} (hm : Memory.wf m = true) (hn : Memory.wf n = true)
    (h : ∀ a, memRead m a = memRead n a) : m = n :=
  mem_ext_from m n 0 hm hn h

/-! ## The bus -/

/-- Two states whose reads agree: same memory, same parameters, same draw. -/
theorem busRead_congr {s t : State} (hm : t.mem = s.mem) (hp : t.par = s.par) (hd : t.draws = s.draws)
    (a : Addr) : busRead t a = busRead s a := by
  unfold busRead mapKind
  rw [hm, hp, hd]

theorem addr_toNat_inj {a b : Addr} : a.toNat = b.toNat ↔ a = b :=
  ⟨BitVec.eq_of_toNat_eq, fun h => by rw [h]⟩

/-- `MemWrite` then `MemRead` of one byte: RAM returns the byte; every other place is left alone (R76,
R81). -/
theorem busRead_busWrite {s : State} (hs : Memory.wf s.mem = true) (a b : Addr) (v : Byte) :
    busRead (busWrite a v s) b = if b = a ∧ mapKind s a = .ram then v else busRead s b := by
  have hk : ∀ c, mapKind (busWrite a v s) c = mapKind s c := fun c => rfl
  unfold busRead
  rw [hk]
  by_cases hb : b = a
  · subst hb
    cases hm : mapKind s b <;> simp [busWrite, memAfter, hm, memRead_memWrite hs]
  · cases hm : mapKind s a <;> cases hn : mapKind s b <;>
      simp [busWrite, memAfter, hm, hb, memRead_memWrite hs, addr_toNat_inj]

theorem busWrite_wf {s : State} (hs : Memory.wf s.mem = true) (a : Addr) (v : Byte) :
    Memory.wf (busWrite a v s).mem = true := by
  show Memory.wf (memAfter a v s) = true
  unfold memAfter
  cases mapKind s a with
  | ram => exact memWrite_wf hs a.isLt v
  | rom => exact hs
  | io => exact hs
  | unmapped => exact hs

theorem writeData_wf {s : State} (hs : Memory.wf s.mem = true) (w : Width) (a : Addr) (v : Word) :
    Memory.wf (writeData w a v s).mem = true := by
  cases w with
  | byte => exact busWrite_wf hs a _
  | word => exact busWrite_wf (busWrite_wf hs a _) _ _

theorem push8_wf {s : State} (hs : Memory.wf s.mem = true) (v : Byte) : Memory.wf (push8 v s).mem = true :=
  busWrite_wf hs _ _

theorem push16_wf {s : State} (hs : Memory.wf s.mem = true) (v : Word) : Memory.wf (push16 v s).mem = true :=
  push8_wf (push8_wf hs _) _

theorem pushData_wf {s : State} (hs : Memory.wf s.mem = true) (w : Width) (v : Word) :
    Memory.wf (pushData w v s).mem = true := by
  cases w with
  | byte => exact push8_wf hs _
  | word => exact push16_wf hs _

theorem pushFrame_wf {s : State} (hs : Memory.wf s.mem = true) (ret : Addr) :
    Memory.wf (pushFrame ret s).mem = true :=
  push16_wf (push16_wf (push8_wf hs _) _) _

theorem enterException_wf {s : State} (hs : Memory.wf s.mem = true) (ret : Addr) (vector : Word)
    (ipl : Option (BitVec 3)) : Memory.wf (enterException ret vector ipl s).mem = true :=
  pushFrame_wf hs ret

theorem moveBytes_wf (src dst : Nat → Addr) :
    ∀ (n : Nat) {s : State}, Memory.wf s.mem = true → Memory.wf (moveBytes src dst n s).mem = true
  | 0, _, hs => hs
  | n + 1, _, hs => busWrite_wf (moveBytes_wf src dst n hs) _ _

/-- The memory of the machine after reset is in its canonical form. -/
theorem reset_mem_wf : Memory.wf State.reset.mem = true := rfl

end Sys2Proof.Laws
end

