-- ==== Sys2Proof/Laws/Ops.lean ====
section
/-! SUPPORT. What each shared operation of the machine does, said once, in the terms of the statements
(Sys2Proof/Safety.lean): numbers at a length, stores, pushes, pulls, control transfers, the entry sequence. -/

namespace Sys2Proof.Laws

open Sys2Proof.Machine

/-! ## Numbers at a length -/

theorem span_eq (f : Bool) : span f = 2 ^ (widthOf f).bits := by cases f <;> rfl

theorem span_pos (f : Bool) : 0 < span f := by cases f <;> decide

theorem low_eq (f : Bool) (v : Word) : low f v = ((widthOf f).trunc v).toNat := by
  rw [trunc_toNat, ← span_eq]
  rfl

theorem low_lt (f : Bool) (v : Word) : low f v < span f := Nat.mod_lt _ (span_pos f)

theorem merge_eq (f : Bool) (old v : Word) : (widthOf f).merge old v = withLow f old v.toNat := by
  apply BitVec.eq_of_toNat_eq
  cases f
  · simp [widthOf, Width.merge, withLow]
  · simp only [widthOf, if_true, merge_byte, mkWord_toNat, hi8_toNat, lo8_toNat, withLow,
      BitVec.toNat_ofNat]
    omega

theorem withLow_mod (f : Bool) (old : Word) (n : Nat) : withLow f old (n % 65536) = withLow f old n := by
  apply BitVec.eq_of_toNat_eq
  cases f <;> simp only [withLow, BitVec.toNat_ofNat, if_true] <;> simp

theorem withLow_span (f : Bool) (old : Word) (n : Nat) : withLow f old (n % span f) = withLow f old n := by
  apply BitVec.eq_of_toNat_eq
  cases f <;> simp only [withLow, BitVec.toNat_ofNat, if_true, span] <;> simp

theorem beq_zero_eq (v : Word) : (v == 0#16) = decide (v.toNat = 0) := by
  rw [Bool.eq_iff_iff, beq_iff_eq, decide_eq_true_iff, ← BitVec.toNat_inj]
  simp

theorem setNZ_eq (p : Psr) (f : Bool) (v : Word) : p.setNZ (widthOf f) v = withNZ f v.toNat p := by
  have hn : (widthOf f).top v = decide (span f ≤ 2 * (v.toNat % span f)) := by
    have h := v.isLt
    cases f
    · rw [Bool.eq_iff_iff]; simp [widthOf, span, top_word_iff]; omega
    · rw [Bool.eq_iff_iff]; simp [widthOf, span, top_byte_iff]; omega
  have hz : ((widthOf f).trunc v == 0#16) = decide (v.toNat % span f = 0) := by
    rw [beq_zero_eq, ← low_eq]; rfl
  simp only [Psr.setNZ, withNZ, hn, hz]

theorem withNZ_span (f : Bool) (n : Nat) (p : Psr) : withNZ f (n % span f) p = withNZ f n p := by
  simp only [withNZ, Nat.mod_mod]

theorem wm_eq (s : State) : s.wm = widthOf s.ps.m := rfl

theorem wx_eq (s : State) : s.wx = widthOf s.ps.x := rfl

theorem accRead_toNat (r : Acc) (s : State) : (accRead r s).toNat = accNum r s := by
  rw [accNum, low_eq]
  rfl

theorem readX_toNat (s : State) : (readX s).toNat = low s.ps.x s.x := by rw [low_eq]; rfl

theorem readY_toNat (s : State) : (readY s).toNat = low s.ps.x s.y := by rw [low_eq]; rfl

theorem accWrite_eq (r : Acc) (v : Word) (s : State) : accWrite r v s = withAcc r v.toNat s := by
  cases r
  · simp only [accWrite, accPut, accGet, withAcc, wm_eq, merge_eq]
  · simp only [accWrite, accPut, accGet, withAcc, wm_eq, merge_eq]

theorem withAcc_mod (r : Acc) (n : Nat) (s : State) : withAcc r (n % 65536) s = withAcc r n s := by
  cases r <;> simp only [withAcc, withLow_mod]

theorem withAcc_span (r : Acc) (n : Nat) (s : State) : withAcc r (n % span s.ps.m) s = withAcc r n s := by
  cases r <;> simp only [withAcc, withLow_span]

theorem withAcc_ps (r : Acc) (n : Nat) (s : State) : (withAcc r n s).ps = s.ps := by cases r <;> rfl

theorem loadAcc_eq (r : Acc) (v : Word) (s : State) : loadAcc r v s = gotAcc r v.toNat s := by
  rw [loadAcc, setNZ, accWrite_eq, gotAcc, wm_eq, setNZ_eq, withAcc_ps]

theorem loadX_eq (v : Word) (s : State) : loadX v s = gotX v.toNat s := by
  simp only [loadX, setNZ, writeX, wx_eq, merge_eq, setNZ_eq, gotX]

theorem loadY_eq (v : Word) (s : State) : loadY v s = gotY v.toNat s := by
  simp only [loadY, setNZ, writeY, wx_eq, merge_eq, setNZ_eq, gotY]

theorem gotAcc_span (r : Acc) (n : Nat) (s : State) : gotAcc r (n % span s.ps.m) s = gotAcc r n s := by
  simp only [gotAcc, withAcc_span, withNZ_span]

theorem gotX_span (n : Nat) (s : State) : gotX (n % span s.ps.x) s = gotX n s := by
  simp only [gotX, withLow_span, withNZ_span]

theorem gotY_span (n : Nat) (s : State) : gotY (n % span s.ps.x) s = gotY n s := by
  simp only [gotY, withLow_span, withNZ_span]

/-- Reducing modulo 65536 first changes nothing at either length. -/
theorem mod_word_span (f : Bool) (n : Nat) : n % 65536 % span f = n % span f := by
  cases f
  · exact Nat.mod_mod _ _
  · exact Nat.mod_mod_of_dvd _ (by decide)

theorem gotAcc_mod (r : Acc) (n : Nat) (s : State) : gotAcc r (n % 65536) s = gotAcc r n s := by
  rw [← gotAcc_span, mod_word_span, gotAcc_span]

theorem gotX_mod (n : Nat) (s : State) : gotX (n % 65536) s = gotX n s := by
  rw [← gotX_span, mod_word_span, gotX_span]

theorem gotY_mod (n : Nat) (s : State) : gotY (n % 65536) s = gotY n s := by
  rw [← gotY_span, mod_word_span, gotY_span]

/-! ## Stores -/

theorem viewAfter_append (s : State) (c d : List (Addr × Byte)) :
    viewAfter s (c ++ d) =
      d.foldl (fun f e a => if a = e.1 ∧ mapKind s e.1 = .ram then e.2 else f a) (viewAfter s c) := by
  simp only [viewAfter, List.foldl_append]

/-- A store to bytes outside `cells` is what `cells` leave alone. -/
theorem viewAfter_other (s : State) (a : Addr) :
    ∀ (cells : List (Addr × Byte)) (f : Addr → Byte), a ∉ cells.map Prod.fst →
      cells.foldl (fun f c a => if a = c.1 ∧ mapKind s c.1 = .ram then c.2 else f a) f a = f a
  | [], _, _ => rfl
  | c :: rest, f, h => by
    simp only [List.map_cons, List.mem_cons, not_or] at h
    rw [List.foldl_cons, viewAfter_other s a rest _ h.2]
    simp [h.1]

/-- What makes one state's memory the memory of another after stores. -/
theorem stores_of_view {cells : List (Addr × Byte)} {s u t : State}
    (ht : t = u.memoryOf t)
    (hv : ∀ a, busRead t a = viewAfter s cells a) (hio : t.ioOut = ioAfterAll s cells) :
    Stores cells s u t :=
  ⟨ht, hv, fun a ha => (hv a).trans (viewAfter_other s a cells _ ha), hio⟩

theorem stores_nil (s : State) : Stores [] s s s := stores_of_view rfl (fun _ => rfl) rfl

/-- One byte written (R9, R76, R81). -/
theorem busWrite_stores {s : State} (hs : Memory.wf s.mem = true) (a : Addr) (v : Byte) :
    Stores [(a, v)] s s (busWrite a v s) := by
  refine stores_of_view rfl (fun b => busRead_busWrite hs a b v) ?_
  show ioAfter a v s = _
  cases h : mapKind s a <;> simp [ioAfter, ioAfterAll, h]

theorem stores_par {c : List (Addr × Byte)} {s u t : State} (h : Stores c s u t) : t.par = u.par := by
  rw [h.1]
  rfl

theorem stores_kind {c : List (Addr × Byte)} {s u t : State} (h : Stores c s u t) (a : Addr) :
    mapKind t a = mapKind u a := by rw [mapKind, stores_par h]; rfl

/-- What stores keep and what they change, field by field. -/
theorem eq_memoryOf {u t : State} (ha : t.a = u.a) (hb : t.b = u.b) (hx : t.x = u.x) (hy : t.y = u.y)
    (hsp : t.sp = u.sp) (hpc : t.pc = u.pc) (hpg : t.pg = u.pg) (hdt : t.dt = u.dt) (hdpr : t.dpr = u.dpr)
    (hps : t.ps = u.ps) (hrun : t.run = u.run) (hpend : t.pending = u.pending)
    (hsch : t.schedule = u.schedule) (hdr : t.draws = u.draws) (hpar : t.par = u.par) :
    t = u.memoryOf t :=
  State.ext ha hb hx hy hsp hpc hpg hdt hdpr hps hrun rfl hpend rfl hsch rfl hdr hpar

theorem memoryOf_memoryOf (s t u : State) : (s.memoryOf t).memoryOf u = s.memoryOf u := rfl

/-- Stores one after another. -/
theorem stores_trans {c d : List (Addr × Byte)} {s t u : State} (h1 : Stores c s s t) (h2 : Stores d t t u) :
    Stores (c ++ d) s s u := by
  have hk : ∀ a, mapKind t a = mapKind s a := stores_kind h1
  refine stores_of_view ?_ (fun a => ?_) ?_
  · calc u = t.memoryOf u := h2.1
      _ = (s.memoryOf t).memoryOf u := congrArg (State.memoryOf · u) h1.1
  · rw [h2.2.1, viewAfter_append, viewAfter]
    have : busRead t = viewAfter s c := funext h1.2.1
    rw [this]
    simp only [hk]
  · rw [h2.2.2.2, ioAfterAll, ioAfterAll, List.foldl_append]
    simp only [hk]
    rw [h1.2.2.2]
    rfl

/-- A datum written at a length (R63, R64, R67). -/
theorem writeData_stores {s : State} (hs : Memory.wf s.mem = true) (f : Bool) (a : Addr) (v : Word) :
    Stores (dataCells f a v.toNat) s s (writeData (widthOf f) a v s) := by
  have e1 : BitVec.ofNat 8 v.toNat = lo8 v := by
    apply BitVec.eq_of_toNat_eq; simp [lo8_toNat]
  have e2 : BitVec.ofNat 8 (v.toNat / 256) = hi8 v := by
    apply BitVec.eq_of_toNat_eq; rw [hi8_toNat, BitVec.toNat_ofNat]; omega
  cases f
  · simp only [dataCells, widthOf, writeData, Bool.false_eq_true, if_false, e1, e2]
    exact stores_trans (busWrite_stores hs a _) (busWrite_stores (busWrite_wf hs a _) _ _)
  · simp only [dataCells, widthOf, writeData, if_true, e1]
    exact busWrite_stores hs a _

/-! ## Pushes -/

theorem pushes_nil (s : State) : Pushes [] s s s :=
  stores_of_view (by simp [State.withSp, State.memoryOf]) (fun _ => rfl) rfl

/-- `Push8` (R14). -/
theorem push8_pushes {s : State} (hs : Memory.wf s.mem = true) (v : Byte) : Pushes [v] s s (push8 v s) := by
  have h := busWrite_stores hs (zx24 s.sp) v
  refine stores_of_view rfl (fun a => ?_) ?_
  · exact h.2.1 a
  · exact h.2.2.2

theorem pushCells_append (c d : List Byte) : ∀ sp : Word,
    pushCells sp (c ++ d) = pushCells sp c ++ pushCells (sp - BitVec.ofNat 16 c.length) d := by
  induction c with
  | nil => intro sp; simp [pushCells]
  | cons b rest ih =>
    intro sp
    simp only [List.cons_append, pushCells, ih, List.length_cons]
    congr 3
    apply BitVec.eq_of_toNat_eq
    simp only [BitVec.toNat_sub, BitVec.toNat_ofNat]
    omega

/-- Pushes one after another. -/
theorem pushes_trans {c d : List Byte} {s t u : State} (h1 : Pushes c s s t) (h2 : Pushes d t t u) :
    Pushes (c ++ d) s s u := by
  have hk : ∀ a, mapKind t a = mapKind s a := fun a => by rw [mapKind, h1.1]; rfl
  have hsp : t.sp = s.sp - BitVec.ofNat 16 c.length := by rw [h1.1]; rfl
  refine stores_of_view ?_ (fun a => ?_) ?_
  · have e : s.sp - BitVec.ofNat 16 c.length - BitVec.ofNat 16 d.length =
        s.sp - BitVec.ofNat 16 (c ++ d).length := by
      apply BitVec.eq_of_toNat_eq
      simp only [BitVec.toNat_sub, BitVec.toNat_ofNat, List.length_append]
      omega
    calc u = (t.withSp (t.sp - BitVec.ofNat 16 d.length)).memoryOf u := h2.1
      _ = (t.withSp (s.sp - BitVec.ofNat 16 (c ++ d).length)).memoryOf u := by rw [hsp, e]
      _ = (((s.withSp _).memoryOf t).withSp _).memoryOf u :=
        congrArg (fun v => (State.withSp _ v).memoryOf u) h1.1
  · rw [h2.2.1, pushCells_append, viewAfter_append, viewAfter, hsp]
    have : busRead t = viewAfter s (pushCells s.sp c) := funext h1.2.1
    rw [this]
    simp only [hk]
  · rw [h2.2.2.2, ioAfterAll, ioAfterAll, pushCells_append, List.foldl_append, hsp]
    simp only [hk]
    rw [h1.2.2.2]
    rfl

/-- `Push16`: high byte first (R14). -/
theorem push16_pushes {s : State} (hs : Memory.wf s.mem = true) (v : Word) :
    Pushes [hi8 v, lo8 v] s s (push16 v s) := by
  have h1 := push8_pushes hs (hi8 v)
  have h2 := push8_pushes (push8_wf hs (hi8 v)) (lo8 v)
  have h := pushes_trans h1 h2
  exact h

theorem pushData_pushes {s : State} (hs : Memory.wf s.mem = true) (f : Bool) (v : Word) :
    Pushes (pushBytes f v) s s (pushData (widthOf f) v s) := by
  cases f
  · exact push16_pushes hs v
  · exact push8_pushes hs _

/-- The five bytes of the entry sequence (R340). -/
theorem pushFrame_pushes {s : State} (hs : Memory.wf s.mem = true) (ret : Addr) :
    Pushes [bankOf ret, hi8 (offOf ret), lo8 (offOf ret), hi8 s.ps.toWord, lo8 s.ps.toWord] s s
      (pushFrame ret s) := by
  have h1 := push8_pushes hs (bankOf ret)
  have w1 := push8_wf hs (bankOf ret)
  have h2 := pushes_trans h1 (push16_pushes w1 (offOf ret))
  have h3 := pushes_trans h2 (push16_pushes (push16_wf w1 (offOf ret)) s.ps.toWord)
  exact h3

/-! ## Pulls -/

theorem peek8_toNat (k : Nat) (s : State) : (peek8 (BitVec.ofNat 16 k) s).toNat = stackByte k s := rfl

theorem peek16_toNat (k : Nat) (s : State) : (peek16 (BitVec.ofNat 16 k) s).toNat = stackWord k s := by
  have : BitVec.ofNat 16 k + 1#16 = BitVec.ofNat 16 (k + 1) := by
    apply BitVec.eq_of_toNat_eq; simp
  rw [peek16, mkWord_toNat, this, peek8_toNat, peek8_toNat, stackWord]
  omega

theorem peek16_eq (k : Nat) (s : State) : peek16 (BitVec.ofNat 16 k) s = BitVec.ofNat 16 (stackWord k s) := by
  apply BitVec.eq_of_toNat_eq
  have h := (peek16 (BitVec.ofNat 16 k) s).isLt
  rw [peek16_toNat] at h ⊢
  rw [BitVec.toNat_ofNat, Nat.mod_eq_of_lt h]

theorem peek8_eq (k : Nat) (s : State) : peek8 (BitVec.ofNat 16 k) s = BitVec.ofNat 8 (stackByte k s) := by
  apply BitVec.eq_of_toNat_eq
  have h := (peek8 (BitVec.ofNat 16 k) s).isLt
  rw [peek8_toNat] at h ⊢
  rw [BitVec.toNat_ofNat, Nat.mod_eq_of_lt h]

/-- What a pull at a length returns agrees with the word above S in the bits of the length. -/
theorem peekData_span (f : Bool) (s : State) :
    (peekData (widthOf f) s).toNat % span f = stackWord 1 s % span f := by
  cases f
  · exact congrArg (· % 65536) (peek16_toNat 1 s)
  · show (zx8 (peek8 (BitVec.ofNat 16 1) s)).toNat % 256 = _ % 256
    rw [zx8_toNat, peek8_toNat, stackWord]
    omega

/-! ## Memory as words -/

theorem readWord_toNat (s : State) (a : Addr) : (readWord s a).toNat = wordAt a.toNat s := by
  rw [readWord, mkWord_toNat, wordAt]
  have h1 : BitVec.ofNat 24 a.toNat = a := by apply BitVec.eq_of_toNat_eq; simp
  have h2 : BitVec.ofNat 24 (a.toNat + 1) = a + 1#24 := by apply BitVec.eq_of_toNat_eq; simp
  rw [h1, h2]
  omega

theorem readAddr_toNat (s : State) (a : Addr) :
    (readAddr s a).toNat =
      wordAt a.toNat s + 65536 * (busRead s (BitVec.ofNat 24 (a.toNat + 2))).toNat := by
  have h : (readAddr s a).toNat = (busRead s (a + 2#24)).toNat * 65536 + (readWord s a).toNat := by
    rw [readAddr, mkAddr_toNat]; rfl
  have h2 : BitVec.ofNat 24 (a.toNat + 2) = a + 2#24 := by apply BitVec.eq_of_toNat_eq; simp
  rw [h, readWord_toNat, h2]
  omega

/-! ## Control transfers -/

theorem jumpTo_eq (p : Addr) (s : State) : jumpTo p s = goTo p.toNat s := by
  have h1 : bankOf p = BitVec.ofNat 8 (p.toNat / 65536) := by
    apply BitVec.eq_of_toNat_eq; rw [bankOf_toNat, BitVec.toNat_ofNat]; omega
  have h2 : offOf p = BitVec.ofNat 16 p.toNat := by
    apply BitVec.eq_of_toNat_eq; rw [offOf_toNat, BitVec.toNat_ofNat]
  rw [jumpTo, goTo, h1, h2]

theorem add_signed_toNat (p d : Addr) : ((p + d).toNat : Int) = ((p.toNat : Int) + d.toInt) % 2 ^ 24 := by
  rw [BitVec.toNat_add, BitVec.toInt_eq_toNat_cond]
  split <;> push_cast <;> omega

theorem sx8_toInt (b : Byte) : (sx8 b).toInt = b.toInt := BitVec.toInt_signExtend_of_le (by decide)

theorem sx16_toInt (w : Word) : (sx16 w).toInt = w.toInt := BitVec.toInt_signExtend_of_le (by decide)

/-- A relative branch by a displacement extended to 24 bits (R290). -/
theorem branchIf_eq (taken : Bool) (d : Addr) (s : State) : branchIf taken d s = branched taken d.toInt s := by
  cases taken
  · rfl
  · simp only [branchIf, branched, if_true, jumpTo_eq]
    congr 1
    have := add_signed_toNat s.pc24 d
    omega

/-! ## The entry sequence -/

/-- What the entry sequence does once the frame is on the stack (R340). -/
theorem entered_of_frame {ret : Addr} {s f : State} (vector : Word) (l : BitVec 3)
    (h : Pushes [bankOf ret, hi8 (offOf ret), lo8 (offOf ret), hi8 s.ps.toWord, lo8 s.ps.toWord] s s f) :
    let u := { f with ps := { s.ps with i := true, ipl := l }, run := RunState.running }
    Entered ret vector l s (jumpTo (mkAddr 0#8 (readVector u vector)) u) := by
  intro u
  have hu : ∀ a, busRead (jumpTo (mkAddr 0#8 (readVector u vector)) u) a = busRead f a :=
    fun a => busRead_congr rfl rfl rfl a
  have hv : readVector u vector = mkWord (busRead f (zx24 (vector + 1#16))) (busRead f (zx24 vector)) := by
    rw [readVector, busRead_congr (t := u) (s := f) rfl rfl rfl, busRead_congr (t := u) (s := f) rfl rfl rfl]
  refine ⟨stores_of_view ?_ (fun a => (hu a).trans (h.2.1 a)) h.2.2.2, rfl⟩
  rw [hu, hu, ← hv]
  generalize readVector u vector = w
  have e := h.1
  refine eq_memoryOf ?_ ?_ ?_ ?_ ?_ (offOf_mkAddr 0#8 w) (bankOf_mkAddr 0#8 w) ?_ ?_ rfl rfl ?_ ?_ ?_ ?_
  · exact (congrArg State.a e :)
  · exact (congrArg State.b e :)
  · exact (congrArg State.x e :)
  · exact (congrArg State.y e :)
  · exact (congrArg State.sp e :)
  · exact (congrArg State.dt e :)
  · exact (congrArg State.dpr e :)
  · exact (congrArg State.pending e :)
  · exact (congrArg State.schedule e :)
  · exact (congrArg State.draws e :)
  · exact (congrArg State.par e :)

/-- Taking an exception (R340). -/
theorem enterException_entered {s : State} (hs : Memory.wf s.mem = true) (ret : Addr) (vector : Word)
    (ipl : Option (BitVec 3)) :
    Entered ret vector (ipl.getD s.ps.ipl) s (enterException ret vector ipl s) := by
  have h := pushFrame_pushes hs ret
  unfold enterException
  generalize pushFrame ret s = f at h ⊢
  have hps : f.ps = s.ps := (congrArg State.ps h.1 :)
  dsimp only
  rw [hps]
  exact entered_of_frame vector (ipl.getD s.ps.ipl) h

/-! ## Block transfers (R196, R197) -/

/-- What is where, and what can be read, after the first `n` transfers of a block. -/
theorem moveBytes_view (src dst : Nat → Addr) {s : State} (hs : Memory.wf s.mem = true) :
    ∀ (n : Nat) (a : Addr), busRead (moveBytes src dst n s) a = blockView s src dst n a
  | 0, _ => rfl
  | n + 1, a => by
    have hk : mapKind (moveBytes src dst n s) (dst n) = mapKind s (dst n) := by
      unfold mapKind
      rw [moveBytes_par]
    rw [moveBytes, busRead_busWrite (moveBytes_wf src dst n hs), hk, blockView,
      moveBytes_view src dst hs n, moveBytes_view src dst hs n]

/-- What the first `n` transfers of a block send to I/O. -/
theorem moveBytes_ioOut (src dst : Nat → Addr) {s : State} (hs : Memory.wf s.mem = true) :
    ∀ n : Nat, (moveBytes src dst n s).ioOut = ioAfterAll s (blockCells s src dst n)
  | 0 => rfl
  | n + 1 => by
    have hk : mapKind (moveBytes src dst n s) (dst n) = mapKind s (dst n) := by
      unfold mapKind
      rw [moveBytes_par]
    have hv := moveBytes_view src dst hs n (src n)
    have ih := moveBytes_ioOut src dst hs n
    show ioAfter (dst n) _ (moveBytes src dst n s) = _
    have hc : blockCells s src dst (n + 1) =
        blockCells s src dst n ++ [(dst n, blockView s src dst n (src n))] := by
      simp [blockCells, List.range_succ]
    rw [ioAfter, hk, ih, hv, hc, ioAfterAll, ioAfterAll, List.foldl_append]
    cases h : mapKind s (dst n) <;> simp [h]

/-! ## The set of pending requests (R52, R335) -/

@[simp] theorem mem_addRequest {l : List Request} {r q : Request} :
    q ∈ addRequest l r ↔ q ∈ l ∨ q = r := by
  unfold addRequest
  split
  · exact ⟨.inl, fun h => h.elim id fun e => e ▸ ‹r ∈ l›⟩
  · simp

theorem addRequest_nodup {l : List Request} {r : Request} (h : l.Nodup) : (addRequest l r).Nodup := by
  unfold addRequest
  split
  · exact h
  · rename_i hr
    exact List.nodup_append.2 ⟨h, List.nodup_singleton r, fun a ha b hb e =>
      hr (by rw [← List.mem_singleton.1 hb, ← e]; exact ha)⟩

@[simp] theorem mem_removeRequest {l : List Request} {r q : Request} :
    q ∈ removeRequest l r ↔ q ∈ l ∧ q ≠ r := by
  simp [removeRequest]

theorem removeRequest_nodup {l : List Request} {r : Request} (h : l.Nodup) : (removeRequest l r).Nodup :=
  h.filter _

theorem mem_foldl_addRequest : ∀ {p l : List Request} {q : Request},
    q ∈ p.foldl addRequest l ↔ q ∈ l ∨ q ∈ p
  | [], _, _ => by simp
  | r :: p, l, q => by rw [List.foldl_cons, mem_foldl_addRequest, mem_addRequest, List.mem_cons, or_assoc]

theorem foldl_addRequest_nodup : ∀ (p : List Request) {l : List Request}, l.Nodup →
    (p.foldl addRequest l).Nodup
  | [], _, h => h
  | _ :: p, _, h => foldl_addRequest_nodup p (addRequest_nodup h)

end Sys2Proof.Laws
end

