-- ==== Sys2Proof/Laws/Operands.lean ====
section
/-! SUPPORT. What the operand forms read and where they lie, as numbers, and what a read-modify-write
leaves. -/

namespace Sys2Proof.Laws

open Sys2Proof.Machine

/-! ## Base addresses and pointers -/

/-- A 24-bit address is the one of its number. -/
theorem ofNat_toNat_addr (a : Addr) : BitVec.ofNat 24 a.toNat = a := by apply BitVec.eq_of_toNat_eq; simp

/-- `D0` never wraps: it may leave bank 0 (R149). -/
theorem directBase_toNat (d : Byte) (s : State) : (directBase d s).toNat = s.dpr.toNat + d.toNat := by
  rw [directBase, BitVec.toNat_add, zx24_toNat, off8_toNat]; omega

/-- The stack-relative base never wraps (R145). -/
theorem stackBase_toNat (d : Byte) (s : State) : (stackBase d s).toNat = s.sp.toNat + d.toNat := by
  rw [stackBase, BitVec.toNat_add, zx24_toNat, off8_toNat]; omega

/-- A jump to an offset of a bank. -/
theorem jumpTo_mkAddr (b : Byte) (o : Word) (s : State) :
    jumpTo (mkAddr b o) s = goTo (b.toNat * 65536 + o.toNat) s := by
  rw [jumpTo_eq, mkAddr_toNat]

/-- The pointer of (ABS,X), modulo 2^24 (R140). -/
theorem indexedPointer_mod (w : Word) (s : State) :
    (indexedPointer w s).toNat % 2 ^ 24 =
      (if s.par.indexWraps then
        (jumpBank s.par.bankX s).toNat * 65536 + (w.toNat + low s.ps.x s.x) % 65536
      else (jumpBank s.par.bankX s).toNat * 65536 + (w.toNat + low s.ps.x s.x)) % 2 ^ 24 := by
  rw [indexedPointer]
  simp only [apply_ite BitVec.toNat]
  split
  · rw [mkAddr_toNat, BitVec.toNat_add, readX_toNat]
  · rw [BitVec.toNat_add, mkAddr_toNat, zx24_toNat, readX_toNat]; omega

/-- A word is read modulo 2^24. -/
theorem wordAt_congr {p q : Nat} (h : p % 2 ^ 24 = q % 2 ^ 24) (s : State) : wordAt p s = wordAt q s := by
  have h1 : BitVec.ofNat 24 p = BitVec.ofNat 24 q := by apply BitVec.eq_of_toNat_eq; simpa using h
  have h2 : BitVec.ofNat 24 (p+1) = BitVec.ofNat 24 (q+1) := by apply BitVec.eq_of_toNat_eq; simp; omega
  rw [wordAt, wordAt, h1, h2]

/-! ## What fits a length -/

/-- What a memory form reads fits the length. -/
theorem memNum_lt (f : Bool) (op : Mem) (s : State) : memNum f op s < span f := by
  rw [memNum, span]
  cases f
  · exact BitVec.isLt _
  · show (zx8 _).toNat < _; rw [zx8_toNat]; exact BitVec.isLt _

/-- What an operand form reads fits the length. -/
theorem opNum_lt (f : Bool) (op : Operand) (s : State) : opNum f op s < span f := by
  cases op with
  | imm v => rw [opNum, opRead, trunc_toNat]; cases f <;> exact Nat.mod_lt _ (by decide)
  | mem k => exact memNum_lt f k s

/-- What a read-modify-write form reads fits the length. -/
theorem targetNum_lt (tg : Target) (s : State) : targetNum tg s < span s.ps.m := by
  cases tg with
  | acc r => rw [targetNum, targetRead, accRead_toNat]; exact low_lt _ _
  | mem k => exact memNum_lt _ _ _

/-- Reducing modulo 65536 first changes no flag. -/
theorem withNZ_mod (f : Bool) (n : Nat) (p : Psr) : withNZ f (n % 65536) p = withNZ f n p := by
  rw [← withNZ_span, mod_word_span, withNZ_span]

/-- The bytes of a datum depend on its low bits alone. -/
theorem dataCells_span (f : Bool) (a : Addr) (n : Nat) : dataCells f a (n % span f) = dataCells f a n := by
  cases f
  · simp only [dataCells, span]
    have e1 : BitVec.ofNat 8 (n % 65536) = BitVec.ofNat 8 n := by
      apply BitVec.eq_of_toNat_eq; simp
    have e2 : BitVec.ofNat 8 (n % 65536 / 256) = BitVec.ofNat 8 (n / 256) := by
      apply BitVec.eq_of_toNat_eq; simp; omega
    simp [e1, e2]
  · simp only [dataCells, span]
    have e1 : BitVec.ofNat 8 (n % 256) = BitVec.ofNat 8 n := by
      apply BitVec.eq_of_toNat_eq; simp
    simp [e1]

/-! ## Read-modify-write -/

/-- What writing a read-modify-write target leaves, with any status (R160). -/
theorem targetWrite_modified {s : State} (hs : Memory.wf s.mem = true) (tg : Target) (v : Word)
    (n : Nat) (p : Psr) (h : v.toNat % span s.ps.m = n % span s.ps.m) :
    Modified tg n p s { targetWrite tg v s with ps := p } := by
  cases tg with
  | acc r =>
    simp only [Modified, targetWrite, accWrite_eq]
    rw [← withAcc_span r n, ← h, withAcc_span]
  | mem k =>
    simp only [Modified, targetWrite]
    have hw := writeData_stores hs s.ps.m (effAddr k s) v
    rw [← dataCells_span, h, dataCells_span] at hw
    refine stores_of_view ?_ (fun a => hw.2.1 a) hw.2.2.2
    have e := hw.1
    exact eq_memoryOf (congrArg State.a e :) (congrArg State.b e :) (congrArg State.x e :)
      (congrArg State.y e :) (congrArg State.sp e :) (congrArg State.pc e :) (congrArg State.pg e :)
      (congrArg State.dt e :) (congrArg State.dpr e :) rfl (congrArg State.run e :)
      (congrArg State.pending e :) (congrArg State.schedule e :) (congrArg State.draws e :)
      (congrArg State.par e :)

end Sys2Proof.Laws
end

