-- ==== Sys2Proof/Laws/Flags.lean ====
section
/-! SUPPORT. What the flag and result computations of the arithmetic rules give, as numbers. -/

namespace Sys2Proof.Laws

open Sys2Proof.Machine

/-! ## Binary arithmetic and comparison -/

/-- The top bit of a value that fits the length. -/
theorem top_eq (f : Bool) (v : Word) (h : v.toNat < span f) :
    (widthOf f).top v = decide (span f ≤ 2 * v.toNat) := by
  have := congrArg Psr.n (setNZ_eq Psr.reset f v)
  simpa [Psr.setNZ, withNZ, Nat.mod_eq_of_lt h] using this

/-- A difference modulo the span, as an integer and as a natural number. -/
theorem sub_mod (f : Bool) (a b : Nat) (ha : a < span f) (hb : b < span f) :
    (((a : Int) - b) % (span f : Nat)).toNat = (a + span f - b) % span f := by
  cases f <;> simp only [span] at * <;> simp at * <;> omega

/-- The flags of a comparison (R253 to R255). -/
theorem compare_eq (p : Psr) (f : Bool) (a b : Word) (ha : a.toNat < span f) (hb : b.toNat < span f) :
    p.compare (widthOf f) a b =
      { withNZ f (a.toNat + span f - b.toNat) p with c := decide (b.toNat ≤ a.toNat) } := by
  simp only [Psr.compare, setNZ_eq, narrow_toNat, ← span_eq, sub_mod f _ _ ha hb, withNZ_span]

/-- The overflow of a binary addition: by the signs, and by the range (R231). -/
theorem adc_v (f : Bool) (a b : Nat) (c : Bool) (ha : a < span f) (hb : b < span f) :
    (((decide (span f ≤ 2 * a)) == (decide (span f ≤ 2 * b))) &&
      (decide (span f ≤ 2 * ((a + b + c.toNat) % span f))) != decide (span f ≤ 2 * a)) =
    !(decide (-(span f : Int) ≤ 2 * (signed f a + signed f b + c.toNat) ∧
      2 * (signed f a + signed f b + c.toNat) < span f)) := by
  have hc : c.toNat ≤ 1 := Bool.toNat_le c
  generalize c.toNat = c at *
  rw [Bool.eq_iff_iff]
  cases f <;> simp only [span, signed] at * <;> simp at * <;> split <;> split <;> omega

/-- Binary addition: the flags and the result (R231). -/
theorem adcBinary_eq (f : Bool) (a b : Word) (c : Bool) (ha : a.toNat < span f) (hb : b.toNat < span f) :
    let sum := a.toNat + b.toNat + c.toNat
    let fits : Int → Bool := fun n => decide (-(span f : Int) ≤ 2 * n ∧ 2 * n < span f)
    ∀ p : Psr, p.setArith (adcBinary (widthOf f) a b c) = { withNZ f sum p with
      v := !fits (signed f a.toNat + signed f b.toNat + c.toNat)
      c := decide (span f ≤ sum) } ∧
     (adcBinary (widthOf f) a b c).r.toNat = sum % span f := by
  intro sum fits p
  have hr : ((widthOf f).narrow sum).toNat = sum % span f := by rw [narrow_toNat, ← span_eq]
  have hl : ((widthOf f).narrow sum).toNat < span f := by rw [hr]; exact Nat.mod_lt _ (span_pos f)
  refine ⟨?_, hr⟩
  simp only [Psr.setArith, adcBinary, withNZ]
  rw [top_eq f _ hl, top_eq f a ha, top_eq f b hb, hr, beq_zero_eq, hr, adc_v f _ _ c ha hb, ← span_eq]

/-- The overflow of a binary subtraction: by the signs, and by the range (R232). -/
theorem sbc_v (f : Bool) (a b : Nat) (c : Bool) (ha : a < span f) (hb : b < span f) :
    (((decide (span f ≤ 2 * a)) != (decide (span f ≤ 2 * b))) &&
      (decide (span f ≤ 2 * ((a + span f - b - (1 - c.toNat)) % span f))) !=
        decide (span f ≤ 2 * a)) =
    !(decide (-(span f : Int) ≤ 2 * (signed f a - signed f b - (1 - (c.toNat : Int))) ∧
      2 * (signed f a - signed f b - (1 - (c.toNat : Int))) < span f)) := by
  have hc : c.toNat ≤ 1 := Bool.toNat_le c
  generalize c.toNat = c at *
  rw [Bool.eq_iff_iff]
  cases f <;> simp only [span, signed] at * <;> simp at * <;> split <;> split <;> omega

/-- Binary subtraction: the flags and the result (R232). -/
theorem sbcBinary_eq (f : Bool) (a b : Word) (c : Bool) (ha : a.toNat < span f) (hb : b.toNat < span f) :
    let dif := a.toNat + span f - b.toNat - (1 - c.toNat)
    let fits : Int → Bool := fun n => decide (-(span f : Int) ≤ 2 * n ∧ 2 * n < span f)
    ∀ p : Psr, p.setArith (sbcBinary (widthOf f) a b c) = { withNZ f dif p with
      v := !fits (signed f a.toNat - signed f b.toNat - (1 - (c.toNat : Int)))
      c := decide (b.toNat + (1 - c.toNat) ≤ a.toNat) } ∧
     (sbcBinary (widthOf f) a b c).r.toNat = dif % span f := by
  intro dif fits p
  have hc : c.toNat ≤ 1 := Bool.toNat_le c
  have hr : ((widthOf f).narrow (((a.toNat : Int) - (b.toNat : Int) - (1 - (c.toNat : Int))) %
      (2 ^ (widthOf f).bits : Nat)).toNat).toNat = dif % span f := by
    rw [narrow_toNat, ← span_eq]
    simp only [dif]
    cases f <;> simp only [span] at * <;> simp at * <;> omega
  have hl := Nat.mod_lt dif (span_pos f)
  rw [← hr] at hl
  refine ⟨?_, hr⟩
  simp only [Psr.setArith, sbcBinary, withNZ]
  rw [top_eq f _ hl, top_eq f a ha, top_eq f b hb, hr, beq_zero_eq, hr, sbc_v f _ _ c ha hb]
  congr 1
  rw [Bool.eq_iff_iff]; simp; omega

/-! ## Packed BCD -/

/-- A word by its four nibbles. -/
theorem toNat_digits (v : Word) :
    v.toNat = digit v 0 + 16 * digit v 1 + 256 * digit v 2 + 4096 * digit v 3 := by
  simp [digit]; omega

/-- The packed-BCD representation as a number (R233). -/
theorem natToBcd_toNat (n : Nat) :
    (natToBcd n).toNat =
      n % 10 + 16 * (n / 10 % 10) + 256 * (n / 100 % 10) + 4096 * (n / 1000 % 10) := by
  rw [natToBcd, BitVec.toNat_ofNat]; omega

/-- The nibbles of a packed-BCD representation are the decimal toNat_digits. -/
theorem digit_natToBcd (n : Nat) :
    digit (natToBcd n) 0 = n % 10 ∧ digit (natToBcd n) 1 = n / 10 % 10 ∧
    digit (natToBcd n) 2 = n / 100 % 10 ∧ digit (natToBcd n) 3 = n / 1000 % 10 := by
  simp only [digit, natToBcd_toNat]
  have h0 := Nat.mod_lt n (y := 10) (by decide)
  have h1 := Nat.mod_lt (n/10) (y := 10) (by decide)
  have h2 := Nat.mod_lt (n/100) (y := 10) (by decide)
  have h3 := Nat.mod_lt (n/1000) (y := 10) (by decide)
  generalize n % 10 = a at *
  generalize n / 10 % 10 = b at *
  generalize n / 100 % 10 = c at *
  generalize n / 1000 % 10 = d at *
  simp; omega

/-- A packed-BCD representation has decimal toNat_digits only. -/
theorem bcdOk_natToBcd (n : Nat) : bcdOk (natToBcd n) = true := by
  have ⟨h0, h1, h2, h3⟩ := digit_natToBcd n
  simp only [bcdOk, h0, h1, h2, h3]; simp; omega

/-- `dec(bcd(n)) = n` below 10000 (R233). -/
theorem bcdToNat_natToBcd (n : Nat) (h : n < 10000) : bcdToNat (natToBcd n) = n := by
  have ⟨h0, h1, h2, h3⟩ := digit_natToBcd n
  simp only [bcdToNat, h0, h1, h2, h3]; omega

/-- Below `10^K` a packed-BCD representation fits the length. -/
theorem natToBcd_low (f : Bool) (n : Nat) (h : n < Width.decLimit (widthOf f)) :
    (natToBcd n).toNat < span f := by
  rw [natToBcd_toNat]; cases f <;> simp [widthOf, Width.decLimit, span] at * <;> omega

/-- A decimal operand of a length is below `10^K`. -/
theorem bcd_lt (f : Bool) (v : Word) (h : v.toNat < span f) (hk : bcdOk v = true) :
    bcdToNat v < Width.decLimit (widthOf f) := by
  have := toNat_digits v
  simp only [bcdOk, Bool.and_eq_true, decide_eq_true_eq] at hk
  simp only [bcdToNat]
  cases f <;> simp [widthOf, Width.decLimit, span] at * <;> omega

end Sys2Proof.Laws
end

