-- ==== Sys2Proof/Laws/PerInstr.lean ====
section
/-! SUPPORT. The family `EncodeLength`: the encoding of a well-formed instruction is 1 to 6 bytes long, an
instruction of 30_encoding.md R92. One lemma per constructor of `Instr`. -/

namespace Sys2Proof.Laws

theorem lead_length (r : Acc) : r.lead.length ≤ 1 := by cases r <;> decide

theorem wordBytes_length (v : Word) : (wordBytes v).length = 2 := rfl

theorem addrBytes_length (a : Addr) : (addrBytes a).length = 3 := rfl

theorem immBytes_length (f : Bool) (v : Word) : (immBytes f v).length ≤ 2 := by
  cases f
  · exact Nat.le_refl 2
  · exact Nat.le_succ 1

theorem memBytes_length (k : Mem) : k.bytes.length ≤ 3 := by cases k <;> simp [Mem.bytes, wordBytes, addrBytes]

/-- The modes of CLB, SEB, BBC and BBS have at most two operand bytes. -/
theorem memBytes_length_plain (k : Mem) (h : k.isPlainX = true) : k.bytes.length ≤ 2 := by
  cases k <;> simp_all [Mem.bytes, Mem.isPlainX, wordBytes]

theorem isPlainX_of_isPlain (k : Mem) (h : k.isPlain = true) : k.isPlainX = true := by
  cases k <;> simp_all [Mem.isPlain, Mem.isPlainX]

theorem memForm_length (b : Byte) (k : Mem) : 1 ≤ (memForm b k).length ∧ (memForm b k).length ≤ 4 := by
  have := memBytes_length k
  simp only [memForm, List.length_cons]
  omega

theorem opForm_length (m : Bool) (b : Byte) (op : Operand) :
    1 ≤ (opForm m b op).length ∧ (opForm m b op).length ≤ 4 := by
  cases op with
  | imm v =>
    have := immBytes_length m v
    simp only [opForm, List.length_cons]
    omega
  | mem k => exact memForm_length b k

theorem targetForm_length (b1 b2 b3 b4 b5 : Byte) (t : Target) :
    1 ≤ (targetForm b1 b2 b3 b4 b5 t).length ∧ (targetForm b1 b2 b3 b4 b5 t).length ≤ 4 := by
  cases t with
  | acc r =>
    have := lead_length r
    simp only [targetForm, List.length_append, List.length_cons, List.length_nil]
    omega
  | mem k =>
    have := memBytes_length k
    simp only [targetForm, List.length_cons]
    omega

theorem indexForm_length (x : Bool) (b1 b2 b3 b4 b5 b6 b7 : Byte) (op : Operand) :
    1 ≤ (indexForm x b1 b2 b3 b4 b5 b6 b7 op).length ∧ (indexForm x b1 b2 b3 b4 b5 b6 b7 op).length ≤ 4 := by
  cases op with
  | imm v =>
    have := immBytes_length x v
    simp only [indexForm, List.length_cons]
    omega
  | mem k =>
    have := memBytes_length k
    simp only [indexForm, List.length_cons]
    omega

/-- A prefix of an accumulator in front of a form. -/
theorem lead_append_length (r : Acc) (l : List Byte) (h : 1 ≤ l.length ∧ l.length ≤ 4) :
    1 ≤ (r.lead ++ l).length ∧ (r.lead ++ l).length ≤ 6 := by
  have := lead_length r
  rw [List.length_append]
  omega

/-- The prefix byte 89h in front of a form. -/
theorem cons_length (b : Byte) (l : List Byte) (h : 1 ≤ l.length ∧ l.length ≤ 4) :
    1 ≤ (b :: l).length ∧ (b :: l).length ≤ 6 := by
  rw [List.length_cons]
  omega

/-- A form without a prefix. -/
theorem form_length {l : List Byte} (h : 1 ≤ l.length ∧ l.length ≤ 4) : 1 ≤ l.length ∧ l.length ≤ 6 :=
  ⟨h.1, Nat.le_trans h.2 (by decide)⟩

/-- An opcode and the bytes of a memory operand. -/
theorem op_mem_length (b : Byte) (k : Mem) : 1 ≤ (b :: k.bytes).length ∧ (b :: k.bytes).length ≤ 4 := by
  have := memBytes_length k
  rw [List.length_cons]
  omega

/-- An opcode, the bytes of a memory operand and an immediate. -/
theorem op_mem_imm_length (b : Byte) (k : Mem) (m : Bool) (v : Word) :
    1 ≤ (b :: (k.bytes ++ immBytes m v)).length ∧ (b :: (k.bytes ++ immBytes m v)).length ≤ 6 := by
  have h1 := memBytes_length k
  have h2 := immBytes_length m v
  rw [List.length_cons, List.length_append]
  omega

/-- An opcode, the bytes of DIR or ABS, an immediate and a displacement. -/
theorem op_mem_imm_rel_length (b : Byte) (k : Mem) (m : Bool) (v : Word) (rr : Byte)
    (h : k.isPlain = true) :
    1 ≤ (b :: (k.bytes ++ immBytes m v ++ [rr])).length ∧
      (b :: (k.bytes ++ immBytes m v ++ [rr])).length ≤ 6 := by
  have h1 := memBytes_length_plain k (isPlainX_of_isPlain k h)
  have h2 := immBytes_length m v
  rw [List.length_cons, List.length_append, List.length_append, List.length_singleton]
  omega

/-- R92: the lengths of the layouts run from 1 to 6 bytes. -/
def EncodeLength.Statement (i : Instr) : Prop :=
  ∀ m x : Bool, i.wellFormed m x = true → 1 ≤ (encode m x i).length ∧ (encode m x i).length ≤ 6

namespace EncodeLength

theorem lda (r : Acc) (op : Operand) : Statement (.lda r op) :=
  fun m _ _ => lead_append_length r _ (opForm_length m _ op)

theorem ldal (r : Acc) (k : Mem) : Statement (.ldal r k) :=
  fun _ _ _ => lead_append_length r _ (memForm_length _ k)

theorem ldm (k : Mem) (imm : Word) : Statement (.ldm k imm) := fun m _ _ => op_mem_imm_length _ k m imm

theorem ldt (imm : Byte) : Statement (.ldt imm) :=
  fun _ _ _ => ⟨Nat.le_of_ble_eq_true rfl, Nat.le_of_ble_eq_true rfl⟩

theorem ldx (op : Operand) : Statement (.ldx op) :=
  fun _ x _ => form_length (indexForm_length x _ _ _ _ _ _ _ op)

theorem ldy (op : Operand) : Statement (.ldy op) :=
  fun _ x _ => form_length (indexForm_length x _ _ _ _ _ _ _ op)

theorem sta (r : Acc) (k : Mem) : Statement (.sta r k) :=
  fun _ _ _ => lead_append_length r _ (memForm_length _ k)

theorem stal (r : Acc) (k : Mem) : Statement (.stal r k) :=
  fun _ _ _ => lead_append_length r _ (memForm_length _ k)

theorem stx (k : Mem) : Statement (.stx k) := fun _ _ _ => form_length (op_mem_length _ k)

theorem sty (k : Mem) : Statement (.sty k) := fun _ _ _ => form_length (op_mem_length _ k)

theorem tad : Statement (.tad) := fun _ _ _ => ⟨Nat.le_of_ble_eq_true rfl, Nat.le_of_ble_eq_true rfl⟩

theorem tas : Statement (.tas) := fun _ _ _ => ⟨Nat.le_of_ble_eq_true rfl, Nat.le_of_ble_eq_true rfl⟩

theorem tax : Statement (.tax) := fun _ _ _ => ⟨Nat.le_of_ble_eq_true rfl, Nat.le_of_ble_eq_true rfl⟩

theorem tay : Statement (.tay) := fun _ _ _ => ⟨Nat.le_of_ble_eq_true rfl, Nat.le_of_ble_eq_true rfl⟩

theorem tbd : Statement (.tbd) := fun _ _ _ => ⟨Nat.le_of_ble_eq_true rfl, Nat.le_of_ble_eq_true rfl⟩

theorem tbs : Statement (.tbs) := fun _ _ _ => ⟨Nat.le_of_ble_eq_true rfl, Nat.le_of_ble_eq_true rfl⟩

theorem tbx : Statement (.tbx) := fun _ _ _ => ⟨Nat.le_of_ble_eq_true rfl, Nat.le_of_ble_eq_true rfl⟩

theorem tby : Statement (.tby) := fun _ _ _ => ⟨Nat.le_of_ble_eq_true rfl, Nat.le_of_ble_eq_true rfl⟩

theorem tda : Statement (.tda) := fun _ _ _ => ⟨Nat.le_of_ble_eq_true rfl, Nat.le_of_ble_eq_true rfl⟩

theorem tdb : Statement (.tdb) := fun _ _ _ => ⟨Nat.le_of_ble_eq_true rfl, Nat.le_of_ble_eq_true rfl⟩

theorem tsa : Statement (.tsa) := fun _ _ _ => ⟨Nat.le_of_ble_eq_true rfl, Nat.le_of_ble_eq_true rfl⟩

theorem tsb : Statement (.tsb) := fun _ _ _ => ⟨Nat.le_of_ble_eq_true rfl, Nat.le_of_ble_eq_true rfl⟩

theorem tsx : Statement (.tsx) := fun _ _ _ => ⟨Nat.le_of_ble_eq_true rfl, Nat.le_of_ble_eq_true rfl⟩

theorem txa : Statement (.txa) := fun _ _ _ => ⟨Nat.le_of_ble_eq_true rfl, Nat.le_of_ble_eq_true rfl⟩

theorem txb : Statement (.txb) := fun _ _ _ => ⟨Nat.le_of_ble_eq_true rfl, Nat.le_of_ble_eq_true rfl⟩

theorem txs : Statement (.txs) := fun _ _ _ => ⟨Nat.le_of_ble_eq_true rfl, Nat.le_of_ble_eq_true rfl⟩

theorem txy : Statement (.txy) := fun _ _ _ => ⟨Nat.le_of_ble_eq_true rfl, Nat.le_of_ble_eq_true rfl⟩

theorem tya : Statement (.tya) := fun _ _ _ => ⟨Nat.le_of_ble_eq_true rfl, Nat.le_of_ble_eq_true rfl⟩

theorem tyb : Statement (.tyb) := fun _ _ _ => ⟨Nat.le_of_ble_eq_true rfl, Nat.le_of_ble_eq_true rfl⟩

theorem tyx : Statement (.tyx) := fun _ _ _ => ⟨Nat.le_of_ble_eq_true rfl, Nat.le_of_ble_eq_true rfl⟩

theorem xab : Statement (.xab) := fun _ _ _ => ⟨Nat.le_of_ble_eq_true rfl, Nat.le_of_ble_eq_true rfl⟩

theorem mvn (n1 : Byte) (n2 : Byte) : Statement (.mvn n1 n2) :=
  fun _ _ _ => ⟨Nat.le_of_ble_eq_true rfl, Nat.le_of_ble_eq_true rfl⟩

theorem mvp (n1 : Byte) (n2 : Byte) : Statement (.mvp n1 n2) :=
  fun _ _ _ => ⟨Nat.le_of_ble_eq_true rfl, Nat.le_of_ble_eq_true rfl⟩

theorem pha : Statement (.pha) := fun _ _ _ => ⟨Nat.le_of_ble_eq_true rfl, Nat.le_of_ble_eq_true rfl⟩

theorem phb : Statement (.phb) := fun _ _ _ => ⟨Nat.le_of_ble_eq_true rfl, Nat.le_of_ble_eq_true rfl⟩

theorem phd : Statement (.phd) := fun _ _ _ => ⟨Nat.le_of_ble_eq_true rfl, Nat.le_of_ble_eq_true rfl⟩

theorem phg : Statement (.phg) := fun _ _ _ => ⟨Nat.le_of_ble_eq_true rfl, Nat.le_of_ble_eq_true rfl⟩

theorem php : Statement (.php) := fun _ _ _ => ⟨Nat.le_of_ble_eq_true rfl, Nat.le_of_ble_eq_true rfl⟩

theorem pht : Statement (.pht) := fun _ _ _ => ⟨Nat.le_of_ble_eq_true rfl, Nat.le_of_ble_eq_true rfl⟩

theorem phx : Statement (.phx) := fun _ _ _ => ⟨Nat.le_of_ble_eq_true rfl, Nat.le_of_ble_eq_true rfl⟩

theorem phy : Statement (.phy) := fun _ _ _ => ⟨Nat.le_of_ble_eq_true rfl, Nat.le_of_ble_eq_true rfl⟩

theorem pla : Statement (.pla) := fun _ _ _ => ⟨Nat.le_of_ble_eq_true rfl, Nat.le_of_ble_eq_true rfl⟩

theorem plb : Statement (.plb) := fun _ _ _ => ⟨Nat.le_of_ble_eq_true rfl, Nat.le_of_ble_eq_true rfl⟩

theorem pld : Statement (.pld) := fun _ _ _ => ⟨Nat.le_of_ble_eq_true rfl, Nat.le_of_ble_eq_true rfl⟩

theorem plp : Statement (.plp) := fun _ _ _ => ⟨Nat.le_of_ble_eq_true rfl, Nat.le_of_ble_eq_true rfl⟩

theorem plt : Statement (.plt) := fun _ _ _ => ⟨Nat.le_of_ble_eq_true rfl, Nat.le_of_ble_eq_true rfl⟩

theorem plx : Statement (.plx) := fun _ _ _ => ⟨Nat.le_of_ble_eq_true rfl, Nat.le_of_ble_eq_true rfl⟩

theorem ply : Statement (.ply) := fun _ _ _ => ⟨Nat.le_of_ble_eq_true rfl, Nat.le_of_ble_eq_true rfl⟩

theorem psh (nn : Byte) : Statement (.psh nn) :=
  fun _ _ _ => ⟨Nat.le_of_ble_eq_true rfl, Nat.le_of_ble_eq_true rfl⟩

theorem pul (nn : Byte) : Statement (.pul nn) :=
  fun _ _ _ => ⟨Nat.le_of_ble_eq_true rfl, Nat.le_of_ble_eq_true rfl⟩

theorem pea (imm : Word) : Statement (.pea imm) :=
  fun _ _ _ => ⟨Nat.le_of_ble_eq_true rfl, Nat.le_of_ble_eq_true rfl⟩

theorem pei (dd : Byte) : Statement (.pei dd) :=
  fun _ _ _ => ⟨Nat.le_of_ble_eq_true rfl, Nat.le_of_ble_eq_true rfl⟩

theorem per (imm : Word) : Statement (.per imm) :=
  fun _ _ _ => ⟨Nat.le_of_ble_eq_true rfl, Nat.le_of_ble_eq_true rfl⟩

theorem adc (r : Acc) (op : Operand) : Statement (.adc r op) :=
  fun m _ _ => lead_append_length r _ (opForm_length m _ op)

theorem adcl (r : Acc) (k : Mem) : Statement (.adcl r k) :=
  fun _ _ _ => lead_append_length r _ (memForm_length _ k)

theorem sbc (r : Acc) (op : Operand) : Statement (.sbc r op) :=
  fun m _ _ => lead_append_length r _ (opForm_length m _ op)

theorem sbcl (r : Acc) (k : Mem) : Statement (.sbcl r k) :=
  fun _ _ _ => lead_append_length r _ (memForm_length _ k)

theorem inc (t : Target) : Statement (.inc t) := fun _ _ _ => form_length (targetForm_length _ _ _ _ _ t)

theorem dec (t : Target) : Statement (.dec t) := fun _ _ _ => form_length (targetForm_length _ _ _ _ _ t)

theorem inx : Statement (.inx) := fun _ _ _ => ⟨Nat.le_of_ble_eq_true rfl, Nat.le_of_ble_eq_true rfl⟩

theorem iny : Statement (.iny) := fun _ _ _ => ⟨Nat.le_of_ble_eq_true rfl, Nat.le_of_ble_eq_true rfl⟩

theorem dex : Statement (.dex) := fun _ _ _ => ⟨Nat.le_of_ble_eq_true rfl, Nat.le_of_ble_eq_true rfl⟩

theorem dey : Statement (.dey) := fun _ _ _ => ⟨Nat.le_of_ble_eq_true rfl, Nat.le_of_ble_eq_true rfl⟩

theorem mpy (op : Operand) : Statement (.mpy op) := fun m _ _ => cons_length _ _ (opForm_length m _ op)

theorem mpyl (k : Mem) : Statement (.mpyl k) := fun _ _ _ => cons_length _ _ (memForm_length _ k)

theorem div (op : Operand) : Statement (.div op) := fun m _ _ => cons_length _ _ (opForm_length m _ op)

theorem divl (k : Mem) : Statement (.divl k) := fun _ _ _ => cons_length _ _ (memForm_length _ k)

theorem and (r : Acc) (op : Operand) : Statement (.and r op) :=
  fun m _ _ => lead_append_length r _ (opForm_length m _ op)

theorem andl (r : Acc) (k : Mem) : Statement (.andl r k) :=
  fun _ _ _ => lead_append_length r _ (memForm_length _ k)

theorem ora (r : Acc) (op : Operand) : Statement (.ora r op) :=
  fun m _ _ => lead_append_length r _ (opForm_length m _ op)

theorem oral (r : Acc) (k : Mem) : Statement (.oral r k) :=
  fun _ _ _ => lead_append_length r _ (memForm_length _ k)

theorem eor (r : Acc) (op : Operand) : Statement (.eor r op) :=
  fun m _ _ => lead_append_length r _ (opForm_length m _ op)

theorem eorl (r : Acc) (k : Mem) : Statement (.eorl r k) :=
  fun _ _ _ => lead_append_length r _ (memForm_length _ k)

theorem cmp (r : Acc) (op : Operand) : Statement (.cmp r op) :=
  fun m _ _ => lead_append_length r _ (opForm_length m _ op)

theorem cmpl (r : Acc) (k : Mem) : Statement (.cmpl r k) :=
  fun _ _ _ => lead_append_length r _ (memForm_length _ k)

theorem cpx (op : Operand) : Statement (.cpx op) :=
  fun _ x _ => form_length (indexForm_length x _ _ _ _ _ _ _ op)

theorem cpy (op : Operand) : Statement (.cpy op) :=
  fun _ x _ => form_length (indexForm_length x _ _ _ _ _ _ _ op)

theorem asl (t : Target) : Statement (.asl t) := fun _ _ _ => form_length (targetForm_length _ _ _ _ _ t)

theorem lsr (t : Target) : Statement (.lsr t) := fun _ _ _ => form_length (targetForm_length _ _ _ _ _ t)

theorem rol (t : Target) : Statement (.rol t) := fun _ _ _ => form_length (targetForm_length _ _ _ _ _ t)

theorem ror (t : Target) : Statement (.ror t) := fun _ _ _ => form_length (targetForm_length _ _ _ _ _ t)

theorem rla (imm : Word) : Statement (.rla imm) :=
  fun m _ _ => by cases m <;> exact ⟨Nat.le_of_ble_eq_true rfl, Nat.le_of_ble_eq_true rfl⟩

theorem clb (k : Mem) (imm : Word) : Statement (.clb k imm) := fun m _ _ => op_mem_imm_length _ k m imm

theorem seb (k : Mem) (imm : Word) : Statement (.seb k imm) := fun m _ _ => op_mem_imm_length _ k m imm

theorem clp (imm : Byte) : Statement (.clp imm) :=
  fun _ _ _ => ⟨Nat.le_of_ble_eq_true rfl, Nat.le_of_ble_eq_true rfl⟩

theorem sep (imm : Byte) : Statement (.sep imm) :=
  fun _ _ _ => ⟨Nat.le_of_ble_eq_true rfl, Nat.le_of_ble_eq_true rfl⟩

theorem clc : Statement (.clc) := fun _ _ _ => ⟨Nat.le_of_ble_eq_true rfl, Nat.le_of_ble_eq_true rfl⟩

theorem sec : Statement (.sec) := fun _ _ _ => ⟨Nat.le_of_ble_eq_true rfl, Nat.le_of_ble_eq_true rfl⟩

theorem cli : Statement (.cli) := fun _ _ _ => ⟨Nat.le_of_ble_eq_true rfl, Nat.le_of_ble_eq_true rfl⟩

theorem sei : Statement (.sei) := fun _ _ _ => ⟨Nat.le_of_ble_eq_true rfl, Nat.le_of_ble_eq_true rfl⟩

theorem clm : Statement (.clm) := fun _ _ _ => ⟨Nat.le_of_ble_eq_true rfl, Nat.le_of_ble_eq_true rfl⟩

theorem sem : Statement (.sem) := fun _ _ _ => ⟨Nat.le_of_ble_eq_true rfl, Nat.le_of_ble_eq_true rfl⟩

theorem clv : Statement (.clv) := fun _ _ _ => ⟨Nat.le_of_ble_eq_true rfl, Nat.le_of_ble_eq_true rfl⟩

theorem bcc (rr : Byte) : Statement (.bcc rr) :=
  fun _ _ _ => ⟨Nat.le_of_ble_eq_true rfl, Nat.le_of_ble_eq_true rfl⟩

theorem bcs (rr : Byte) : Statement (.bcs rr) :=
  fun _ _ _ => ⟨Nat.le_of_ble_eq_true rfl, Nat.le_of_ble_eq_true rfl⟩

theorem beq (rr : Byte) : Statement (.beq rr) :=
  fun _ _ _ => ⟨Nat.le_of_ble_eq_true rfl, Nat.le_of_ble_eq_true rfl⟩

theorem bmi (rr : Byte) : Statement (.bmi rr) :=
  fun _ _ _ => ⟨Nat.le_of_ble_eq_true rfl, Nat.le_of_ble_eq_true rfl⟩

theorem bne (rr : Byte) : Statement (.bne rr) :=
  fun _ _ _ => ⟨Nat.le_of_ble_eq_true rfl, Nat.le_of_ble_eq_true rfl⟩

theorem bpl (rr : Byte) : Statement (.bpl rr) :=
  fun _ _ _ => ⟨Nat.le_of_ble_eq_true rfl, Nat.le_of_ble_eq_true rfl⟩

theorem bvc (rr : Byte) : Statement (.bvc rr) :=
  fun _ _ _ => ⟨Nat.le_of_ble_eq_true rfl, Nat.le_of_ble_eq_true rfl⟩

theorem bvs (rr : Byte) : Statement (.bvs rr) :=
  fun _ _ _ => ⟨Nat.le_of_ble_eq_true rfl, Nat.le_of_ble_eq_true rfl⟩

theorem bra (rr : Byte) : Statement (.bra rr) :=
  fun _ _ _ => ⟨Nat.le_of_ble_eq_true rfl, Nat.le_of_ble_eq_true rfl⟩

theorem bral (rr : Word) : Statement (.bral rr) :=
  fun _ _ _ => ⟨Nat.le_of_ble_eq_true rfl, Nat.le_of_ble_eq_true rfl⟩

theorem bbc (k : Mem) (imm : Word) (rr : Byte) : Statement (.bbc k imm rr) :=
  fun m _ h => op_mem_imm_rel_length _ k m imm rr (Bool.and_eq_true_iff.1 h).1

theorem bbs (k : Mem) (imm : Word) (rr : Byte) : Statement (.bbs k imm rr) :=
  fun m _ h => op_mem_imm_rel_length _ k m imm rr (Bool.and_eq_true_iff.1 h).1

theorem jmp (t : JmpOperand) : Statement (.jmp t) :=
  fun _ _ _ => by cases t <;> exact ⟨Nat.le_of_ble_eq_true rfl, Nat.le_of_ble_eq_true rfl⟩

theorem jmpl (t : JmplOperand) : Statement (.jmpl t) :=
  fun _ _ _ => by cases t <;> exact ⟨Nat.le_of_ble_eq_true rfl, Nat.le_of_ble_eq_true rfl⟩

theorem jsr (t : JsrOperand) : Statement (.jsr t) :=
  fun _ _ _ => by cases t <;> exact ⟨Nat.le_of_ble_eq_true rfl, Nat.le_of_ble_eq_true rfl⟩

theorem jsrl (hhmmll : Addr) : Statement (.jsrl hhmmll) :=
  fun _ _ _ => ⟨Nat.le_of_ble_eq_true rfl, Nat.le_of_ble_eq_true rfl⟩

theorem rts : Statement (.rts) := fun _ _ _ => ⟨Nat.le_of_ble_eq_true rfl, Nat.le_of_ble_eq_true rfl⟩

theorem rtl : Statement (.rtl) := fun _ _ _ => ⟨Nat.le_of_ble_eq_true rfl, Nat.le_of_ble_eq_true rfl⟩

theorem rti : Statement (.rti) := fun _ _ _ => ⟨Nat.le_of_ble_eq_true rfl, Nat.le_of_ble_eq_true rfl⟩

theorem brk (nn : Byte) : Statement (.brk nn) :=
  fun _ _ _ => ⟨Nat.le_of_ble_eq_true rfl, Nat.le_of_ble_eq_true rfl⟩

theorem nop : Statement (.nop) := fun _ _ _ => ⟨Nat.le_of_ble_eq_true rfl, Nat.le_of_ble_eq_true rfl⟩

theorem stp : Statement (.stp) := fun _ _ _ => ⟨Nat.le_of_ble_eq_true rfl, Nat.le_of_ble_eq_true rfl⟩

theorem wit : Statement (.wit) := fun _ _ _ => ⟨Nat.le_of_ble_eq_true rfl, Nat.le_of_ble_eq_true rfl⟩

end EncodeLength

end Sys2Proof.Laws
end

