-- ==== Sys2Proof/Laws/Step.lean ====
section
/-! SUPPORT. What a step can do, said once: the platform's moves, a reset, an accepted request, waiting, an
undefined encoding, or the decoded instruction. -/

namespace Sys2Proof.Laws

open Sys2Proof.Machine

/-! ## The platform's moves -/

/-- Without a reset the platform's moves add requests and change nothing else (R17, R335). -/
theorem platformMoves_eq : ∀ (moves : List PlatformMove) (s : State),
    moves.any PlatformMove.isReset = false →
    platformMoves moves s = { s with pending := (platformMoves moves s).pending }
  | [], _, _ => rfl
  | .request r :: rest, s, h => by
    have := platformMoves_eq rest (platformMove s (.request r)) (by simpa [PlatformMove.isReset] using h)
    rw [platformMoves, this]
    rfl
  | .watchdog n :: rest, s, h => by
    have := platformMoves_eq rest (platformMove s (.watchdog n)) (by simpa [PlatformMove.isReset] using h)
    rw [platformMoves, this]
    rfl
  | .reset p :: rest, _, h => by simp [PlatformMove.isReset] at h

/-- The state at the boundary when no reset is asserted. -/
theorem boundary_eq {s : State} (h : resetAsserted s = false) :
    boundary s =
      { s with schedule := s.schedule.tail, draws := s.draws + 1, pending := (boundary s).pending } :=
  platformMoves_eq (movesNow s) _ h

/-- The platform's moves consume one entry of the schedule and keep the parameters, a reset included. -/
theorem platformMoves_schedule : ∀ (moves : List PlatformMove) (s : State),
    (platformMoves moves s).schedule = s.schedule
  | [], _ => rfl
  | .request _ :: rest, _ => platformMoves_schedule rest _
  | .watchdog _ :: rest, _ => platformMoves_schedule rest _
  | .reset _ :: rest, _ => platformMoves_schedule rest _

theorem platformMoves_par : ∀ (moves : List PlatformMove) (s : State),
    (platformMoves moves s).par = s.par
  | [], _ => rfl
  | .request _ :: rest, _ => platformMoves_par rest _
  | .watchdog _ :: rest, _ => platformMoves_par rest _
  | .reset _ :: rest, _ => platformMoves_par rest _

theorem platformMoves_mem : ∀ (moves : List PlatformMove) (s : State),
    (platformMoves moves s).mem = s.mem
  | [], _ => rfl
  | .request _ :: rest, _ => platformMoves_mem rest _
  | .watchdog _ :: rest, _ => platformMoves_mem rest _
  | .reset _ :: rest, _ => platformMoves_mem rest _

theorem platformMoves_ioOut : ∀ (moves : List PlatformMove) (s : State),
    (platformMoves moves s).ioOut = s.ioOut
  | [], _ => rfl
  | .request _ :: rest, _ => platformMoves_ioOut rest _
  | .watchdog _ :: rest, _ => platformMoves_ioOut rest _
  | .reset _ :: rest, _ => platformMoves_ioOut rest _

/-- The platform's moves at one boundary are made in their order. -/
theorem platformMoves_append : ∀ (first then' : List PlatformMove) (s : State),
    platformMoves (first ++ then') s = platformMoves then' (platformMoves first s)
  | [], _, _ => rfl
  | _ :: rest, then', _ => platformMoves_append rest then' _

/-- A reset draws anew, and no other move does. -/
theorem platformMoves_draws : ∀ (moves : List PlatformMove) (s : State),
    (platformMoves moves s).draws = s.draws + moves.countP PlatformMove.isReset
  | [], _ => rfl
  | .request _ :: rest, s => by
    simp [platformMoves, platformMoves_draws rest, PlatformMove.isReset, platformMove]
  | .watchdog _ :: rest, s => by
    simp [platformMoves, platformMoves_draws rest, PlatformMove.isReset, platformMove]
  | .reset _ :: rest, s => by
    simp [platformMoves, platformMoves_draws rest, List.countP_cons, PlatformMove.isReset, platformMove,
      resetTransition]
    omega

/-- The pending requests stay a set through the platform's moves (R335, R370). -/
theorem platformMoves_pending_nodup : ∀ (moves : List PlatformMove) (s : State),
    s.pending.Nodup → (platformMoves moves s).pending.Nodup
  | [], _, h => h
  | .request r :: rest, s, h =>
    platformMoves_pending_nodup rest (platformMove s (.request r)) (addRequest_nodup h)
  | .watchdog n :: rest, s, h =>
    platformMoves_pending_nodup rest (platformMove s (.watchdog n)) (addRequest_nodup h)
  | .reset p :: rest, s, _ =>
    platformMoves_pending_nodup rest (platformMove s (.reset p)) (foldl_addRequest_nodup p List.nodup_nil)

/-- Without a reset, a request is pending after the platform's moves when it was before or one of them
presents it. -/
theorem mem_platformMoves_pending : ∀ (moves : List PlatformMove) (s : State) (q : Request),
    moves.any PlatformMove.isReset = false →
    (q ∈ (platformMoves moves s).pending ↔ q ∈ s.pending ∨ ∃ mv ∈ moves, mv.presents s q)
  | [], s, q, _ => by simp [platformMoves]
  | .request r :: rest, s, q, h => by
    rw [platformMoves, mem_platformMoves_pending rest _ q (by simpa [PlatformMove.isReset] using h)]
    simp [platformMove, mem_addRequest, PlatformMove.presents, or_assoc, eq_comm]
  | .watchdog n :: rest, s, q, h => by
    rw [platformMoves, mem_platformMoves_pending rest _ q (by simpa [PlatformMove.isReset] using h)]
    simp [platformMove, mem_addRequest, PlatformMove.presents, watchdogRequest, or_assoc]
  | .reset p :: rest, _, _, h => by simp [PlatformMove.isReset] at h

/-! ## The step -/

/-- Everything a step can do (R19, R106, R336, R346, R370). -/
theorem step_cases (s : State) :
    (resetAsserted s = true ∧ step s = .next (boundary s)) ∨
    (resetAsserted s = false ∧
      ((∃ r, chooseRequest (boundary s) = some r ∧ step s = .next (acceptRequest r (boundary s))) ∨
      (chooseRequest (boundary s) = none ∧ (boundary s).run ≠ .running ∧ step s = .next (boundary s)) ∨
      (chooseRequest (boundary s) = none ∧ (boundary s).run = .running ∧
        ((∃ e, fetchDecode (boundary s) = .error e ∧
            step s = .fault (.undefinedOpcode (boundary s).pc24 e.bytes)) ∨
        ∃ i len, fetchDecode (boundary s) = .ok (i, len) ∧
          step s = exec i (enterInstr len (boundary s)))))) := by
  cases hr : resetAsserted s
  · refine .inr ⟨rfl, ?_⟩
    have h1 : step s = cpuStep (boundary s) := by simp [step, hr]
    cases hc : chooseRequest (boundary s) with
    | some r => exact .inl ⟨r, rfl, by rw [h1, cpuStep, hc]⟩
    | none =>
      refine .inr ?_
      cases hrun : (boundary s).run
      · refine .inr ⟨rfl, rfl, ?_⟩
        have h2 : step s = instrStep (boundary s) := by rw [h1, cpuStep, hc]; simp [hrun]
        cases hd : fetchDecode (boundary s) with
        | error e => exact .inl ⟨e, rfl, by rw [h2, instrStep, hd]⟩
        | ok p => exact .inr ⟨p.1, p.2, rfl, by rw [h2, instrStep, hd]⟩
      · exact .inl ⟨rfl, by decide, by rw [h1, cpuStep, hc]; simp [hrun]⟩
      · exact .inl ⟨rfl, by decide, by rw [h1, cpuStep, hc]; simp [hrun]⟩
  · exact .inl ⟨rfl, by simp [step, hr]⟩

/-! ## Runs -/

/-- One step of a state that nothing will resume (R18, R346). -/
theorem step_suspendedForGood {s : State} (h : suspendedForGood s = true) :
    step s = .next { s with schedule := s.schedule.tail, draws := s.draws + 1 } := by
  simp only [suspendedForGood, platformQuiet, Bool.and_eq_true, decide_eq_true_eq] at h
  obtain ⟨⟨hrun, hq⟩, hc⟩ := h
  have hm : movesNow s = [] := by
    unfold movesNow
    cases hs : s.schedule with
    | nil => rfl
    | cons ms rest =>
      rw [hs, List.all_cons, Bool.and_eq_true] at hq
      exact List.isEmpty_iff.1 hq.1
  have hb : boundary s = { s with schedule := s.schedule.tail, draws := s.draws + 1 } := by
    rw [boundary, hm]
    rfl
  have hr : resetAsserted s = false := by rw [resetAsserted, hm]; rfl
  have hn : chooseRequest (boundary s) = none := by
    have hf : finalists (boundary s) = [] := by
      rw [hb]
      exact List.filter_eq_nil_iff.2 fun r hr' => by
        exact absurd hr' (by
          have : candidates { s with schedule := s.schedule.tail, draws := s.draws + 1 } = candidates s := rfl
          rw [this, List.isEmpty_iff.1 hc]
          exact List.not_mem_nil)
    rw [chooseRequest, hf]
  have hrun' : (boundary s).run ≠ .running := by rw [hb]; exact hrun
  rcases step_cases s with ⟨h1, _⟩ | ⟨_, ⟨r, h1, _⟩ | ⟨_, _, h1⟩ | ⟨_, h1, _⟩⟩
  · rw [hr] at h1; cases h1
  · rw [hn] at h1; cases h1
  · rw [h1, hb]
  · exact absurd h1 hrun'

end Sys2Proof.Laws
end

