-- ==== Sys2Proof/Tests/Slice0.lean ====
section
/-! SUPPORT. The model's own tests. First an ill-formed term for each check of WellFormed; then words written
out from the spec's tables, which must decode to their instruction and encode back; then single steps with
the states of spec/95_test_vectors.md; last, for each statement with hypotheses, a state and operands that
meet them. -/

namespace Sys2Proof.Tests

open Sys2Proof.Machine

set_option maxRecDepth 4000

/-! ## Well-formedness -/

/-- `isData`: DIR,Y is no mode of LDA, and L(DIR) is one of LDAL only (R103, R110). -/
theorem test_wf_isData :
    (Instr.lda .a (.mem (.dirY 0#8))).wellFormed false false = false ∧
    (Instr.lda .a (.mem (.long 0#8))).wellFormed false false = false ∧
    (Instr.lda .a (.mem (.srY 0#8))).wellFormed false false = true := by decide

/-- `isLong`: LDAL takes L(DIR) and L(DIR),Y only (R110). -/
theorem test_wf_isLong :
    (Instr.ldal .a (.ind 0#8)).wellFormed false false = false ∧
    (Instr.ldal .b (.longY 0#8)).wellFormed false false = true := by decide

/-- `isPlain`: BBS takes DIR and ABS only (R141, R142). -/
theorem test_wf_isPlain :
    (Instr.bbs (.dirX 0#8) 0#16 0#8).wellFormed false false = false ∧
    (Instr.cpx (.mem (.absX 0#16))).wellFormed false false = false ∧
    (Instr.bbs (.abs 0#16) 0#16 0#8).wellFormed false false = true := by decide

/-- `isPlainX`: ASL has no indirect mode, LDM no DIR,Y (R103). -/
theorem test_wf_isPlainX :
    (Instr.asl (.mem (.ind 0#8))).wellFormed false false = false ∧
    (Instr.ldm (.dirY 0#8) 0#16).wellFormed false false = false ∧
    (Instr.asl (.mem (.absX 0#16))).wellFormed false false = true := by decide

/-- `isPlainY`: LDX has no DIR,X (R103). -/
theorem test_wf_isPlainY :
    (Instr.ldx (.mem (.dirX 0#8))).wellFormed false false = false ∧
    (Instr.ldx (.mem (.absY 0#16))).wellFormed false false = true := by decide

/-- `isStx`: STX has no ABS,Y (R167). -/
theorem test_wf_isStx :
    (Instr.stx (.absY 0#16)).wellFormed false false = false ∧
    (Instr.stx (.dirY 0#8)).wellFormed false false = true := by decide

/-- `isSty`: STY has no ABS,X (R168). -/
theorem test_wf_isSty :
    (Instr.sty (.absX 0#16)).wellFormed false false = false ∧
    (Instr.sty (.dirX 0#8)).wellFormed false false = true := by decide

/-- `immFits`: with m = 1 an immediate of LDA is one byte, with x = 1 one of LDX (R97). -/
theorem test_wf_immFits :
    (Instr.lda .a (.imm 0x100#16)).wellFormed true false = false ∧
    (Instr.lda .a (.imm 0xFF#16)).wellFormed true false = true ∧
    (Instr.ldx (.imm 0x100#16)).wellFormed false true = false ∧
    (Instr.rla 0x100#16).wellFormed true false = false ∧
    (Instr.seb (.dir 0#8) 0x100#16).wellFormed true false = false := by decide

/-! ## Decoding: words from the instruction code tables (30_encoding.md R100, R104, R105) -/

/-- The bytes decode to the instruction with their number as its length, and it encodes to them; `narrow`
is the value of m and x. -/
def both (narrow : Bool) (code : List Byte) (i : Instr) : Bool :=
  (match decode narrow narrow (fun k => code.getD k 0#8) with
    | .ok r => r == (i, code.length)
    | .error _ => false) &&
  encode narrow narrow i == code

theorem test_decode_loads_and_stores :
    (both true [0xA1#8, 0x12#8] (.lda .a (.mem (.indX 0x12#8))) &&
    both false [0xB7#8, 0x12#8] (.ldal .a (.longY 0x12#8)) &&
    both true [0x9C#8, 0x34#8, 0x12#8, 0x5A#8] (.ldm (.abs 0x1234#16) 0x005A#16) &&
    both false [0x89#8, 0xC2#8, 0x7E#8] (.ldt 0x7E#8) &&
    both true [0xA2#8, 0x5A#8] (.ldx (.imm 0x005A#16)) &&
    both false [0xA0#8, 0xA5#8, 0x5A#8] (.ldy (.imm 0x5AA5#16)) &&
    both true [0x92#8, 0x12#8] (.sta .a (.ind 0x12#8)) &&
    both false [0x42#8, 0x97#8, 0x12#8] (.stal .b (.longY 0x12#8)) &&
    both true [0x8E#8, 0x34#8, 0x12#8] (.stx (.abs 0x1234#16)) &&
    both false [0x84#8, 0x12#8] (.sty (.dir 0x12#8))) = true := by
  decide

theorem test_decode_transfers :
    (both true [0x5B#8] (.tad) &&
    both false [0x1B#8] (.tas) &&
    both true [0xAA#8] (.tax) &&
    both false [0xA8#8] (.tay) &&
    both true [0x42#8, 0x5B#8] (.tbd) &&
    both false [0x42#8, 0x1B#8] (.tbs) &&
    both true [0x42#8, 0xAA#8] (.tbx) &&
    both false [0x42#8, 0xA8#8] (.tby) &&
    both true [0x7B#8] (.tda) &&
    both false [0x42#8, 0x7B#8] (.tdb) &&
    both true [0x3B#8] (.tsa) &&
    both false [0x42#8, 0x3B#8] (.tsb) &&
    both true [0xBA#8] (.tsx) &&
    both false [0x8A#8] (.txa) &&
    both true [0x42#8, 0x8A#8] (.txb) &&
    both false [0x9A#8] (.txs) &&
    both true [0x9B#8] (.txy) &&
    both false [0x98#8] (.tya) &&
    both true [0x42#8, 0x98#8] (.tyb) &&
    both false [0xBB#8] (.tyx) &&
    both true [0x89#8, 0x28#8] (.xab) &&
    both false [0x54#8, 0x01#8, 0x02#8] (.mvn 0x01#8 0x02#8) &&
    both true [0x44#8, 0x01#8, 0x02#8] (.mvp 0x01#8 0x02#8)) = true := by
  decide

theorem test_decode_stack :
    (both true [0x48#8] (.pha) &&
    both false [0x42#8, 0x48#8] (.phb) &&
    both true [0x0B#8] (.phd) &&
    both false [0x4B#8] (.phg) &&
    both true [0x08#8] (.php) &&
    both false [0x8B#8] (.pht) &&
    both true [0xDA#8] (.phx) &&
    both false [0x5A#8] (.phy) &&
    both true [0x68#8] (.pla) &&
    both false [0x42#8, 0x68#8] (.plb) &&
    both true [0x2B#8] (.pld) &&
    both false [0x28#8] (.plp) &&
    both true [0xAB#8] (.plt) &&
    both false [0xFA#8] (.plx) &&
    both true [0x7A#8] (.ply) &&
    both false [0xEB#8, 0x1E#8] (.psh 0x1E#8) &&
    both true [0xFB#8, 0x1E#8] (.pul 0x1E#8) &&
    both false [0xF4#8, 0x34#8, 0x12#8] (.pea 0x1234#16) &&
    both true [0xD4#8, 0x12#8] (.pei 0x12#8) &&
    both false [0x62#8, 0x34#8, 0x12#8] (.per 0x1234#16) &&
    both true [0x42#8, 0x75#8, 0x12#8] (.adc .b (.mem (.dirX 0x12#8)))) = true := by
  decide

theorem test_decode_arithmetic :
    (both true [0x67#8, 0x12#8] (.adcl .a (.long 0x12#8)) &&
    both false [0xEF#8, 0x56#8, 0x34#8, 0x12#8] (.sbc .a (.mem (.abl 0x123456#24))) &&
    both true [0x42#8, 0xE7#8, 0x12#8] (.sbcl .b (.long 0x12#8)) &&
    both false [0xF6#8, 0x12#8] (.inc (.mem (.dirX 0x12#8))) &&
    both true [0xCE#8, 0x34#8, 0x12#8] (.dec (.mem (.abs 0x1234#16))) &&
    both false [0xE8#8] (.inx) &&
    both true [0xC8#8] (.iny) &&
    both false [0xCA#8] (.dex) &&
    both true [0x88#8] (.dey) &&
    both false [0x89#8, 0x11#8, 0x12#8] (.mpy (.mem (.indY 0x12#8))) &&
    both true [0x89#8, 0x07#8, 0x12#8] (.mpyl (.long 0x12#8)) &&
    both false [0x89#8, 0x29#8, 0xA5#8, 0x5A#8] (.div (.imm 0x5AA5#16)) &&
    both true [0x89#8, 0x27#8, 0x12#8] (.divl (.long 0x12#8)) &&
    both false [0x42#8, 0x21#8, 0x12#8] (.and .b (.mem (.indX 0x12#8)))) = true := by
  decide

theorem test_decode_logic_compare_shift :
    (both true [0x27#8, 0x12#8] (.andl .a (.long 0x12#8)) &&
    both false [0x0F#8, 0x56#8, 0x34#8, 0x12#8] (.ora .a (.mem (.abl 0x123456#24))) &&
    both true [0x42#8, 0x07#8, 0x12#8] (.oral .b (.long 0x12#8)) &&
    both false [0x42#8, 0x45#8, 0x12#8] (.eor .b (.mem (.dir 0x12#8))) &&
    both true [0x47#8, 0x12#8] (.eorl .a (.long 0x12#8)) &&
    both false [0x42#8, 0xDF#8, 0x56#8, 0x34#8, 0x12#8] (.cmp .b (.mem (.ablX 0x123456#24))) &&
    both true [0x42#8, 0xC7#8, 0x12#8] (.cmpl .b (.long 0x12#8)) &&
    both false [0xEC#8, 0x34#8, 0x12#8] (.cpx (.mem (.abs 0x1234#16))) &&
    both true [0xC4#8, 0x12#8] (.cpy (.mem (.dir 0x12#8))) &&
    both false [0x16#8, 0x12#8] (.asl (.mem (.dirX 0x12#8))) &&
    both true [0x4E#8, 0x34#8, 0x12#8] (.lsr (.mem (.abs 0x1234#16))) &&
    both false [0x2A#8] (.rol (.acc .a)) &&
    both true [0x66#8, 0x12#8] (.ror (.mem (.dir 0x12#8))) &&
    both false [0x89#8, 0x49#8, 0xA5#8, 0x5A#8] (.rla 0x5AA5#16) &&
    both true [0x14#8, 0x12#8, 0x5A#8] (.clb (.dir 0x12#8) 0x005A#16)) = true := by
  decide

theorem test_decode_bits_and_flags :
    (both true [0x04#8, 0x12#8, 0x5A#8] (.seb (.dir 0x12#8) 0x005A#16) &&
    both false [0xC2#8, 0x7E#8] (.clp 0x7E#8) &&
    both true [0xE2#8, 0x7E#8] (.sep 0x7E#8) &&
    both false [0x18#8] (.clc) &&
    both true [0x38#8] (.sec) &&
    both false [0x58#8] (.cli) &&
    both true [0x78#8] (.sei) &&
    both false [0xD8#8] (.clm) &&
    both true [0xF8#8] (.sem) &&
    both false [0xB8#8] (.clv) &&
    both true [0x90#8, 0xF6#8] (.bcc 0xF6#8)) = true := by
  decide

theorem test_decode_branches_and_jumps :
    (both true [0xB0#8, 0xF6#8] (.bcs 0xF6#8) &&
    both false [0xF0#8, 0xF6#8] (.beq 0xF6#8) &&
    both true [0x30#8, 0xF6#8] (.bmi 0xF6#8) &&
    both false [0xD0#8, 0xF6#8] (.bne 0xF6#8) &&
    both true [0x10#8, 0xF6#8] (.bpl 0xF6#8) &&
    both false [0x50#8, 0xF6#8] (.bvc 0xF6#8) &&
    both true [0x70#8, 0xF6#8] (.bvs 0xF6#8) &&
    both false [0x80#8, 0xF6#8] (.bra 0xF6#8) &&
    both true [0x82#8, 0x34#8, 0x12#8] (.bral 0x1234#16) &&
    both false [0x3C#8, 0x34#8, 0x12#8, 0xA5#8, 0x5A#8, 0xF6#8] (.bbc (.abs 0x1234#16) 0x5AA5#16 0xF6#8) &&
    both true [0x24#8, 0x12#8, 0x5A#8, 0xF6#8] (.bbs (.dir 0x12#8) 0x005A#16 0xF6#8) &&
    both false [0x6C#8, 0x34#8, 0x12#8] (.jmp (.ind 0x1234#16)) &&
    both true [0x5C#8, 0x56#8, 0x34#8, 0x12#8] (.jmpl (.abl 0x123456#24)) &&
    both false [0xFC#8, 0x34#8, 0x12#8] (.jsr (.indX 0x1234#16)) &&
    both true [0x22#8, 0x56#8, 0x34#8, 0x12#8] (.jsrl 0x123456#24) &&
    both false [0x60#8] (.rts) &&
    both true [0x6B#8] (.rtl) &&
    both false [0x40#8] (.rti) &&
    both true [0x00#8, 0x1E#8] (.brk 0x1E#8)) = true := by
  decide

theorem test_decode_special :
    (both true [0x00#8, 0x1E#8] (.brk 0x1E#8) &&
    both false [0xEA#8] (.nop) &&
    both true [0xDB#8] (.stp) &&
    both false [0xCB#8] (.wit)) = true := by
  decide

/-- Every addressing mode of ADC and ADCL, accumulator A (R103, R230). -/
theorem test_decode_modes_a :
    (both false [0x61#8, 0x12#8] (.adc .a (.mem (.indX 0x12#8))) &&
    both false [0x63#8, 0x1E#8] (.adc .a (.mem (.sr 0x1E#8))) &&
    both false [0x65#8, 0x12#8] (.adc .a (.mem (.dir 0x12#8))) &&
    both false [0x69#8, 0xA5#8, 0x5A#8] (.adc .a (.imm 0x5AA5#16)) &&
    both false [0x6D#8, 0x34#8, 0x12#8] (.adc .a (.mem (.abs 0x1234#16))) &&
    both false [0x6F#8, 0x56#8, 0x34#8, 0x12#8] (.adc .a (.mem (.abl 0x123456#24))) &&
    both false [0x71#8, 0x12#8] (.adc .a (.mem (.indY 0x12#8))) &&
    both false [0x72#8, 0x12#8] (.adc .a (.mem (.ind 0x12#8))) &&
    both false [0x73#8, 0x1E#8] (.adc .a (.mem (.srY 0x1E#8))) &&
    both false [0x75#8, 0x12#8] (.adc .a (.mem (.dirX 0x12#8))) &&
    both false [0x79#8, 0x34#8, 0x12#8] (.adc .a (.mem (.absY 0x1234#16))) &&
    both false [0x7D#8, 0x34#8, 0x12#8] (.adc .a (.mem (.absX 0x1234#16))) &&
    both false [0x7F#8, 0x56#8, 0x34#8, 0x12#8] (.adc .a (.mem (.ablX 0x123456#24))) &&
    both false [0x67#8, 0x12#8] (.adcl .a (.long 0x12#8)) &&
    both false [0x77#8, 0x12#8] (.adcl .a (.longY 0x12#8))) = true := by
  decide

/-- Every addressing mode of ADC and ADCL, accumulator B (R103, R230). -/
theorem test_decode_modes_b :
    (both true [0x42#8, 0x61#8, 0x12#8] (.adc .b (.mem (.indX 0x12#8))) &&
    both true [0x42#8, 0x63#8, 0x1E#8] (.adc .b (.mem (.sr 0x1E#8))) &&
    both true [0x42#8, 0x65#8, 0x12#8] (.adc .b (.mem (.dir 0x12#8))) &&
    both true [0x42#8, 0x69#8, 0x5A#8] (.adc .b (.imm 0x005A#16)) &&
    both true [0x42#8, 0x6D#8, 0x34#8, 0x12#8] (.adc .b (.mem (.abs 0x1234#16))) &&
    both true [0x42#8, 0x6F#8, 0x56#8, 0x34#8, 0x12#8] (.adc .b (.mem (.abl 0x123456#24))) &&
    both true [0x42#8, 0x71#8, 0x12#8] (.adc .b (.mem (.indY 0x12#8))) &&
    both true [0x42#8, 0x72#8, 0x12#8] (.adc .b (.mem (.ind 0x12#8))) &&
    both true [0x42#8, 0x73#8, 0x1E#8] (.adc .b (.mem (.srY 0x1E#8))) &&
    both true [0x42#8, 0x75#8, 0x12#8] (.adc .b (.mem (.dirX 0x12#8))) &&
    both true [0x42#8, 0x79#8, 0x34#8, 0x12#8] (.adc .b (.mem (.absY 0x1234#16))) &&
    both true [0x42#8, 0x7D#8, 0x34#8, 0x12#8] (.adc .b (.mem (.absX 0x1234#16))) &&
    both true [0x42#8, 0x7F#8, 0x56#8, 0x34#8, 0x12#8] (.adc .b (.mem (.ablX 0x123456#24))) &&
    both true [0x42#8, 0x67#8, 0x12#8] (.adcl .b (.long 0x12#8)) &&
    both true [0x42#8, 0x77#8, 0x12#8] (.adcl .b (.longY 0x12#8))) = true := by
  decide

/-- Every form of LDX, LDY, CPX and ASL (R103). -/
theorem test_decode_index_and_shift_forms :
    (both true [0xA2#8, 0x5A#8] (.ldx (.imm 0x005A#16)) &&
    both true [0xA6#8, 0x12#8] (.ldx (.mem (.dir 0x12#8))) &&
    both true [0xAE#8, 0x34#8, 0x12#8] (.ldx (.mem (.abs 0x1234#16))) &&
    both true [0xB6#8, 0x12#8] (.ldx (.mem (.dirY 0x12#8))) &&
    both true [0xBE#8, 0x34#8, 0x12#8] (.ldx (.mem (.absY 0x1234#16))) &&
    both true [0xA0#8, 0x5A#8] (.ldy (.imm 0x005A#16)) &&
    both true [0xA4#8, 0x12#8] (.ldy (.mem (.dir 0x12#8))) &&
    both true [0xAC#8, 0x34#8, 0x12#8] (.ldy (.mem (.abs 0x1234#16))) &&
    both true [0xB4#8, 0x12#8] (.ldy (.mem (.dirX 0x12#8))) &&
    both true [0xBC#8, 0x34#8, 0x12#8] (.ldy (.mem (.absX 0x1234#16))) &&
    both true [0xE0#8, 0x5A#8] (.cpx (.imm 0x005A#16)) &&
    both true [0xE4#8, 0x12#8] (.cpx (.mem (.dir 0x12#8))) &&
    both true [0xEC#8, 0x34#8, 0x12#8] (.cpx (.mem (.abs 0x1234#16))) &&
    both true [0x06#8, 0x12#8] (.asl (.mem (.dir 0x12#8))) &&
    both true [0x0A#8] (.asl (.acc .a)) &&
    both true [0x0E#8, 0x34#8, 0x12#8] (.asl (.mem (.abs 0x1234#16))) &&
    both true [0x16#8, 0x12#8] (.asl (.mem (.dirX 0x12#8))) &&
    both true [0x1E#8, 0x34#8, 0x12#8] (.asl (.mem (.absX 0x1234#16))) &&
    both true [0x42#8, 0x0A#8] (.asl (.acc .b))) = true := by
  decide

/-! ## Single steps: the states of 95_test_vectors.md -/

/-- The default start state of 95_test_vectors.md, part 2. -/
def start : State := { State.reset with pc := 0x8000#16, ps := Psr.ofWord 0#16 }

/-- Memory with bytes stored from an address on. -/
def put (mem : List Host.Cell) (a : Nat) (bytes : List Byte) : List Host.Cell :=
  (bytes.foldl (fun r b => (memWrite r.1 r.2 b, r.2 + 1)) (mem, a)).1

/-- One step from `s` with data in memory and the code at PG :: PC goes on to a state of which `p` holds. -/
def ran (s : State) (cells : List (Nat × List Byte)) (code : List Byte) (p : State → Bool) : Bool :=
  match step { s with mem := put (cells.foldl (fun m c => put m c.1 c.2) s.mem) s.pc24.toNat code } with
  | .next t => p t
  | _ => false

/-- The bytes written are in memory. -/
def seen (t : State) (cells : List (Nat × Byte)) : Bool := cells.all fun c => memRead t.mem c.1 == c.2

/-! ## Decoding lengths and addressing -/

/-- V3 (R97, R164): x = 1: LDX #7Fh is 2 bytes; X[15:8] kept. -/
theorem test_v3 : ran
    { start with x := 0xAB00#16, ps := Psr.ofWord 0x0010#16 }
    [] [0xA2#8, 0x7F#8, 0x02#8]
    (fun t => t.x == 0xAB7F#16 && t.pc24 == 0x008002#24 && t.ps.toWord == 0x0010#16) = true := by decide

/-- V5 (R94, R161): prefix 42h selects B; m = 1 keeps B[15:8]. -/
theorem test_v5 : ran
    { start with a := 0x3333#16, b := 0x1200#16, ps := Psr.ofWord 0x0020#16 }
    [] [0x42#8, 0xA9#8, 0x80#8]
    (fun t => t.b == 0x1280#16 && t.pc24 == 0x008003#24 && t.ps.toWord == 0x00A0#16) = true := by decide

/-- V17 (R129): (DIR),Y: carry from pointer + Y goes into the bank. -/
theorem test_v17 : ran
    { start with y := 0x0001#16, dt := 0x01#8, ps := Psr.ofWord 0x0020#16 }
    [(0x000010, [0xFF#8, 0xFF#8]), (0x020000, [0x22#8])] [0xB1#8, 0x10#8]
    (fun t => t.a == 0x0022#16 && t.pc24 == 0x008002#24 && t.ps.toWord == 0x0020#16) = true := by decide

/-! ## Load and store -/

/-- V30 (R162): LDM ABS,X, m = 1: one byte, no flags. -/
theorem test_v30 : ran
    { start with x := 0x0003#16, dt := 0x01#8, ps := Psr.ofWord 0x0022#16 }
    [] [0x9E#8, 0x00#8, 0x10#8, 0xA5#8]
    (fun t => t.pc24 == 0x008004#24 && t.ps.toWord == 0x0022#16 && seen t [(0x011003, 0xA5#8)]) = true := by decide

/-- V32 (R163): LDT: 8 bits whatever m, x. -/
theorem test_v32 : ran
    { start with ps := Psr.ofWord 0x0080#16 }
    [] [0x89#8, 0xC2#8, 0x7E#8]
    (fun t => t.dt == 0x7E#8 && t.pc24 == 0x008003#24 && t.ps.toWord == 0x0080#16) = true := by decide

/-- V33 (R165): LDY ABS,X, x = 1: Y[15:8] kept. -/
theorem test_v33 : ran
    { start with x := 0x0001#16, y := 0xEE00#16, ps := Psr.ofWord 0x0010#16 }
    [(0x001001, [0x80#8])] [0xBC#8, 0x00#8, 0x10#8]
    (fun t => t.y == 0xEE80#16 && t.pc24 == 0x008003#24 && t.ps.toWord == 0x0090#16) = true := by decide

/-- V34 (R166, C2): STA, m = 1 stores one byte only. -/
theorem test_v34 : ran
    { start with a := 0x1234#16, ps := Psr.ofWord 0x0020#16 }
    [(0x001001, [0xEE#8])] [0x8D#8, 0x00#8, 0x10#8]
    (fun t => t.pc24 == 0x008003#24 && t.ps.toWord == 0x0020#16 && seen t [(0x001000, 0x34#8)]) = true := by decide

/-- V35 (R166): STA B,dd (42 85), m = 0. -/
theorem test_v35 : ran
    { start with b := 0xBEEF#16, dpr := 0x0100#16 }
    [] [0x42#8, 0x85#8, 0x10#8]
    (fun t => t.pc24 == 0x008003#24 && t.ps.toWord == 0x0000#16 && seen t [(0x000110, 0xEF#8),
      (0x000111, 0xBE#8)]) = true := by decide

/-- V37 (R166, R131): STAL A,(dd),Y, m = 0. -/
theorem test_v37 : ran
    { start with a := 0x1234#16, y := 0x0001#16 }
    [(0x000010, [0xFF#8, 0xFF#8, 0x01#8])] [0x97#8, 0x10#8]
    (fun t => t.pc24 == 0x008002#24 && t.ps.toWord == 0x0000#16 && seen t [(0x020000, 0x34#8),
      (0x020001, 0x12#8)]) = true := by decide

/-- V38 (R167): STX dd,Y, x = 0. -/
theorem test_v38 : ran
    { start with x := 0x1234#16, y := 0x0002#16 }
    [] [0x96#8, 0x10#8]
    (fun t => t.pc24 == 0x008002#24 && t.ps.toWord == 0x0000#16 && seen t [(0x000012, 0x34#8),
      (0x000013, 0x12#8)]) = true := by decide

/-- V39 (R168): STY mmll, x = 1: one byte. -/
theorem test_v39 : ran
    { start with y := 0xAB55#16, dt := 0x02#8, ps := Psr.ofWord 0x0010#16 }
    [] [0x8C#8, 0x00#8, 0x30#8]
    (fun t => t.pc24 == 0x008003#24 && t.ps.toWord == 0x0010#16 && seen t [(0x023000, 0x55#8)]) = true := by decide

/-! ## Transfers -/

/-- V40 (R171): TAD with m = 1 copies all 16 bits. -/
theorem test_v40 : ran
    { start with a := 0x1200#16, ps := Psr.ofWord 0x0020#16 }
    [] [0x5B#8]
    (fun t => t.dpr == 0x1200#16 && t.pc24 == 0x008001#24 && t.ps.toWord == 0x0020#16) = true := by decide

/-- V41 (R173): TAX, m = 1, x = 0: 16 bits. -/
theorem test_v41 : ran
    { start with a := 0x80FF#16, ps := Psr.ofWord 0x0020#16 }
    [] [0xAA#8]
    (fun t => t.x == 0x80FF#16 && t.pc24 == 0x008001#24 && t.ps.toWord == 0x00A0#16) = true := by decide

/-- V42 (R174): TAY, x = 1: low byte only. -/
theorem test_v42 : ran
    { start with a := 0x1200#16, y := 0x5555#16, ps := Psr.ofWord 0x0010#16 }
    [] [0xA8#8]
    (fun t => t.y == 0x5500#16 && t.pc24 == 0x008001#24 && t.ps.toWord == 0x0012#16) = true := by decide

/-- V43 (R179): TDA, m = 1. -/
theorem test_v43 : ran
    { start with a := 0x34FF#16, dpr := 0x1200#16, ps := Psr.ofWord 0x0020#16 }
    [] [0x7B#8]
    (fun t => t.a == 0x3400#16 && t.pc24 == 0x008001#24 && t.ps.toWord == 0x0022#16) = true := by decide

/-- V44 (R182): TSB, m = 0. -/
theorem test_v44 : ran
    { start with sp := 0x8001#16 }
    [] [0x42#8, 0x3B#8]
    (fun t => t.b == 0x8001#16 && t.pc24 == 0x008002#24 && t.ps.toWord == 0x0080#16) = true := by decide

/-- V45 (R184, C1): TXA, m = 0, x = 1: upper byte written 00h. -/
theorem test_v45 : ran
    { start with a := 0xFFFF#16, x := 0xAB80#16, ps := Psr.ofWord 0x0010#16 }
    [] [0x8A#8]
    (fun t => t.a == 0x0080#16 && t.pc24 == 0x008001#24 && t.ps.toWord == 0x0010#16) = true := by decide

/-- V46 (R186): TXS, x = 1: S_H <- 00h. -/
theorem test_v46 : ran
    { start with x := 0x127F#16, sp := 0x0FFF#16, ps := Psr.ofWord 0x0010#16 }
    [] [0x9A#8]
    (fun t => t.sp == 0x007F#16 && t.pc24 == 0x008001#24 && t.ps.toWord == 0x0010#16) = true := by decide

/-- V47 (R187): TXY, x = 1. -/
theorem test_v47 : ran
    { start with x := 0x12FF#16, y := 0x3400#16, ps := Psr.ofWord 0x0010#16 }
    [] [0x9B#8]
    (fun t => t.y == 0x34FF#16 && t.pc24 == 0x008001#24 && t.ps.toWord == 0x0090#16) = true := by decide

/-- V48 (R189): TYB, m = 0, x = 1. -/
theorem test_v48 : ran
    { start with b := 0x7777#16, y := 0xFF00#16, ps := Psr.ofWord 0x0010#16 }
    [] [0x42#8, 0x98#8]
    (fun t => t.b == 0x0000#16 && t.pc24 == 0x008002#24 && t.ps.toWord == 0x0012#16) = true := by decide

/-- V49 (R191): XAB, m = 0. -/
theorem test_v49 : ran
    { start with a := 0x1234#16 }
    [] [0x89#8, 0x28#8]
    (fun t => t.a == 0x0000#16 && t.b == 0x1234#16 && t.pc24 == 0x008002#24 &&
      t.ps.toWord == 0x0002#16) = true := by decide

/-- V50 (R191, D20): XAB, m = 1: low bytes only. -/
theorem test_v50 : ran
    { start with a := 0x1180#16, b := 0x2201#16, ps := Psr.ofWord 0x0020#16 }
    [] [0x89#8, 0x28#8]
    (fun t => t.a == 0x1101#16 && t.b == 0x2280#16 && t.pc24 == 0x008002#24 &&
      t.ps.toWord == 0x0020#16) = true := by decide

/-- V53 (R196): MVN, overlapping, target above source: replicates. -/
theorem test_v53 : ran
    { start with a := 0x0003#16, x := 0x1000#16, y := 0x1001#16 }
    [(0x001000, [0xAA#8, 0xBB#8, 0xCC#8, 0xDD#8])] [0x54#8, 0x00#8, 0x00#8]
    (fun t => t.a == 0xFFFF#16 && t.x == 0x1003#16 && t.y == 0x1004#16 && t.pc24 == 0x008003#24 &&
      t.ps.toWord == 0x0000#16 && seen t [(0x001001, 0xAA#8), (0x001002, 0xAA#8), (0x001003,
      0xAA#8)]) = true := by decide

/-- V54 (R197): MVP, overlapping, target above source: copies correctly. -/
theorem test_v54 : ran
    { start with a := 0x0003#16, x := 0x1002#16, y := 0x1003#16 }
    [(0x001000, [0xAA#8, 0xBB#8, 0xCC#8, 0xDD#8])] [0x44#8, 0x00#8, 0x00#8]
    (fun t => t.a == 0xFFFF#16 && t.x == 0x0FFF#16 && t.y == 0x1000#16 && t.pc24 == 0x008003#24 &&
      t.ps.toWord == 0x0000#16 && seen t [(0x001001, 0xAA#8), (0x001002, 0xBB#8), (0x001003,
      0xCC#8)]) = true := by decide

/-- V55 (R196, R198): MVN, x = 1: indexes wrap in 00h-FFh, middle byte 00h. -/
theorem test_v55 : ran
    { start with a := 0x0002#16, x := 0x12FF#16, y := 0x3410#16, ps := Psr.ofWord 0x0010#16 }
    [(0x000000, [0x02#8]), (0x0000FF, [0x01#8])] [0x54#8, 0x00#8, 0x00#8]
    (fun t => t.a == 0xFFFF#16 && t.x == 0x1201#16 && t.y == 0x3412#16 && t.pc24 == 0x008003#24 &&
      t.ps.toWord == 0x0010#16 && seen t [(0x000010, 0x01#8), (0x000011, 0x02#8)]) = true := by decide

/-! ## Stack -/

/-- V59 (R201): PHA, m = 0. -/
theorem test_v59 : ran
    { start with a := 0x1234#16, sp := 0x01FF#16 }
    [] [0x48#8]
    (fun t => t.sp == 0x01FD#16 && t.pc24 == 0x008001#24 && t.ps.toWord == 0x0000#16 &&
      seen t [(0x0001FE, 0x34#8), (0x0001FF, 0x12#8)]) = true := by decide

/-- V60 (R202): PHB, m = 1. -/
theorem test_v60 : ran
    { start with b := 0xAB12#16, sp := 0x0100#16, ps := Psr.ofWord 0x0020#16 }
    [] [0x42#8, 0x48#8]
    (fun t => t.sp == 0x00FF#16 && t.pc24 == 0x008002#24 && t.ps.toWord == 0x0020#16 &&
      seen t [(0x000100, 0x12#8)]) = true := by decide

/-- V61 (R204): PHG pushes the current program bank. -/
theorem test_v61 : ran
    { start with sp := 0x01FF#16, pc := 0x8000#16, pg := 0x05#8 }
    [] [0x4B#8]
    (fun t => t.sp == 0x01FE#16 && t.pc24 == 0x058001#24 && t.ps.toWord == 0x0000#16 &&
      seen t [(0x0001FF, 0x05#8)]) = true := by decide

/-- V62 (R205): PHP: upper byte is 00000 :: IPL. -/
theorem test_v62 : ran
    { start with sp := 0x01FF#16, ps := Psr.ofWord 0x03B4#16 }
    [] [0x08#8]
    (fun t => t.sp == 0x01FD#16 && t.pc24 == 0x008001#24 && t.ps.toWord == 0x03B4#16 &&
      seen t [(0x0001FE, 0xB4#8), (0x0001FF, 0x03#8)]) = true := by decide

/-- V63 (R208, R14): PHY, x = 1, S wraps 0000h -> FFFFh. -/
theorem test_v63 : ran
    { start with y := 0x0055#16, ps := Psr.ofWord 0x0010#16 }
    [] [0x5A#8]
    (fun t => t.sp == 0xFFFF#16 && t.pc24 == 0x008001#24 && t.ps.toWord == 0x0010#16 &&
      seen t [(0x000000, 0x55#8)]) = true := by decide

/-- V64 (R209): PLA, m = 1: N, Z set. -/
theorem test_v64 : ran
    { start with a := 0x12FF#16, sp := 0x01FE#16, ps := Psr.ofWord 0x0020#16 }
    [(0x0001FF, [0x00#8])] [0x68#8]
    (fun t => t.a == 0x1200#16 && t.sp == 0x01FF#16 && t.pc24 == 0x008001#24 &&
      t.ps.toWord == 0x0022#16) = true := by decide

/-- V65 (R210): PLB, m = 0. -/
theorem test_v65 : ran
    { start with sp := 0x00FD#16 }
    [(0x0000FE, [0x34#8, 0x92#8])] [0x42#8, 0x68#8]
    (fun t => t.b == 0x9234#16 && t.sp == 0x00FF#16 && t.pc24 == 0x008002#24 &&
      t.ps.toWord == 0x0080#16) = true := by decide

/-- V66 (R211): PLD: no flags. -/
theorem test_v66 : ran
    { start with sp := 0x027D#16, ps := Psr.ofWord 0x0002#16 }
    [(0x00027E, [0x00#8, 0x34#8])] [0x2B#8]
    (fun t => t.sp == 0x027F#16 && t.dpr == 0x3400#16 && t.pc24 == 0x008001#24 &&
      t.ps.toWord == 0x0002#16) = true := by decide

/-- V67 (R212, R43): PLP: bits 15-11 of the pulled word are dropped. -/
theorem test_v67 : ran
    { start with sp := 0x01FD#16 }
    [(0x0001FE, [0x30#8, 0xFF#8])] [0x28#8]
    (fun t => t.sp == 0x01FF#16 && t.pc24 == 0x008001#24 && t.ps.toWord == 0x0730#16) = true := by decide

/-- V68 (R213): PLT: N, Z at 8 bits. -/
theorem test_v68 : ran
    { start with sp := 0x01FE#16 }
    [(0x0001FF, [0x80#8])] [0xAB#8]
    (fun t => t.sp == 0x01FF#16 && t.dt == 0x80#8 && t.pc24 == 0x008001#24 &&
      t.ps.toWord == 0x0080#16) = true := by decide

/-- V69 (R215, R14): PLY, x = 1, S wraps FFFFh -> 0000h. -/
theorem test_v69 : ran
    { start with sp := 0xFFFF#16, ps := Psr.ofWord 0x0010#16 }
    [(0x000000, [0x55#8])] [0x7A#8]
    (fun t => t.y == 0x0055#16 && t.sp == 0x0000#16 && t.pc24 == 0x008001#24 &&
      t.ps.toWord == 0x0010#16) = true := by decide

/-- V70 (R216): PSH #FFh, m = 0, x = 0: all eight, 13 bytes. -/
theorem test_v70 : ran
    { start with
      a := 0x1111#16
      b := 0x2222#16
      x := 0x3333#16
      y := 0x4444#16
      sp := 0x02FF#16
      dpr := 0x5555#16
      dt := 0x66#8
      pc := 0x8000#16
      pg := 0x01#8
      ps := Psr.ofWord 0x0204#16 }
    [] [0xEB#8, 0xFF#8]
    (fun t => t.sp == 0x02F1#16 && t.pc24 == 0x018002#24 && t.ps.toWord == 0x0204#16 &&
      seen t [(0x0002F2, 0x04#8), (0x0002F3, 0x02#8), (0x0002F4, 0x01#8), (0x0002F5, 0x66#8),
      (0x0002F6, 0x55#8), (0x0002F7, 0x55#8), (0x0002F8, 0x44#8)]) = true := by decide

/-- V71 (R216): PSH #85h, m = 1, x = 0. -/
theorem test_v71 : ran
    { start with a := 0x5511#16, x := 0x2233#16, sp := 0x01FF#16, ps := Psr.ofWord 0x0024#16 }
    [] [0xEB#8, 0x85#8]
    (fun t => t.sp == 0x01FA#16 && t.pc24 == 0x008002#24 && t.ps.toWord == 0x0024#16 &&
      seen t [(0x0001FB, 0x24#8), (0x0001FC, 0x00#8), (0x0001FD, 0x33#8), (0x0001FE, 0x22#8),
      (0x0001FF, 0x11#8)]) = true := by decide

/-- V72 (R217, R218): PUL #85h decoded with m = 1, x = 1; restored PS has m = 0, x = 0: X and A
pulled as 16 bits. -/
theorem test_v72 : ran
    { start with sp := 0x01F9#16, ps := Psr.ofWord 0x0030#16 }
    [(0x0001FA, [0x04#8, 0x02#8, 0x33#8, 0x22#8, 0x11#8, 0x55#8])] [0xFB#8, 0x85#8]
    (fun t => t.a == 0x5511#16 && t.x == 0x2233#16 && t.sp == 0x01FF#16 && t.pc24 == 0x008002#24 &&
      t.ps.toWord == 0x0204#16) = true := by decide

/-- V74 (R217, D13): PUL #41h: bit 6 ignored, only A pulled, no flags. -/
theorem test_v74 : ran
    { start with
      a := 0x1200#16
      sp := 0x01FD#16
      pc := 0x8000#16
      pg := 0x02#8
      ps := Psr.ofWord 0x0022#16 }
    [(0x0001FE, [0x80#8, 0x05#8])] [0xFB#8, 0x41#8]
    (fun t => t.a == 0x1280#16 && t.sp == 0x01FE#16 && t.pc24 == 0x028002#24 &&
      t.ps.toWord == 0x0022#16) = true := by decide

/-- V75 (R221): PEA #1234h. -/
theorem test_v75 : ran
    { start with sp := 0x01FF#16 }
    [] [0xF4#8, 0x34#8, 0x12#8]
    (fun t => t.sp == 0x01FD#16 && t.pc24 == 0x008003#24 && t.ps.toWord == 0x0000#16 &&
      seen t [(0x0001FE, 0x34#8), (0x0001FF, 0x12#8)]) = true := by decide

/-- V76 (R222): PEI #12h (the §3.2 example with data ABh, CDh). -/
theorem test_v76 : ran
    { start with sp := 0x01FF#16, dpr := 0x3400#16 }
    [(0x003412, [0xAB#8, 0xCD#8])] [0xD4#8, 0x12#8]
    (fun t => t.sp == 0x01FD#16 && t.pc24 == 0x008002#24 && t.ps.toWord == 0x0000#16 &&
      seen t [(0x0001FE, 0xAB#8), (0x0001FF, 0xCD#8)]) = true := by decide

/-- V78 (R223): PER with a negative displacement, 16-bit wrap, PG not involved. -/
theorem test_v78 : ran
    { start with sp := 0x01FF#16, pc := 0x0000#16, pg := 0x02#8 }
    [] [0x62#8, 0xF0#8, 0xFF#8]
    (fun t => t.sp == 0x01FD#16 && t.pc24 == 0x020003#24 && t.ps.toWord == 0x0000#16 &&
      seen t [(0x0001FE, 0xF3#8), (0x0001FF, 0xFF#8)]) = true := by decide

/-! ## Arithmetic -/

/-- V81 (R231): ADC, m = 0: 8000h + 8000h. -/
theorem test_v81 : ran
    { start with a := 0x8000#16 }
    [] [0x69#8, 0x00#8, 0x80#8]
    (fun t => t.a == 0x0000#16 && t.pc24 == 0x008003#24 && t.ps.toWord == 0x0043#16) = true := by decide

/-- V85 (R232): SBC, m = 0: 8000h - 0001h overflows. -/
theorem test_v85 : ran
    { start with a := 0x8000#16, ps := Psr.ofWord 0x0001#16 }
    [] [0xE9#8, 0x01#8, 0x00#8]
    (fun t => t.a == 0x7FFF#16 && t.pc24 == 0x008003#24 && t.ps.toWord == 0x0041#16) = true := by decide

/-- V86 (R231, R233): decimal ADC, m = 1: 58 + 46. -/
theorem test_v86 : ran
    { start with a := 0x0058#16, ps := Psr.ofWord 0x0028#16 }
    [] [0x69#8, 0x46#8]
    (fun t => t.a == 0x0004#16 && t.pc24 == 0x008002#24 && t.ps.c == true) = true := by decide

/-- V88 (R232, R233): decimal SBC, m = 1: 12 - 21. -/
theorem test_v88 : ran
    { start with a := 0x0012#16, ps := Psr.ofWord 0x0029#16 }
    [] [0xE9#8, 0x21#8]
    (fun t => t.a == 0x0091#16 && t.pc24 == 0x008002#24 && t.ps.z == false && t.ps.c == false) = true := by decide

/-- V90 (R234): INC mmll, m = 0: FFFFh -> 0000h, C untouched. -/
theorem test_v90 : ran
    { start with ps := Psr.ofWord 0x0001#16 }
    [(0x001000, [0xFF#8, 0xFF#8])] [0xEE#8, 0x00#8, 0x10#8]
    (fun t => t.pc24 == 0x008003#24 && t.ps.toWord == 0x0003#16 && seen t [(0x001000, 0x00#8),
      (0x001001, 0x00#8)]) = true := by decide

/-- V92 (R235): DEC dd,X, m = 1: 00h -> FFh. -/
theorem test_v92 : ran
    { start with x := 0x0001#16, ps := Psr.ofWord 0x0020#16 }
    [(0x000011, [0x00#8])] [0xD6#8, 0x10#8]
    (fun t => t.pc24 == 0x008002#24 && t.ps.toWord == 0x00A0#16 && seen t [(0x000011, 0xFF#8)]) = true := by decide

/-- V93 (R236): INX, x = 1: FFh -> 00h, X[15:8] kept. -/
theorem test_v93 : ran
    { start with x := 0x12FF#16, ps := Psr.ofWord 0x0010#16 }
    [] [0xE8#8]
    (fun t => t.x == 0x1200#16 && t.pc24 == 0x008001#24 && t.ps.toWord == 0x0012#16) = true := by decide

/-- V94 (R238): DEX, x = 0: 0000h -> FFFFh. -/
theorem test_v94 : ran
    start
    [] [0xCA#8]
    (fun t => t.x == 0xFFFF#16 && t.pc24 == 0x008001#24 && t.ps.toWord == 0x0080#16) = true := by decide

/-- V97 (R240): DIV, m = 1: upper bytes of A and B neither read nor written. -/
theorem test_v97 : ran
    { start with a := 0xDD64#16, b := 0xEE00#16, ps := Psr.ofWord 0x0020#16 }
    [] [0x89#8, 0x29#8, 0x07#8]
    (fun t => t.a == 0xDD0E#16 && t.b == 0xEE02#16 && t.pc24 == 0x008003#24 &&
      t.ps.toWord == 0x0020#16) = true := by decide

/-- V99 (R240, R342, D8): DIV by zero (direct operand), m = 1, with VEC_ZERODIV = FFFCh. -/
theorem test_v99 : ran
    { start with b := 0x0001#16, sp := 0x01FF#16, ps := Psr.ofWord 0x0223#16 }
    [(0x00FFFC, [0x00#8, 0xD0#8])] [0x89#8, 0x25#8, 0x10#8]
    (fun t => t.sp == 0x01FA#16 && t.pc24 == 0x00D000#24 && t.ps.toWord == 0x0227#16 &&
      seen t [(0x0001FB, 0x23#8), (0x0001FC, 0x02#8), (0x0001FD, 0x03#8), (0x0001FE, 0x80#8),
      (0x0001FF, 0x00#8)]) = true := by decide

/-- V100 (R241): MPY #imm, m = 1: FFh x FFh. -/
theorem test_v100 : ran
    { start with a := 0x12FF#16, b := 0x3400#16, ps := Psr.ofWord 0x0020#16 }
    [] [0x89#8, 0x09#8, 0xFF#8]
    (fun t => t.a == 0x1201#16 && t.b == 0x34FE#16 && t.pc24 == 0x008003#24 && t.ps.n == true &&
      t.ps.v == false && t.ps.z == false) = true := by decide

/-- V101 (R241): MPY #imm, m = 0: FFFFh x FFFFh. -/
theorem test_v101 : ran
    { start with a := 0xFFFF#16 }
    [] [0x89#8, 0x09#8, 0xFF#8, 0xFF#8]
    (fun t => t.a == 0x0001#16 && t.b == 0xFFFE#16 && t.pc24 == 0x008004#24 && t.ps.n == true &&
      t.ps.v == false && t.ps.z == false) = true := by decide

/-! ## Logic, compare, shift -/

/-- V103 (R250): AND, m = 0. -/
theorem test_v103 : ran
    { start with a := 0xF0F0#16 }
    [] [0x29#8, 0xFF#8, 0x0F#8]
    (fun t => t.a == 0x00F0#16 && t.pc24 == 0x008003#24 && t.ps.toWord == 0x0000#16) = true := by decide

/-- V104 (R251): ORA B, m = 1. -/
theorem test_v104 : ran
    { start with b := 0x5501#16, ps := Psr.ofWord 0x0020#16 }
    [] [0x42#8, 0x09#8, 0x80#8]
    (fun t => t.b == 0x5581#16 && t.pc24 == 0x008003#24 && t.ps.toWord == 0x00A0#16) = true := by decide

/-- V105 (R252): EOR, m = 1: result 0. -/
theorem test_v105 : ran
    { start with a := 0x005A#16, ps := Psr.ofWord 0x0020#16 }
    [] [0x49#8, 0x5A#8]
    (fun t => t.a == 0x0000#16 && t.pc24 == 0x008002#24 && t.ps.toWord == 0x0022#16) = true := by decide

/-- V106 (R253): CMP, m = 1: smaller. -/
theorem test_v106 : ran
    { start with a := 0x0010#16, ps := Psr.ofWord 0x0060#16 }
    [] [0xC9#8, 0x20#8]
    (fun t => t.pc24 == 0x008002#24 && t.ps.toWord == 0x00E0#16) = true := by decide

/-- V108 (R253): CMP ignores C and D. -/
theorem test_v108 : ran
    { start with a := 0x0002#16, ps := Psr.ofWord 0x0028#16 }
    [] [0xC9#8, 0x01#8]
    (fun t => t.pc24 == 0x008002#24 && t.ps.toWord == 0x0029#16) = true := by decide

/-- V109 (R254): CPX, x = 1: only X[7:0] compared. -/
theorem test_v109 : ran
    { start with x := 0xFF34#16, ps := Psr.ofWord 0x0010#16 }
    [] [0xE0#8, 0x34#8]
    (fun t => t.pc24 == 0x008002#24 && t.ps.toWord == 0x0013#16) = true := by decide

/-- V110 (R255): CPY dd, x = 0. -/
theorem test_v110 : ran
    { start with y := 0x0005#16 }
    [(0x000010, [0x06#8, 0x00#8])] [0xC4#8, 0x10#8]
    (fun t => t.pc24 == 0x008002#24 && t.ps.toWord == 0x0080#16) = true := by decide

/-- V111 (R257): ASL dd, m = 0. -/
theorem test_v111 : ran
    start
    [(0x000040, [0x01#8, 0x80#8])] [0x06#8, 0x40#8]
    (fun t => t.pc24 == 0x008002#24 && t.ps.toWord == 0x0001#16 && seen t [(0x000040, 0x02#8),
      (0x000041, 0x00#8)]) = true := by decide

/-- V112 (R258): LSR A, m = 0. -/
theorem test_v112 : ran
    { start with a := 0x0001#16, ps := Psr.ofWord 0x0080#16 }
    [] [0x4A#8]
    (fun t => t.a == 0x0000#16 && t.pc24 == 0x008001#24 && t.ps.toWord == 0x0003#16) = true := by decide

/-- V113 (R259): ROL B (42 2A), m = 1, C in. -/
theorem test_v113 : ran
    { start with b := 0x0080#16, ps := Psr.ofWord 0x0021#16 }
    [] [0x42#8, 0x2A#8]
    (fun t => t.b == 0x0001#16 && t.pc24 == 0x008002#24 && t.ps.toWord == 0x0021#16) = true := by decide

/-- V114 (R260): ROR mmll,X, m = 0, C in. -/
theorem test_v114 : ran
    { start with x := 0x0002#16, ps := Psr.ofWord 0x0001#16 }
    [(0x001002, [0x01#8, 0x00#8])] [0x7E#8, 0x00#8, 0x10#8]
    (fun t => t.pc24 == 0x008003#24 && t.ps.toWord == 0x0081#16 && seen t [(0x001002, 0x00#8),
      (0x001003, 0x80#8)]) = true := by decide

/-- V115 (R261): RLA #4, m = 0: no flags, C not involved. -/
theorem test_v115 : ran
    { start with a := 0x1234#16, ps := Psr.ofWord 0x0003#16 }
    [] [0x89#8, 0x49#8, 0x04#8, 0x00#8]
    (fun t => t.a == 0x2341#16 && t.pc24 == 0x008004#24 && t.ps.toWord == 0x0003#16) = true := by decide

/-- V118 (R261): RLA #9, m = 1: 9 mod 8 = 1. -/
theorem test_v118 : ran
    { start with a := 0x5581#16, ps := Psr.ofWord 0x0020#16 }
    [] [0x89#8, 0x49#8, 0x09#8]
    (fun t => t.a == 0x5503#16 && t.pc24 == 0x008003#24 && t.ps.toWord == 0x0020#16) = true := by decide

/-! ## Bits and flags -/

/-- V120 (R271): CLB mmll, m = 0. -/
theorem test_v120 : ran
    start
    [(0x001000, [0xFF#8, 0xFF#8])] [0x1C#8, 0x00#8, 0x10#8, 0x01#8, 0x80#8]
    (fun t => t.pc24 == 0x008005#24 && t.ps.toWord == 0x0000#16 && seen t [(0x001000, 0xFE#8),
      (0x001001, 0x7F#8)]) = true := by decide

/-- V121 (R272): SEB mmll, m = 1, bank DT. -/
theorem test_v121 : ran
    { start with dt := 0x03#8, ps := Psr.ofWord 0x0020#16 }
    [(0x031000, [0x10#8])] [0x0C#8, 0x00#8, 0x10#8, 0x81#8]
    (fun t => t.pc24 == 0x008004#24 && t.ps.toWord == 0x0020#16 && seen t [(0x031000, 0x91#8)]) = true := by decide

/-- V123 (R273): CLP #30h. -/
theorem test_v123 : ran
    { start with ps := Psr.ofWord 0x0734#16 }
    [] [0xC2#8, 0x30#8]
    (fun t => t.pc24 == 0x008002#24 && t.ps.toWord == 0x0704#16) = true := by decide

/-- V125 (R274): SEP #21h. -/
theorem test_v125 : ran
    start
    [] [0xE2#8, 0x21#8]
    (fun t => t.pc24 == 0x008002#24 && t.ps.toWord == 0x0021#16) = true := by decide

/-! ## Branches, jumps, returns -/

/-- V128 (R291): BCC taken, backwards onto itself. -/
theorem test_v128 : ran
    start
    [] [0x90#8, 0xFE#8]
    (fun t => t.pc24 == 0x008000#24 && t.ps.toWord == 0x0000#16) = true := by decide

/-- V130 (R292): BCS taken. -/
theorem test_v130 : ran
    { start with ps := Psr.ofWord 0x0001#16 }
    [] [0xB0#8, 0x10#8]
    (fun t => t.pc24 == 0x008012#24 && t.ps.toWord == 0x0001#16) = true := by decide

/-- V131 (R293): BEQ taken, sequential advance crosses the bank. -/
theorem test_v131 : ran
    { start with pc := 0xFFFE#16, ps := Psr.ofWord 0x0002#16 }
    [] [0xF0#8, 0x00#8]
    (fun t => t.pc24 == 0x010000#24 && t.ps.toWord == 0x0002#16) = true := by decide

/-- V132 (R294): BMI not taken. -/
theorem test_v132 : ran
    start
    [] [0x30#8, 0x40#8]
    (fun t => t.pc24 == 0x008002#24 && t.ps.toWord == 0x0000#16) = true := by decide

/-- V133 (R295): BNE taken backwards. -/
theorem test_v133 : ran
    { start with pc := 0x8010#16 }
    [] [0xD0#8, 0xFB#8]
    (fun t => t.pc24 == 0x00800D#24 && t.ps.toWord == 0x0000#16) = true := by decide

/-- V134 (R296): BPL taken backwards across a bank boundary. -/
theorem test_v134 : ran
    { start with pc := 0x0000#16, pg := 0x01#8 }
    [] [0x10#8, 0x80#8]
    (fun t => t.pc24 == 0x00FF82#24 && t.ps.toWord == 0x0000#16) = true := by decide

/-- V135 (R297): BVC not taken. -/
theorem test_v135 : ran
    { start with ps := Psr.ofWord 0x0040#16 }
    [] [0x50#8, 0x05#8]
    (fun t => t.pc24 == 0x008002#24 && t.ps.toWord == 0x0040#16) = true := by decide

/-- V136 (R298): BVS taken. -/
theorem test_v136 : ran
    { start with ps := Psr.ofWord 0x0040#16 }
    [] [0x70#8, 0x05#8]
    (fun t => t.pc24 == 0x008007#24 && t.ps.toWord == 0x0040#16) = true := by decide

/-- V139 (R299): BRAL -8000h from bank 1 into bank 0. -/
theorem test_v139 : ran
    { start with pc := 0x0000#16, pg := 0x01#8 }
    [] [0x82#8, 0x00#8, 0x80#8]
    (fun t => t.pc24 == 0x008003#24 && t.ps.toWord == 0x0000#16) = true := by decide

/-- V140 (R299, D16): BRA at the top of the address space wraps. -/
theorem test_v140 : ran
    { start with pc := 0xFFF0#16, pg := 0xFF#8 }
    [] [0x80#8, 0x10#8]
    (fun t => t.pc24 == 0x000002#24 && t.ps.toWord == 0x0000#16) = true := by decide

/-- V142 (R301): BBC mmll, m = 0: not taken (one tested bit is 1). -/
theorem test_v142 : ran
    start
    [(0x001000, [0x00#8, 0x01#8])] [0x3C#8, 0x00#8, 0x10#8, 0x00#8, 0x81#8, 0x10#8]
    (fun t => t.pc24 == 0x008006#24 && t.ps.toWord == 0x0000#16) = true := by decide

/-- V143 (R302): BBS mmll, m = 0: taken backwards. -/
theorem test_v143 : ran
    start
    [(0x001000, [0x01#8, 0x80#8])] [0x2C#8, 0x00#8, 0x10#8, 0x01#8, 0x80#8, 0xFA#8]
    (fun t => t.pc24 == 0x008000#24 && t.ps.toWord == 0x0000#16) = true := by decide

/-- V148 (R303, R138, D9): JMP (mmll): pointer read from bank BANKI = 00h, target in PG. -/
theorem test_v148 : ran
    { start with pc := 0x8000#16, pg := 0x02#8 }
    [(0x001234, [0x00#8, 0x90#8])] [0x6C#8, 0x34#8, 0x12#8]
    (fun t => t.pc24 == 0x029000#24 && t.ps.toWord == 0x0000#16) = true := by decide

/-- V149 (R303, R139, D9): JMPL (1234H) (the §3.2 example bytes). -/
theorem test_v149 : ran
    { start with pc := 0x8000#16, pg := 0x02#8 }
    [(0x001234, [0x00#8, 0x90#8, 0x05#8])] [0xDC#8, 0x34#8, 0x12#8]
    (fun t => t.pc24 == 0x059000#24 && t.ps.toWord == 0x0000#16) = true := by decide

/-- V150 (R303, R140, D9): JMP (mmll,X): pointer in bank PG, index wraps in the bank. -/
theorem test_v150 : ran
    { start with x := 0x0004#16, pc := 0x8000#16, pg := 0x02#8 }
    [(0x020002, [0x00#8, 0xA0#8])] [0x7C#8, 0xFE#8, 0xFF#8]
    (fun t => t.pc24 == 0x02A000#24 && t.ps.toWord == 0x0000#16) = true := by decide

/-- V151 (R304): JSR mmll. -/
theorem test_v151 : ran
    { start with sp := 0x01FF#16 }
    [] [0x20#8, 0x00#8, 0x90#8]
    (fun t => t.sp == 0x01FD#16 && t.pc24 == 0x009000#24 && t.ps.toWord == 0x0000#16 &&
      seen t [(0x0001FE, 0x03#8), (0x0001FF, 0x80#8)]) = true := by decide

/-- V152 (R304): JSRL hhmmll. -/
theorem test_v152 : ran
    { start with sp := 0x01FF#16, pc := 0x8000#16, pg := 0x01#8 }
    [] [0x22#8, 0x56#8, 0x34#8, 0x12#8]
    (fun t => t.sp == 0x01FC#16 && t.pc24 == 0x123456#24 && t.ps.toWord == 0x0000#16 &&
      seen t [(0x0001FD, 0x04#8), (0x0001FE, 0x80#8), (0x0001FF, 0x01#8)]) = true := by decide

/-- V153 (R304, R140): JSR (mmll,X), x = 1. -/
theorem test_v153 : ran
    { start with
      x := 0xFF02#16
      sp := 0x01FF#16
      pc := 0x8000#16
      pg := 0x01#8
      ps := Psr.ofWord 0x0010#16 }
    [(0x019002, [0x00#8, 0xA0#8])] [0xFC#8, 0x00#8, 0x90#8]
    (fun t => t.sp == 0x01FD#16 && t.pc24 == 0x01A000#24 && t.ps.toWord == 0x0010#16 &&
      seen t [(0x0001FE, 0x03#8), (0x0001FF, 0x80#8)]) = true := by decide

/-- V156 (R305): RTS keeps PG. -/
theorem test_v156 : ran
    { start with sp := 0x01FD#16, pc := 0x9000#16, pg := 0x03#8 }
    [(0x0001FE, [0x03#8, 0x80#8])] [0x60#8]
    (fun t => t.sp == 0x01FF#16 && t.pc24 == 0x038003#24 && t.ps.toWord == 0x0000#16) = true := by decide

/-- V157 (R306): RTL. -/
theorem test_v157 : ran
    { start with sp := 0x01FC#16, pc := 0x9000#16, pg := 0x12#8 }
    [(0x0001FD, [0x04#8, 0x80#8, 0x01#8])] [0x6B#8]
    (fun t => t.sp == 0x01FF#16 && t.pc24 == 0x018004#24 && t.ps.toWord == 0x0000#16) = true := by decide

/-- V158 (R307): RTI restores PS (11 bits), PC, PG. -/
theorem test_v158 : ran
    { start with sp := 0x01FA#16, pc := 0xC000#16, ps := Psr.ofWord 0x0704#16 }
    [(0x0001FB, [0x24#8, 0xFB#8, 0x34#8, 0x12#8, 0x01#8])] [0x40#8]
    (fun t => t.sp == 0x01FF#16 && t.pc24 == 0x011234#24 && t.ps.toWord == 0x0324#16) = true := by decide

/-! ## Exceptions, run state, interrupts -/

/-- V160 (R320): BRK with I = 1 is still taken. -/
theorem test_v160 : ran
    { start with sp := 0x0002#16, ps := Psr.ofWord 0x0004#16 }
    [(0x00FFFA, [0x34#8, 0x12#8])] [0x00#8, 0x55#8]
    (fun t => t.sp == 0xFFFD#16 && t.pc24 == 0x001234#24 && t.ps.toWord == 0x0004#16 &&
      seen t [(0x000000, 0x02#8), (0x000001, 0x80#8), (0x000002, 0x00#8), (0x00FFFE, 0x04#8),
      (0x00FFFF, 0x00#8)]) = true := by decide

/-- V161 (R321): NOP at the last byte of bank 0. -/
theorem test_v161 : ran
    { start with pc := 0xFFFF#16 }
    [] [0xEA#8]
    (fun t => t.pc24 == 0x010000#24 && t.ps.toWord == 0x0000#16) = true := by decide

/-- V162 (R323): WIT. -/
theorem test_v162 : ran
    { start with ps := Psr.ofWord 0x0004#16 }
    [] [0xCB#8]
    (fun t => t.pc24 == 0x008001#24 && t.ps.toWord == 0x0004#16 && t.run == .waiting) = true := by decide

/-- V163 (R322): STP. -/
theorem test_v163 : ran
    start
    [] [0xDB#8]
    (fun t => t.pc24 == 0x008001#24 && t.ps.toWord == 0x0000#16 && t.run == .stopped) = true := by decide

/-- V164 (R336, R343): maskable request of level 3 with I = 0, IPL = 2: accepted before the
instruction at pc0 runs. -/
theorem test_v164 : ran
    { start with
      sp := 0x01FF#16
      ps := Psr.ofWord 0x0220#16
      pending := [Request.mk 0 (.maskable 3#3) 0xFFF0#16] }
    [(0x00FFF0, [0x00#8, 0xE0#8])] [0xEA#8]
    (fun t => t.sp == 0x01FA#16 && t.pc24 == 0x00E000#24 && t.ps.toWord == 0x0324#16 &&
      seen t [(0x0001FB, 0x20#8), (0x0001FC, 0x02#8), (0x0001FD, 0x00#8), (0x0001FE, 0x80#8),
      (0x0001FF, 0x00#8)]) = true := by decide

/-- V167 (R336, R343, D7): watchdog (nonmaskable) with I = 1, IPL = 7: accepted; IPL <- 7 by
default. -/
theorem test_v167 : ran
    { start with
      sp := 0x01FF#16
      ps := Psr.ofWord 0x0704#16
      pending := [Request.mk 0 .nonmaskable 0xFFF6#16] }
    [(0x00FFF6, [0x00#8, 0xE1#8])] [0xEA#8]
    (fun t => t.sp == 0x01FA#16 && t.pc24 == 0x00E100#24 && t.ps.toWord == 0x0704#16 &&
      seen t [(0x0001FB, 0x04#8), (0x0001FC, 0x07#8), (0x0001FD, 0x00#8), (0x0001FE, 0x80#8),
      (0x0001FF, 0x00#8)]) = true := by decide

/-- V168 (R337): two requests: the higher level wins, the other stays pending. -/
theorem test_v168 : ran
    { start with
      sp := 0x01FF#16
      pending := [Request.mk 0 (.maskable 2#3) 0xFFF0#16, Request.mk 1 (.maskable 5#3) 0xFFEE#16] }
    [(0x00FFEE, [0x00#8, 0xE2#8, 0x00#8, 0xE0#8])] [0xEA#8]
    (fun t => t.sp == 0x01FA#16 && t.pc24 == 0x00E200#24 && t.ps.toWord == 0x0504#16 &&
      seen t [(0x0001FB, 0x00#8), (0x0001FC, 0x00#8), (0x0001FD, 0x00#8), (0x0001FE, 0x80#8),
      (0x0001FF, 0x00#8)]) = true := by decide

/-- V171 (R346): run = stopped and the watchdog request, I = 1: accepted. -/
theorem test_v171 : ran
    { start with
      sp := 0x01FF#16
      ps := Psr.ofWord 0x0004#16
      run := .stopped
      pending := [Request.mk 0 .nonmaskable 0xFFF6#16] }
    [(0x00FFF6, [0x00#8, 0xE1#8])] [0xEA#8]
    (fun t => t.sp == 0x01FA#16 && t.pc24 == 0x00E100#24 && t.ps.toWord == 0x0704#16 &&
      t.run == .running && seen t [(0x0001FB, 0x04#8), (0x0001FC, 0x00#8), (0x0001FD, 0x00#8),
      (0x0001FE, 0x80#8), (0x0001FF, 0x00#8)]) = true := by decide

/-- V6, V8, V10 (R106, R332): a blank cell of each of the three tables. -/
theorem test_undefined_encodings :
    ([[0x02#8], [0x42#8, 0x64#8, 0x10#8], [0x89#8, 0xA9#8, 0x00#8]].all fun code =>
      match step { start with mem := put [] 0x8000 code } with
      | .fault (.undefinedOpcode a b) => a == 0x8000#24 && b.isPrefixOf code
      | _ => false) = true := by decide

/-! ## Witnesses: states and operands that meet the hypotheses of the statements -/

/-- A state with code at PG :: PC and listed memory. -/
def coded (code : List Byte) : State := { start with mem := put [] 0x8000 code }

theorem witness_DecodeInvertsEncode :
    let i := Instr.bbs (.abs 0xFFFF#16) 0xFFFF#16 0x80#8
    let f : Nat → Byte := fun k => (encode false true i)[k]?.getD 0#8
    i.wellFormed false true = true ∧ ∀ k b, (encode false true i)[k]? = some b → f k = b :=
  ⟨by decide, fun _ _ h => congrArg (·.getD 0#8) h⟩

theorem witness_DecodeInvertsEncode_narrow :
    let i := Instr.lda .b (.imm 0xFF#16)
    let f : Nat → Byte := fun k => (encode true false i)[k]?.getD 0#8
    i.wellFormed true false = true ∧ ∀ k b, (encode true false i)[k]? = some b → f k = b :=
  ⟨by decide, fun _ _ h => congrArg (·.getD 0#8) h⟩

theorem witness_EncodeInvertsDecode :
    decode false false (fun k => [0x54#8, 0xFF#8, 0x00#8].getD k 0#8) = .ok (.mvn 0xFF#8 0x00#8, 3) := rfl

theorem witness_StepRunsDecodedInstruction :
    let s := coded [0xEA#8]
    resetAsserted s = false ∧ chooseRequest (boundary s) = none ∧ (boundary s).run = .running ∧
    decode (boundary s).ps.m (boundary s).ps.x (fetchByte (boundary s)) = .ok (.nop, 1) ∧
    s.schedule.headD [] = [] :=
  ⟨by decide, by decide, by decide, rfl, by decide⟩

theorem witness_UndefinedEncodingFaults :
    let s := coded [0x89#8, 0xFF#8]
    resetAsserted s = false ∧ chooseRequest (boundary s) = none ∧ (boundary s).run = .running ∧
    decode (boundary s).ps.m (boundary s).ps.x (fetchByte (boundary s)) = .error (.after89 0xFF#8) :=
  ⟨by decide, by decide, by decide, rfl⟩

/-- The lowest level that passes with IPL = 0. -/
theorem witness_StepAcceptsRequest_maskable :
    let r := Request.mk 0 (.maskable 1#3) 0xFFF0#16
    let s := { coded [0xEA#8] with pending := [r] }
    resetAsserted s = false ∧ chooseRequest (boundary s) = some r ∧ Memory.wf s.mem = true := by decide

/-- The watchdog with I = 1 and IPL = 7. -/
theorem witness_StepAcceptsRequest_nonmaskable :
    let r := Request.mk 0 .nonmaskable 0xFFF6#16
    let s := { coded [0xEA#8] with pending := [r], ps := Psr.ofWord 0x0704#16 }
    resetAsserted s = false ∧ chooseRequest (boundary s) = some r ∧ Memory.wf s.mem = true := by decide

/-- Both outcomes of the choice: a request of the level in IPL does not pass, one above it does. -/
theorem witness_ChosenRequestIsHighest :
    let q := Request.mk 0 (.maskable 2#3) 0xFFF0#16
    let r := Request.mk 1 (.maskable 3#3) 0xFFEE#16
    let p := Psr.ofWord 0x0200#16
    chooseRequest { start with pending := [q], ps := p } = none ∧
    chooseRequest { start with pending := [q, r], ps := p } = some r := by decide

theorem witness_WaitingAndStoppedStay (w : Bool) :
    let s : State := { start with
      run := if w then .waiting else .stopped
      ps := Psr.ofWord 0x0004#16
      pending := [Request.mk 0 (.maskable 7#3) 0xFFF0#16] }
    resetAsserted s = false ∧ (∀ r ∈ (boundary s).pending, ¬ Passes (boundary s) r) ∧
    (s.run = .waiting ∨ s.run = .stopped) ∧ s.schedule = [] := by
  refine ⟨rfl, ?_, by cases w <;> simp, rfl⟩
  intro r hr hp
  cases List.mem_singleton.1 hr
  rcases hp with h | ⟨_, _, h, _⟩
  · cases h
  · cases h

/-- A boundary with two resets, and requests presented before, between and after them. -/
theorem witness_ResetTransition :
    let r := Request.mk 0 (.maskable 7#3) 0xFFF0#16
    let before := [PlatformMove.request r, .reset [r], .watchdog 1]
    let after := [PlatformMove.watchdog 2, .request r]
    let s : State := { start with
      run := .stopped, schedule := [before ++ PlatformMove.reset [r, r] :: after, []] }
    s.schedule = (before ++ PlatformMove.reset [r, r] :: after) :: [[]] ∧
    after.any PlatformMove.isReset = false := ⟨rfl, rfl⟩

/-- R52, R335: one request presented three times, at two boundaries, is pending once, and gone once it is
accepted. -/
theorem test_pending_is_a_set :
    let r := Request.mk 0 (.maskable 7#3) 0xFFF0#16
    let s := { coded [0xEA#8] with
      ps := Psr.ofWord 0x0004#16, schedule := [[.request r, .request r], [.request r]] }
    (match stepMany 2 s with
      | .next t => t.pending == [r] &&
        (match step { t with ps := Psr.ofWord 0x0000#16 } with
          | .next u => u.pending == []
          | _ => false)
      | _ => false) = true := by decide

/-- R18: WIT with nothing more presented ends the run; with a request to come it does not; a designated
address does. -/
theorem test_end_of_run :
    let r := Request.mk 0 (.maskable 7#3) 0xFFF0#16
    let s := coded [0xCB#8]
    (match runFor [] 9 s with
      | .next t => t.run == .waiting && t.draws == s.draws + 2
      | _ => false) = true ∧
    runEnded [] { s with run := .waiting, schedule := [[], [.request r]] } = false ∧
    runEnded [0x8000#24] s = true ∧ runEnded [0x8001#24] s = false := by decide

theorem witness_EndOfRun :
    let s : State := { start with run := .waiting, ps := Psr.ofWord 0x0004#16, schedule := [[], []]
                                  pending := [Request.mk 0 (.maskable 7#3) 0xFFF0#16] }
    s.run ≠ .running ∧ runEnded [] s = true ∧
    runEnded [] (coded [0xEA#8]) = false ∧ ∃ t, step (coded [0xEA#8]) = .next t :=
  ⟨by decide, by decide, by decide, _, rfl⟩

/-- The byte after the instruction is one that the queue may hold. -/
theorem witness_StepKeepsInvariant :
    let s : State := { coded [0xEA#8] with stale := [(0x8002, 0x5A#8)] }
    s.Inv ∧ ∃ t, step s = .next t := ⟨⟨by decide, by decide, by decide⟩, _, rfl⟩

theorem witness_StepKeepsParameters : ∃ t, step (coded [0xEA#8]) = .next t := ⟨_, rfl⟩

/-- PUL of everything but PS, the widest form that pulls no PS. -/
theorem witness_ModeBitWriters :
    let i := Instr.pul 0x7F#8
    (∃ t, exec i start = .next t) ∧ i.pullsPs = false ∧ (∀ v, i ≠ .sep v) ∧ (∀ v, i ≠ .clp v) ∧
    i ≠ .sem ∧ i ≠ .clm ∧ i ≠ .sei ∧ i ≠ .cli ∧ (∀ n, i ≠ .brk n) ∧ (∀ o, i ≠ .div o) ∧
    (∀ k, i ≠ .divl k) :=
  ⟨⟨_, rfl⟩, by decide, fun _ => by simp, fun _ => by simp, by decide, by decide, by decide, by decide,
    fun _ => by simp, fun _ => by simp, fun _ => by simp⟩

theorem witness_UnlistedInstructionsKeepPs :
    (∃ t, exec (.mvp 0#8 0#8) start = .next t) ∧ (Instr.mvp 0#8 0#8).keepsPs = true := ⟨⟨_, rfl⟩, rfl⟩

/-- NOP writes no register, PUL of nothing neither. -/
theorem witness_RegisterWriters :
    let i := Instr.pul 0x40#8
    (∃ t, exec i start = .next t) ∧ i.writesA = false ∧ i.writesB = false ∧ i.writesX = false ∧
    i.writesY = false ∧ i.writesDt = false ∧ i.writesDpr = false ∧ Instr.nop.writesS = false :=
  ⟨⟨_, rfl⟩, by decide, by decide, by decide, by decide, by decide, by decide, by decide⟩

theorem witness_ProgramCounterKept :
    (∃ t, exec .pha start = .next t) ∧ Instr.pha.transfersControl = false := ⟨⟨_, rfl⟩, rfl⟩

theorem witness_NonStoringKeepMemory :
    (∃ t, exec (.inc (.acc .b)) start = .next t) ∧ (Instr.inc (.acc .b)).stores = false := ⟨⟨_, rfl⟩, rfl⟩

/-- At the top of the address space, where the second byte is at 000000h. -/
theorem witness_WordsAreLittleEndian :
    Memory.wf (coded [0xEA#8]).mem = true ∧ mapKind start 0xFFFFFF#24 = .ram ∧
    mapKind start (0xFFFFFF#24 + 1#24) = .ram := by decide

/-- The last of the three bytes, and an address that nothing is held for. -/
theorem witness_InstructionQueueHazard :
    (0x8002, 0x5A#8) ∈ (busWrite 0x8002#24 0x11#8 (coded [0xEA#8, 0x00#8, 0x5A#8])).stale ∧
    (busWrite 0x8003#24 0x11#8 start).stale = [] ∧
    ∀ b, ((0x8000#24).toNat, b) ∉ start.stale := ⟨by decide, by decide, fun _ => by simp [start, State.reset]⟩

theorem witness_StoreResults : Memory.wf (coded [0xEA#8, 0x01#8]).mem = true := by decide

theorem witness_BlockMoves : Memory.wf (coded [0x54#8, 0x01#8]).mem = true := by decide

/-- The three cases of R198 at the ends of their ranges. -/
theorem witness_BlockElementAddresses :
    (let s := { start with ps := Psr.ofWord 0x0010#16 }
     s.ps.x = true ∧ (blockAddr 0x01#8 0x00FF#16 (BitVec.ofNat 24 1) s).toNat = 0x010000) ∧
    (start.ps.x = false ∧ start.par.blockWrap = .carry ∧
      (blockAddr 0xFF#8 0xFFFF#16 (BitVec.ofNat 24 1) start).toNat = 0) ∧
    (let s := { start with par := { start.par with blockWrap := .wrap } }
     s.ps.x = false ∧ s.par.blockWrap = .wrap ∧
      (blockAddr 0xFF#8 0x0000#16 (-BitVec.ofNat 24 1) s).toNat = 0xFFFFFF) := by decide

theorem witness_PushResults : Memory.wf (coded [0x48#8]).mem = true := by decide

theorem witness_PshStores : Memory.wf (coded [0xEB#8, 0xFF#8]).mem = true := by decide

/-- All registers that PUL restores, from a stack that wraps. -/
theorem witness_PulUndoesPsh :
    Memory.wf start.mem = true ∧ StackIsRam start ∧ (0xBF#8 : Byte).getLsbD 6 = false ∧
    ∃ t u, exec (.psh 0xBF#8) start = .next t ∧ exec (.pul 0xBF#8) t = .next u :=
  ⟨by decide, fun _ => rfl, by decide, _, _, rfl, rfl⟩

theorem witness_BinaryAddAndSubtract : start.ps.d = false := rfl

theorem witness_DecimalAddAndSubtract :
    let s := { start with a := 0x9999#16, ps := Psr.ofWord 0x0008#16 }
    s.ps.d = true ∧ bcdOk (BitVec.ofNat 16 (accNum .a s)) = true ∧
    bcdOk (BitVec.ofNat 16 (opNum s.ps.m (.imm 0x0001#16) s)) = true := by decide

theorem witness_IncrementAndDecrement : Memory.wf (coded [0x3A#8]).mem = true := by decide

/-- The largest dividend whose quotient fits, and the next one. -/
theorem witness_Division :
    let s := { start with a := 0x00FF#16, b := 0x00FE#16, ps := Psr.ofWord 0x0020#16 }
    let t := { start with a := 0x0000#16, b := 0x00FF#16, ps := Psr.ofWord 0x0020#16 }
    opNum true (.imm 0xFF#16) s = 255 ∧
    accNum .b s * span true + accNum .a s + 1 = 255 * span true ∧
    accNum .b t * span true + accNum .a t = 255 * span true := by decide

theorem witness_ZeroDivision :
    Memory.wf start.mem = true ∧ opNum start.ps.m (.imm 0#16) start = 0 ∧
    memNum start.ps.m (.long 0x10#8) start = 0 := by decide

theorem witness_ShiftsAndRotates : Memory.wf (coded [0x0A#8]).mem = true := by decide

theorem witness_MemoryBits : Memory.wf (coded [0x14#8]).mem = true := by decide

theorem witness_CallAndReturnResults : Memory.wf (coded [0x20#8]).mem = true := by decide

theorem witness_CallReturnsToCaller :
    Memory.wf start.mem = true ∧ StackIsRam start ∧
    (∃ t u, exec (.jsr (.indX 0xFFFF#16)) start = .next t ∧ exec .rts { t with pc := 0#16 } = .next u) ∧
    ∃ t u, exec (.jsrl 0xFFFFFF#24) start = .next t ∧
      exec .rtl { t with pc := 0#16, pg := 0xFF#8 } = .next u :=
  ⟨by decide, fun _ => rfl, ⟨_, _, rfl, rfl⟩, _, _, rfl, rfl⟩

theorem witness_BreakAndReturnResults : Memory.wf (coded [0x00#8, 0xEA#8]).mem = true := by decide

theorem witness_HandlerReturnsToInterrupted :
    Memory.wf start.mem = true ∧ StackIsRam start ∧
    ∃ t u, exec (.brk 0#8) start = .next t ∧
      exec .rti { t with pc := 0#16, pg := 0#8, ps := Psr.ofWord 0x07FF#16 } = .next u :=
  ⟨by decide, fun _ => rfl, _, _, rfl, rfl⟩

end Sys2Proof.Tests
end

section
/-! PROOFS. The scope of the machine (00_scope.md): what a step leaves to the platform (R7, R17), the
instruction step (R19), and the end of a run (R18). -/

namespace Sys2Proof.Proofs

open Sys2Proof.Machine Sys2Proof.Laws

/-! ## What no instruction writes -/

/-- The fields that belong to the platform and to the model's bookkeeping: the pending requests, the
platform's future moves, the draw counter and the parameters. -/
def platformPart (s : State) : List Request × List (List PlatformMove) × Nat × Config.Params :=
  (s.pending, s.schedule, s.draws, s.par)

theorem platformPart_eq_iff {s t : State} :
    platformPart t = platformPart s ↔
      t.pending = s.pending ∧ t.schedule = s.schedule ∧ t.draws = s.draws ∧ t.par = s.par := by
  simp [platformPart]

@[simp] theorem platformPart_writeData (w : Width) (a : Addr) (v : Word) (s : State) :
    platformPart (writeData w a v s) = platformPart s := by simp [platformPart]

@[simp] theorem platformPart_loadAcc (r : Acc) (v : Word) (s : State) :
    platformPart (loadAcc r v s) = platformPart s := by simp [platformPart]

@[simp] theorem platformPart_push8 (v : Byte) (s : State) :
    platformPart (push8 v s) = platformPart s := by simp [platformPart]

@[simp] theorem platformPart_push16 (v : Word) (s : State) :
    platformPart (push16 v s) = platformPart s := by simp [platformPart]

@[simp] theorem platformPart_pushData (w : Width) (v : Word) (s : State) :
    platformPart (pushData w v s) = platformPart s := by simp [platformPart]

@[simp] theorem platformPart_branchIf (taken : Bool) (d : Addr) (s : State) :
    platformPart (branchIf taken d s) = platformPart s := by simp [platformPart]

@[simp] theorem platformPart_putArith (r : Acc) (o : ArithOut) (s : State) :
    platformPart (putArith r o s) = platformPart s := by simp [platformPart, putArith]

@[simp] theorem platformPart_modifyTarget (t : Target) (f : Word → Word) (s : State) :
    platformPart (modifyTarget t f s) = platformPart s := by simp [platformPart, modifyTarget]

@[simp] theorem platformPart_divide (v : Word) (s : State) :
    platformPart (divide v s) = platformPart s := by
  obtain ⟨-, h⟩ | ⟨-, h⟩ | ⟨-, q, r, h⟩ := divide_cases v s
  · simp [platformPart, h]
  · simp [platformPart, h, divideOverflows]
  · simp [platformPart, h, divideFits]

@[simp] theorem platformPart_compareAt (w : Width) (a v : Word) (s : State) :
    platformPart (compareAt w a v s) = platformPart s := by simp [platformPart, compareAt]

@[simp] theorem platformPart_shiftBy (f : Width → Word → Bool → ShiftOut) (t : Target) (s : State) :
    platformPart (shiftBy f t s) = platformPart s := by simp [platformPart, shiftBy]

@[simp] theorem platformPart_onBit (bit : Bool) (f : State → State) (s : State)
    (hf : platformPart (f s) = platformPart s) :
    platformPart (onBit bit f s) = platformPart s := onBit_keeps platformPart bit f s hf

@[simp] theorem platformPart_pulAcc (r : Acc) (s : State) :
    platformPart (pulAcc r s) = platformPart s := by simp [platformPart, pulAcc]

@[simp] theorem platformPart_pulX (s : State) : platformPart (pulX s) = platformPart s := by
  simp [platformPart, pulX]

@[simp] theorem platformPart_pulY (s : State) : platformPart (pulY s) = platformPart s := by
  simp [platformPart, pulY]

@[simp] theorem platformPart_pulDpr (s : State) : platformPart (pulDpr s) = platformPart s := by
  simp [platformPart, pulDpr]

@[simp] theorem platformPart_pulDt (s : State) : platformPart (pulDt s) = platformPart s := by
  simp [platformPart, pulDt]

@[simp] theorem platformPart_pulPs (s : State) : platformPart (pulPs s) = platformPart s := by
  simp [platformPart, pulPs]

@[simp] theorem platformPart_pulOpenB (s : State) : platformPart (pulOpenB s) = platformPart s := by
  simp [platformPart, pulOpenB]

/-- What the state that an instruction answers has of the platform, the next state has. -/
theorem platformPart_of_next {s t u : State} (h : (.next u : Result) = .next t)
    (hu : platformPart u = platformPart s) : platformPart t = platformPart s := by
  cases h
  exact hu

/-- No instruction writes the platform's part of the state (R7, R17). The instructions are grouped by the
operation that their rule ends in. -/
theorem exec_platformPart (i : Instr) (s t : State) (h : exec i s = .next t) :
    platformPart t = platformPart s := by
  cases i with
  | lda | ldal | tda | tdb | tsa | tsb | txa | txb | tya | tyb
  | and | andl | ora | oral | eor | eorl =>
    exact platformPart_of_next h (platformPart_loadAcc _ _ _)
  | ldm | sta | stal | stx | sty | clb | seb =>
    exact platformPart_of_next h (platformPart_writeData _ _ _ _)
  | adc | adcl | sbc | sbcl => exact platformPart_of_next h (platformPart_putArith _ _ _)
  | inc | dec => exact platformPart_of_next h (platformPart_modifyTarget _ _ _)
  | asl | lsr | rol | ror => exact platformPart_of_next h (platformPart_shiftBy _ _ _)
  | cmp | cmpl | cpx | cpy => exact platformPart_of_next h (platformPart_compareAt _ _ _ _)
  | div | divl => exact platformPart_of_next h (platformPart_divide _ _)
  | pha | phb | phx | phy => exact platformPart_of_next h (platformPart_pushData _ _ _)
  | bcc | bcs | beq | bmi | bne | bpl | bvc | bvs | bra | bral | bbc | bbs =>
    exact platformPart_of_next h (platformPart_branchIf _ _ _)
  | xab | rla | mpy | mpyl | mvn | mvp | pla | plb | brk | rti =>
    exact platformPart_of_next h (by simp [platformPart])
  | psh | pul => exact platformPart_of_next h (by simp)
  | jmp op | jmpl op | jsr op => cases op <;> exact platformPart_of_next h (by simp [platformPart])
  | ldt | ldx | ldy | tad | tas | tax | tay | tbd | tbs | tbx | tby | tsx | txs | txy | tyx
  | phd | phg | php | pht | pld | plp | plt | plx | ply | pea | pei | per
  | inx | iny | dex | dey
  | clp | sep | clc | sec | cli | sei | clm | sem | clv
  | jsrl | rts | rtl | nop | stp | wit =>
    exact platformPart_of_next h (by simp [platformPart])

/-! ## The step (R7, R17, R19) -/

@[simp] theorem boundary_par (s : State) : (boundary s).par = s.par := platformMoves_par _ _

@[simp] theorem boundary_schedule (s : State) : (boundary s).schedule = s.schedule.tail :=
  platformMoves_schedule _ _

@[simp] theorem acceptRequest_par (r : Request) (s : State) : (acceptRequest r s).par = s.par := by
  simp [acceptRequest]

@[simp] theorem acceptRequest_schedule (r : Request) (s : State) :
    (acceptRequest r s).schedule = s.schedule := by simp [acceptRequest]

@[simp] theorem enterInstr_par (len : Nat) (s : State) : (enterInstr len s).par = s.par := rfl

@[simp] theorem enterInstr_schedule (len : Nat) (s : State) :
    (enterInstr len s).schedule = s.schedule := rfl

/-- Settles O15, by the cases of the step: the boundary takes the entry of the schedule; a reset and a
waiting CPU answer the boundary state, and neither an accepted request nor an instruction writes the
schedule or a parameter. -/
theorem stepKeepsParameters : Obligations.StepKeepsParameters := by
  intro s t h
  obtain ⟨-, hs⟩ | ⟨-, ⟨r, -, hs⟩ | ⟨-, -, hs⟩ | ⟨-, -, ⟨e, -, hs⟩ | ⟨i, len, -, hs⟩⟩⟩ := step_cases s
  all_goals rw [hs] at h
  case inl | inr.inl | inr.inr.inl => cases h; simp
  case inr.inr.inr.inl => cases h
  case inr.inr.inr.inr =>
    obtain ⟨-, hsch, -, hpar⟩ := platformPart_eq_iff.1 (exec_platformPart i _ t h)
    simp [hsch, hpar]

/-- PG :: PC past the instruction's bytes, modulo 2^24 (R31, decision D16). -/
theorem enterInstr_pc24_toNat (len : Nat) (s : State) :
    (enterInstr len s).pc24.toNat = (s.pc24.toNat + len) % 2 ^ 24 := by
  have h : (enterInstr len s).pc24 = s.pc24 + BitVec.ofNat 24 len := mkAddr_bankOf_offOf _
  rw [h, BitVec.toNat_add, BitVec.toNat_ofNat, Nat.add_mod_mod]

/-- Entering an instruction moves PG :: PC, prunes the queue's earlier contents and draws once. -/
theorem enterInstr_eq (len : Nat) (s : State) :
    enterInstr len s =
      { s with
        pg := (enterInstr len s).pg
        pc := (enterInstr len s).pc
        stale := (enterInstr len s).stale
        draws := s.draws + 1 } := rfl

/-- A step that neither a reset, nor a request, nor the run state diverts is an instruction step. -/
theorem step_eq_instrStep {s : State} (hreset : resetAsserted s = false)
    (hchoose : chooseRequest (boundary s) = none) (hrun : (boundary s).run = .running) :
    step s = instrStep (boundary s) := by
  simp [step, hreset, cpuStep, hchoose, hrun]

theorem instrStep_of_decodes {s : State} {i : Instr} {len : Nat} (h : fetchDecode s = .ok (i, len)) :
    instrStep s = exec i (enterInstr len s) := by
  rw [instrStep, h]

theorem boundary_of_no_moves {s : State} (h : movesNow s = []) :
    boundary s = { s with schedule := s.schedule.tail, draws := s.draws + 1 } := by
  rw [boundary, h, platformMoves]

/-- Settles O4: the step is an instruction step, and entering the instruction is what the statement says. -/
theorem stepRunsDecodedInstruction : Obligations.StepRunsDecodedInstruction := by
  intro s i len hreset hchoose hrun hdecode
  refine ⟨?_, enterInstr_pc24_toNat len _, enterInstr_eq len _, boundary_of_no_moves⟩
  rw [step_eq_instrStep hreset hchoose hrun, instrStep_of_decodes hdecode]

/-! ## The end of a run (R18) -/

theorem acceptable_iff_passes (s : State) (r : Request) : acceptable s r = true ↔ Passes s r := by
  cases h : r.level <;> simp [acceptable, Passes, h, BitVec.lt_def]

/-- The CPU is suspended, the platform makes no further move, and no pending request passes. -/
theorem suspendedForGood_iff (s : State) :
    suspendedForGood s = true ↔
      s.run ≠ .running ∧ (∀ moves ∈ s.schedule, moves = []) ∧ ∀ r ∈ s.pending, ¬ Passes s r := by
  simp [suspendedForGood, platformQuiet, candidates, ← acceptable_iff_passes, and_assoc]

theorem exitReached_iff (exits : List Addr) (s : State) :
    exitReached exits s = true ↔ s.run = .running ∧ s.pc24 ∈ exits := by
  simp [exitReached]

theorem runEnded_iff (exits : List Addr) (s : State) :
    runEnded exits s = true ↔ suspendedForGood s = true ∨ exitReached exits s = true := by
  simp [runEnded]

/-- A suspended CPU that nothing will resume is still so after one of its steps. -/
theorem suspendedForGood_tail {s : State} (h : suspendedForGood s = true) :
    suspendedForGood { s with schedule := s.schedule.tail, draws := s.draws + 1 } = true := by
  rw [suspendedForGood_iff] at h ⊢
  obtain ⟨hrun, hquiet, hpending⟩ := h
  exact ⟨hrun, fun moves hm => hquiet moves (List.mem_of_mem_tail hm), hpending⟩

/-- Any number of steps of a state that nothing will resume (R18, R346). -/
theorem stepMany_suspendedForGood (n : Nat) {s : State} (h : suspendedForGood s = true) :
    stepMany n s = .next { s with schedule := s.schedule.drop n, draws := s.draws + n } := by
  induction n generalizing s with
  | zero => rfl
  | succ n ih =>
    rw [stepMany, step_suspendedForGood h]
    refine (ih (suspendedForGood_tail h)).trans ?_
    simp [Nat.add_assoc, Nat.add_comm 1 n]

theorem runFor_of_ended {exits : List Addr} {s : State} (h : runEnded exits s = true) (n : Nat) :
    runFor exits n s = .next s := by
  cases n <;> simp [runFor, h]

theorem runFor_succ_of_next {exits : List Addr} {s t : State} (h : runEnded exits s = false)
    (hs : step s = .next t) (n : Nat) : runFor exits (n + 1) s = runFor exits n t := by
  simp [runFor, h, hs]

/-- Settles O60: that an end by WIT or STP lasts is an induction on the number of steps
(`stepMany_suspendedForGood`); the rest reads off the definitions of the end and of a bounded run. -/
theorem endOfRun : Obligations.EndOfRun := by
  intro exits s
  refine ⟨?_, fun hrun hend n => ?_, fun n => ⟨fun h => runFor_of_ended h n,
    fun t h hs => runFor_succ_of_next h hs n⟩⟩
  · rw [runEnded_iff, suspendedForGood_iff, exitReached_iff]
  · have hexit : ¬ exitReached exits s = true := fun h => hrun ((exitReached_iff exits s).1 h).1
    exact stepMany_suspendedForGood n (((runEnded_iff exits s).1 hend).resolve_right hexit)

end Sys2Proof.Proofs
end

section
/-! PROOFS. The invariant of the machine (10_state.md R52; 20_memory.md R60, R79; R335): each operation, each
instruction and so every step keeps it. -/

namespace Sys2Proof.Proofs

open Sys2Proof.Machine Sys2Proof.Laws

/-- What holds of the state that an instruction answers holds of the next state. -/
theorem of_next {P : State → Prop} {t u : State} (h : (.next u : Result) = .next t) (hu : P u) : P t := by
  cases h
  exact hu

/-! ## The invariant: what it says, and what leaves it alone (R52, R60, R79) -/

theorem staleNear_iff (s : State) :
    staleNear s = true ↔ ∀ c ∈ s.stale, c.1 < 2 ^ 24 ∧ inQueueWindow s (BitVec.ofNat 24 c.1) = true := by
  simp [staleNear]

/-- The queue's window moves with PG :: PC alone. -/
theorem inQueueWindow_congr {s t : State} (h : t.pc24 = s.pc24) (a : Addr) :
    inQueueWindow t a = inQueueWindow s a := by
  rw [inQueueWindow, inQueueWindow, h]

/-- All that the invariant speaks of: memory, the queue's earlier contents, PG :: PC and the pending
requests. -/
def invPart (s : State) : List Host.Cell × List Host.Cell × Addr × List Request :=
  (s.mem, s.stale, s.pc24, s.pending)

theorem inv_of_invPart {s t : State} (hs : s.Inv) (h : invPart t = invPart s) : t.Inv := by
  obtain ⟨hmem, hstale, hpc, hpend⟩ : t.mem = s.mem ∧ t.stale = s.stale ∧ t.pc24 = s.pc24 ∧
      t.pending = s.pending := by simpa [invPart] using h
  obtain ⟨hwf, hnear, hset⟩ := hs
  refine ⟨hmem ▸ hwf, ?_, hpend ▸ hset⟩
  rw [staleNear_iff] at hnear ⊢
  simpa only [hstale, inQueueWindow_congr hpc] using hnear

/-- With nothing held for the queue, the invariant is canonical memory and a set of requests. -/
theorem inv_of_stale_nil {s : State} (hwf : Memory.wf s.mem = true) (hset : s.pending.Nodup)
    (hstale : s.stale = []) : s.Inv :=
  ⟨hwf, by rw [staleNear, hstale]; rfl, hset⟩

/-! ## The invariant under each operation -/

/-- A store adds one earlier content at most, its own, and that only inside the window (R79). -/
theorem mem_staleAfter {a : Addr} {s : State} {c : Host.Cell} (h : c ∈ staleAfter a s) :
    c ∈ s.stale ∨ (inQueueWindow s a = true ∧ c = (a.toNat, memRead s.mem a.toNat)) := by
  unfold staleAfter at h
  cases hk : mapKind s a with
  | ram =>
    by_cases hq : inQueueWindow s a = true
    · simpa [hk, hq, or_comm] using h
    · exact .inl (by simpa [hk, hq] using h)
  | rom | io | unmapped => exact .inl (by simpa [hk] using h)

theorem inv_busWrite {s : State} (hs : s.Inv) (a : Addr) (v : Byte) : (busWrite a v s).Inv := by
  obtain ⟨hwf, hnear, hset⟩ := hs
  refine ⟨busWrite_wf hwf a v, ?_, hset⟩
  have hwin : ∀ b, inQueueWindow (busWrite a v s) b = inQueueWindow s b := inQueueWindow_congr rfl
  rw [staleNear_iff] at hnear ⊢
  intro c hc
  rw [hwin]
  obtain hold | ⟨hq, rfl⟩ := mem_staleAfter hc
  · exact hnear c hold
  · exact ⟨a.isLt, by rwa [ofNat_toNat_addr]⟩

theorem inv_writeData {s : State} (hs : s.Inv) (w : Width) (a : Addr) (v : Word) :
    (writeData w a v s).Inv := by
  cases w with
  | byte => exact inv_busWrite hs a _
  | word => exact inv_busWrite (inv_busWrite hs a _) _ _

theorem inv_push8 {s : State} (hs : s.Inv) (v : Byte) : (push8 v s).Inv :=
  inv_of_invPart (inv_busWrite hs (zx24 s.sp) v) rfl

theorem inv_push16 {s : State} (hs : s.Inv) (v : Word) : (push16 v s).Inv :=
  inv_push8 (inv_push8 hs _) _

theorem inv_pushData {s : State} (hs : s.Inv) (w : Width) (v : Word) : (pushData w v s).Inv := by
  cases w with
  | byte => exact inv_push8 hs _
  | word => exact inv_push16 hs v

/-- A control transfer refills the queue from memory (R79). -/
theorem inv_jumpTo {s : State} (hs : s.Inv) (p : Addr) : (jumpTo p s).Inv :=
  inv_of_stale_nil hs.1 hs.2.2 rfl

theorem inv_branchIf {s : State} (hs : s.Inv) (taken : Bool) (d : Addr) : (branchIf taken d s).Inv := by
  cases taken with
  | false => exact hs
  | true => exact inv_jumpTo hs _

theorem inv_enterException {s : State} (hs : s.Inv) (ret : Addr) (vector : Word)
    (ipl : Option (BitVec 3)) : (enterException ret vector ipl s).Inv :=
  inv_of_stale_nil (enterException_wf hs.1 ret vector ipl) (by simpa using hs.2.2) rfl

theorem inv_moveBytes (src dst : Nat → Addr) {s : State} (hs : s.Inv) :
    ∀ n : Nat, (moveBytes src dst n s).Inv
  | 0 => hs
  | n + 1 => inv_busWrite (inv_moveBytes src dst hs n) _ _

/-- The registers that end a block transfer are no part of the invariant. -/
theorem inv_blockMove (src dst : Nat → Addr) {s : State} (hs : s.Inv) (n : Nat) (n1 : Byte) (d : Word) :
    (blockEnd n1 d (moveBytes src dst n s)).Inv :=
  inv_of_invPart (inv_moveBytes src dst hs n) (by simp [invPart, State.pc24])

theorem inv_targetWrite {s : State} (hs : s.Inv) (tg : Target) (v : Word) : (targetWrite tg v s).Inv := by
  cases tg with
  | acc r => exact inv_of_invPart hs (by simp [invPart, State.pc24, targetWrite])
  | mem k => exact inv_writeData hs _ _ _

theorem inv_modifyTarget {s : State} (hs : s.Inv) (tg : Target) (f : Word → Word) :
    (modifyTarget tg f s).Inv :=
  inv_of_invPart (inv_targetWrite hs tg _) rfl

theorem inv_shiftBy {s : State} (hs : s.Inv) (f : Width → Word → Bool → ShiftOut) (tg : Target) :
    (shiftBy f tg s).Inv :=
  inv_of_invPart (inv_targetWrite hs tg _) rfl

theorem inv_divide {s : State} (hs : s.Inv) (v : Word) : (divide v s).Inv := by
  obtain ⟨-, h⟩ | ⟨-, h⟩ | ⟨-, q, r, h⟩ := divide_cases v s
  · exact h ▸ inv_enterException hs _ _ _
  · exact h ▸ inv_of_invPart hs (by simp [invPart, State.pc24, divideOverflows])
  · exact h ▸ inv_of_invPart hs (by simp [invPart, State.pc24, divideFits])

theorem inv_onBit {s : State} (hs : s.Inv) {bit : Bool} {f : State → State}
    (hf : s.Inv → (f s).Inv) : (onBit bit f s).Inv := by
  cases bit with
  | false => exact hs
  | true => exact hf hs

theorem invPart_onBit (bit : Bool) (f : State → State) (s : State) (h : invPart (f s) = invPart s) :
    invPart (onBit bit f s) = invPart s := onBit_keeps invPart bit f s h

/-! ## The invariant under each instruction -/

/-- Everything a PUL does is done to registers (R217, R218). -/
theorem invPart_pul (s : State) :
    (∀ r, invPart (pulAcc r s) = invPart s) ∧ invPart (pulX s) = invPart s ∧ invPart (pulY s) = invPart s ∧
    invPart (pulDpr s) = invPart s ∧ invPart (pulDt s) = invPart s ∧ invPart (pulPs s) = invPart s ∧
    invPart (pulOpenB s) = invPart s := by
  refine ⟨fun r => ?_, rfl, rfl, rfl, rfl, rfl, rfl⟩
  simp [invPart, State.pc24, pulAcc]

/-- Every instruction keeps the invariant. The instructions are grouped by what they do to memory and to
PG :: PC: stores, pushes, read-modify-writes, control transfers, and last those that do neither. -/
theorem exec_inv {i : Instr} {s t : State} (hs : s.Inv) (h : exec i s = .next t) : t.Inv := by
  cases i with
  | ldm | sta | stal | stx | sty | clb | seb => exact of_next h (inv_writeData hs _ _ _)
  | mvn | mvp => exact of_next h (inv_blockMove _ _ hs _ _ _)
  | inc | dec => exact of_next h (inv_modifyTarget hs _ _)
  | asl | lsr | rol | ror => exact of_next h (inv_shiftBy hs _ _)
  | phg | pht => exact of_next h (inv_push8 hs _)
  | phd | php | pea | pei | per => exact of_next h (inv_push16 hs _)
  | pha | phb | phx | phy => exact of_next h (inv_pushData hs _ _)
  | psh nn =>
    refine of_next h ?_
    refine inv_onBit ?_ (inv_push16 · _)
    refine inv_onBit ?_ (inv_push8 · _)
    refine inv_onBit ?_ (inv_push8 · _)
    refine inv_onBit ?_ (inv_push16 · _)
    refine inv_onBit ?_ (inv_pushData · _ _)
    refine inv_onBit ?_ (inv_pushData · _ _)
    refine inv_onBit ?_ (inv_pushData · _ _)
    exact inv_onBit hs (inv_pushData · _ _)
  | bcc | bcs | beq | bmi | bne | bpl | bvc | bvs | bra | bral | bbc | bbs =>
    exact of_next h (inv_branchIf hs _ _)
  | jmp op | jmpl op => cases op <;> exact of_next h (inv_jumpTo hs _)
  | jsr op => cases op <;> exact of_next h (inv_jumpTo (inv_push16 hs _) _)
  | jsrl => exact of_next h (inv_jumpTo (inv_push16 (inv_push8 hs _) _) _)
  | rts | rtl | rti => exact of_next h (inv_of_stale_nil hs.1 hs.2.2 rfl)
  | brk => exact of_next h (inv_enterException hs _ _ _)
  | div | divl => exact of_next h (inv_divide hs _)
  | pul nn =>
    exact of_next h (inv_of_invPart hs (by simp [invPart_onBit, invPart_pul]))
  | ldx | ldy | tax | tay | tbx | tby | tsx | txy | tyx | inx | iny | dex | dey | pld | plp | plt | plx | ply
  | ldt | tad | tas | tbd | tbs | txs | cmp | cmpl | cpx | cpy | clp | sep | clc | sec | cli | sei | clm
  | sem | clv | nop | stp | wit =>
    exact of_next h (inv_of_invPart hs rfl)
  | lda | ldal | tda | tdb | tsa | tsb | txa | txb | tya | tyb | and | andl | ora | oral | eor | eorl
  | adc | adcl | sbc | sbcl | rla | xab | pla | plb | mpy | mpyl =>
    exact of_next h (inv_of_invPart hs (by simp [invPart, State.pc24, putArith]))

/-! ## The invariant under the step -/

theorem inv_enterInstr {s : State} (hs : s.Inv) (len : Nat) : (enterInstr len s).Inv := by
  obtain ⟨hwf, hnear, hset⟩ := hs
  refine ⟨hwf, ?_, hset⟩
  rw [staleNear_iff] at hnear ⊢
  intro c hc
  obtain ⟨hold, hwin⟩ := List.mem_filter.1 hc
  exact ⟨(hnear c hold).1, hwin⟩

theorem inv_acceptRequest {s : State} (hs : s.Inv) (r : Request) : (acceptRequest r s).Inv := by
  have ht := inv_enterException hs s.pc24 r.vector (some (levelIpl s r.level))
  rw [acceptRequest]
  exact inv_of_stale_nil ht.1 (removeRequest_nodup hs.2.2) rfl

theorem inv_platformMove {s : State} (hs : s.Inv) (mv : PlatformMove) : (platformMove s mv).Inv := by
  obtain ⟨hwf, hnear, hset⟩ := hs
  cases mv with
  | request r => exact ⟨hwf, hnear, addRequest_nodup hset⟩
  | watchdog n => exact ⟨hwf, hnear, addRequest_nodup hset⟩
  | reset p => exact inv_of_stale_nil hwf (foldl_addRequest_nodup p List.nodup_nil) rfl

theorem inv_platformMoves (moves : List PlatformMove) {s : State} (hs : s.Inv) :
    (platformMoves moves s).Inv := by
  induction moves generalizing s with
  | nil => exact hs
  | cons mv rest ih => exact ih (inv_platformMove hs mv)

theorem inv_boundary {s : State} (hs : s.Inv) : (boundary s).Inv :=
  inv_platformMoves _ (inv_of_invPart hs rfl)

/-- Settles O10, by the cases of the step: the boundary keeps the invariant (`inv_boundary`), and so do an
accepted request (`inv_acceptRequest`), entering an instruction (`inv_enterInstr`) and its rule
(`exec_inv`). -/
theorem stepKeepsInvariant : Obligations.StepKeepsInvariant := by
  intro s t hs h
  have hb : (boundary s).Inv := inv_boundary hs
  obtain ⟨-, hstep⟩ | ⟨-, ⟨r, -, hstep⟩ | ⟨-, -, hstep⟩ | ⟨-, -, ⟨e, -, hstep⟩ | ⟨i, len, -, hstep⟩⟩⟩ :=
    step_cases s
  all_goals rw [hstep] at h
  case inl | inr.inr.inl => exact of_next h hb
  case inr.inl => exact of_next h (inv_acceptRequest hb r)
  case inr.inr.inr.inl => cases h
  case inr.inr.inr.inr => exact exec_inv (inv_enterInstr hb len) h

end Sys2Proof.Proofs
end

section
/-! PROOFS. The state after reset, the image of PS (10_state.md R30, R33, R43, R54), and the steps that run
no instruction: waiting, stopped and reset (R51, R346, R370). -/

namespace Sys2Proof.Proofs

open Sys2Proof.Machine Sys2Proof.Laws

/-- Settles O12: State.reset's fields are what its definition lists, and its empty memory reads 00h at the
reset vector. -/
theorem resetStateValues : Obligations.ResetStateValues := by
  refine ⟨rfl, ?image, rfl, rfl, rfl, rfl, rfl, rfl, rfl, rfl, rfl, rfl, rfl, rfl, ?vector⟩
  case image => decide
  case vector => decide

/-! ## The image of PS (R33, R43) -/

/-- One more flag below the fields of an image doubles the number they make. -/
theorem toNat_append_ofBool {n : Nat} (v : BitVec n) (b : Bool) :
    (v ++ BitVec.ofBool b).toNat = 2 * v.toNat + b.toNat := by
  rw [Nat.mul_comm]
  exact BitVec.toNat_concat v b

theorem psr_toWord_toNat (p : Psr) : p.toWord.toNat =
    p.c.toNat + 2 * p.z.toNat + 4 * p.i.toNat + 8 * p.d.toNat + 16 * p.x.toNat + 32 * p.m.toNat +
      64 * p.v.toNat + 128 * p.n.toNat + 256 * p.ipl.toNat := by
  have hipl : (0#5 ++ p.ipl).toNat = p.ipl.toNat := by rw [BitVec.toNat_append]; simp
  simp only [Psr.toWord, toNat_append_ofBool, hipl]
  omega

theorem getLsbD_toNat (w : Word) (k : Nat) : (w.getLsbD k).toNat = w.toNat / 2 ^ k % 2 := by
  rw [BitVec.getLsbD, Nat.toNat_testBit]

theorem psr_ofWord_ipl_toNat (w : Word) : (Psr.ofWord w).ipl.toNat = w.toNat / 256 % 8 := by
  simp [Psr.ofWord, Nat.shiftRight_eq_div_pow]

theorem bool_eq_of_toNat_eq {a b : Bool} (h : a.toNat = b.toNat) : a = b := by
  simpa using congrArg (· == 1) h

/-- What is pushed as PS is pulled as PS: every field is a digit of the image. -/
theorem psr_ofWord_toWord (p : Psr) : Psr.ofWord p.toWord = p := by
  have himage := psr_toWord_toNat p
  have hc := p.c.toNat_le
  have hz := p.z.toNat_le
  have hi := p.i.toNat_le
  have hd := p.d.toNat_le
  have hx := p.x.toNat_le
  have hm := p.m.toNat_le
  have hv := p.v.toNat_le
  have hn := p.n.toNat_le
  have hflag : ∀ (k : Nat) (b : Bool), p.toWord.toNat / 2 ^ k % 2 = b.toNat → p.toWord.getLsbD k = b :=
    fun k b h => bool_eq_of_toNat_eq ((getLsbD_toNat p.toWord k).trans h)
  apply Psr.ext
  case ipl => exact BitVec.eq_of_toNat_eq ((psr_ofWord_ipl_toNat _).trans (by omega))
  all_goals exact hflag _ _ (by omega)

/-- Reading a word into PS and out again drops bits 15-11. -/
theorem psr_toWord_ofWord_toNat (w : Word) : (Psr.ofWord w).toWord.toNat = w.toNat % 2048 := by
  rw [psr_toWord_toNat, psr_ofWord_ipl_toNat]
  simp only [Psr.ofWord, getLsbD_toNat]
  omega

/-- Settles O21: the image as a number, and the two round trips that follow from its digits. -/
theorem psImage : Obligations.PsImage :=
  ⟨psr_toWord_toNat, psr_ofWord_toWord, psr_toWord_ofWord_toNat⟩

/-! ## Waiting and stopped (R346) -/

/-- No request is chosen where none passes the test (R336, R337). -/
theorem chooseRequest_eq_none {s : State} (h : ∀ r ∈ s.pending, ¬ Passes s r) : chooseRequest s = none := by
  have hc : candidates s = [] :=
    List.filter_eq_nil_iff.2 fun r hr => by rw [acceptable_iff_passes]; exact h r hr
  rw [chooseRequest, finalists, hc]
  rfl

theorem boundary_run {s : State} (h : resetAsserted s = false) : (boundary s).run = s.run := by
  rw [boundary_eq h]

/-- Settles O8: of the cases of the step only that of a suspended CPU is left. -/
theorem waitingAndStoppedStay : Obligations.WaitingAndStoppedStay := by
  intro s hreset hpass hrun
  have hnone := chooseRequest_eq_none hpass
  have hsame := boundary_run hreset
  refine ⟨?_, hsame, fun hsched => ?_⟩
  · obtain ⟨hr, -⟩ | ⟨-, ⟨r, hr, -⟩ | ⟨-, -, hstep⟩ | ⟨-, hrunning, -⟩⟩ := step_cases s
    · simp [hreset] at hr
    · simp [hnone] at hr
    · exact hstep
    · obtain h | h := hrun <;> simp [hsame, h] at hrunning
  · simp [boundary_of_no_moves, movesNow, hsched]

/-! ## Reset (R370) -/

/-- Presenting a request depends on the state through the watchdog's vector alone. -/
theorem presents_congr {s t : State} (h : t.par = s.par) (q : Request) (mv : PlatformMove) :
    mv.presents t q ↔ mv.presents s q := by
  rw [PlatformMove.presents, PlatformMove.presents, h]

/-- The boundary splits at its last reset, which is asserted in a state `v` that has of `s` what no move of
the platform writes. -/
theorem boundary_of_reset {s : State} {before after : List PlatformMove} {p : List Request}
    {rest : List (List PlatformMove)}
    (h : s.schedule = (before ++ PlatformMove.reset p :: after) :: rest) :
    ∃ v, boundary s = platformMoves after (resetTransition p v) ∧
      v.par = s.par ∧ v.mem = s.mem ∧ v.ioOut = s.ioOut ∧ v.schedule = rest ∧
      v.draws = s.draws + 1 + before.countP PlatformMove.isReset := by
  refine ⟨platformMoves before { s with schedule := rest, draws := s.draws + 1 }, ?_,
    platformMoves_par _ _, platformMoves_mem _ _, platformMoves_ioOut _ _, platformMoves_schedule _ _,
    platformMoves_draws _ _⟩
  rw [boundary, movesNow, h, List.headD_cons, platformMoves_append]
  rfl

theorem step_of_reset {s : State} {before after : List PlatformMove} {p : List Request}
    {rest : List (List PlatformMove)}
    (h : s.schedule = (before ++ PlatformMove.reset p :: after) :: rest) : step s = .next (boundary s) := by
  have hreset : resetAsserted s = true := by simp [resetAsserted, movesNow, h, PlatformMove.isReset]
  rw [step, if_pos hreset]

/-- What the boundary state has after its last reset: `v` is the state in which that reset was asserted. -/
theorem boundary_after_reset {v : State} {p : List Request} {after : List PlatformMove}
    (hafter : after.any PlatformMove.isReset = false) :
    let t := platformMoves after (resetTransition p v)
    t = { resetTransition p v with pending := t.pending } ∧ t.pending.Nodup ∧
      ∀ q, q ∈ t.pending ↔ q ∈ p ∨ ∃ mv ∈ after, mv.presents v q := by
  have hset : (resetTransition p v).pending.Nodup := foldl_addRequest_nodup p List.nodup_nil
  refine ⟨platformMoves_eq after _ hafter, platformMoves_pending_nodup after _ hset, fun q => ?_⟩
  have hpend : q ∈ (resetTransition p v).pending ↔ q ∈ p := by simp [resetTransition, mem_foldl_addRequest]
  have hpres : ∀ mv : PlatformMove, mv.presents (resetTransition p v) q ↔ mv.presents v q :=
    presents_congr rfl q
  simp only [mem_platformMoves_pending after _ q hafter, hpend, hpres]

/-- Settles O9: the moves before the last reset leave memory, I/O record, parameters and schedule alone, and
those after it only add requests (`boundary_after_reset`), so the rest is the reset transition's. The name
`resetTransition` is the model's. -/
theorem resetTransition_spec : Obligations.ResetTransition := by
  intro s before after p rest hsched hafter u
  obtain ⟨v, hbound, hpar, hmem, hio, hsch, hdraws⟩ := boundary_of_reset hsched
  have hread : ∀ a, busRead v a = busRead u a := busRead_congr hmem hpar hdraws
  obtain ⟨heq, hset, hpend⟩ := boundary_after_reset (v := v) (p := p) hafter
  refine ⟨_, step_of_reset hsched, ?_⟩
  rw [hbound, heq]
  refine ⟨rfl, hset, fun q => ?_, ?_⟩
  · simpa only [presents_congr hpar] using hpend q
  · simp [resetTransition, readVector, hread, hpar, hmem, hio, hsch]

end Sys2Proof.Proofs
end

section
/-! PROOFS. Who writes what (10_state.md R31, R33, R42, R44, R46): each instruction's rule is held to a frame,
the parts of the state that the statements' tables let the instruction write. -/

namespace Sys2Proof.Proofs

open Sys2Proof.Machine Sys2Proof.Laws

/-! ## The parts of the CPU, and what an instruction may write -/

/-- The parts that the tables of writers speak of: the registers, with PS in the pieces that have their own
writers. -/
inductive Part where
  | a
  | b
  | x
  | y
  | sp
  | dt
  | dpr
  | pg
  | pc
  /-- N, V, Z and C -/
  | resultFlags
  | ipl
  | flagD
  | flagX
  | flagM
  | flagI

def Part.ofAcc : Acc → Part
  | .a => .a
  | .b => .b

/-- A part holds in `t` what it holds in `s`. -/
def Part.Kept : Part → State → State → Prop
  | .a, s, t => t.a = s.a
  | .b, s, t => t.b = s.b
  | .x, s, t => t.x = s.x
  | .y, s, t => t.y = s.y
  | .sp, s, t => t.sp = s.sp
  | .dt, s, t => t.dt = s.dt
  | .dpr, s, t => t.dpr = s.dpr
  | .pg, s, t => t.pg = s.pg
  | .pc, s, t => t.pc = s.pc
  | .resultFlags, s, t => (t.ps.n, t.ps.v, t.ps.z, t.ps.c) = (s.ps.n, s.ps.v, s.ps.z, s.ps.c)
  | .ipl, s, t => t.ps.ipl = s.ps.ipl
  | .flagD, s, t => t.ps.d = s.ps.d
  | .flagX, s, t => t.ps.x = s.ps.x
  | .flagM, s, t => t.ps.m = s.ps.m
  | .flagI, s, t => t.ps.i = s.ps.i

/-- SEP and CLP, which write every flag but IPL (R273, R274). -/
def masksFlags : Instr → Bool
  | .sep _ | .clp _ => true
  | _ => false

/-- SEM and CLM (R278, R282). -/
def setsM : Instr → Bool
  | .sem | .clm => true
  | _ => false

/-- What writes I apart from PS as a whole: SEI, CLI and the entries of BRK and zero division (R36). -/
def setsI : Instr → Bool
  | .sei | .cli | .brk _ | .div _ | .divl _ => true
  | _ => false

/-- What the tables of R31, R33, R44 and R46 let an instruction write. -/
def mayWrite (i : Instr) : Part → Bool
  | .a => i.writesA
  | .b => i.writesB
  | .x => i.writesX
  | .y => i.writesY
  | .sp => i.writesS
  | .dt => i.writesDt
  | .dpr => i.writesDpr
  | .pg | .pc => i.transfersControl
  | .resultFlags => !i.keepsPs
  | .ipl => i.pullsPs
  | .flagD | .flagX => i.pullsPs || masksFlags i
  | .flagM => i.pullsPs || masksFlags i || setsM i
  | .flagI => i.pullsPs || masksFlags i || setsI i

/-- Every part that `w` does not let be written is kept. -/
def Frame (w : Part → Bool) (s t : State) : Prop := ∀ q, w q = false → q.Kept s t

/-! ## The frame of each operation -/

section operations

variable {w : Part → Bool} {s t u : State}

theorem Frame.refl : Frame w s s := fun q _ => by cases q <;> exact Eq.refl _

theorem Frame.trans (h1 : Frame w s t) (h2 : Frame w t u) : Frame w s u :=
  fun q hq => by cases q <;> exact Eq.trans (h2 _ hq) (h1 _ hq)

/-- A change of nothing but the part `p`. -/
theorem Frame.of_part (p : Part) (hp : w p = true) (h : ∀ q, q ≠ p → q.Kept s t) : Frame w s t :=
  fun q hq => h q fun e => by simp [e, hp] at hq

theorem frame_a (h : w .a = true) (v : Word) : Frame w s { s with a := v } :=
  .of_part .a h fun q hq => by
    cases q with
    | a => exact absurd rfl hq
    | _ => rfl

theorem frame_b (h : w .b = true) (v : Word) : Frame w s { s with b := v } :=
  .of_part .b h fun q hq => by
    cases q with
    | b => exact absurd rfl hq
    | _ => rfl

theorem frame_x (h : w .x = true) (v : Word) : Frame w s { s with x := v } :=
  .of_part .x h fun q hq => by
    cases q with
    | x => exact absurd rfl hq
    | _ => rfl

theorem frame_y (h : w .y = true) (v : Word) : Frame w s { s with y := v } :=
  .of_part .y h fun q hq => by
    cases q with
    | y => exact absurd rfl hq
    | _ => rfl

theorem frame_sp (h : w .sp = true) (v : Word) : Frame w s { s with sp := v } :=
  .of_part .sp h fun q hq => by
    cases q with
    | sp => exact absurd rfl hq
    | _ => rfl

theorem frame_dt (h : w .dt = true) (v : Byte) : Frame w s { s with dt := v } :=
  .of_part .dt h fun q hq => by
    cases q with
    | dt => exact absurd rfl hq
    | _ => rfl

theorem frame_dpr (h : w .dpr = true) (v : Word) : Frame w s { s with dpr := v } :=
  .of_part .dpr h fun q hq => by
    cases q with
    | dpr => exact absurd rfl hq
    | _ => rfl

/-- PS without N, V, Z and C. -/
def modes (p : Psr) : BitVec 3 × Bool × Bool × Bool × Bool := (p.ipl, p.d, p.x, p.m, p.i)

/-- A new status with the modes of the old one. -/
theorem frame_results (h : w .resultFlags = true) {p : Psr} (hp : modes p = modes s.ps) :
    Frame w s { s with ps := p } :=
  .of_part .resultFlags h fun q hq => by
    simp only [modes, Prod.mk.injEq] at hp
    cases q with
    | resultFlags => exact absurd rfl hq
    | _ => simp [Part.Kept, hp]

/-- The pieces of PS. -/
def statusParts : List Part := [.resultFlags, .ipl, .flagD, .flagX, .flagM, .flagI]

theorem frame_status (h : ∀ q ∈ statusParts, w q = true) (p : Psr) : Frame w s { s with ps := p } :=
  fun q hq => by
    simp only [statusParts, List.forall_mem_cons] at h
    cases q with
    | resultFlags | ipl | flagD | flagX | flagM | flagI => simp [h] at hq
    | _ => rfl

/-! ### Memory and the stack -/

theorem frame_writeData (l : Width) (a : Addr) (v : Word) : Frame w s (writeData l a v s) :=
  fun q _ => by cases q <;> simp [Part.Kept]

theorem frame_moveBytes (src dst : Nat → Addr) (n : Nat) : Frame w s (moveBytes src dst n s) :=
  fun q _ => by cases q <;> simp [Part.Kept]

theorem frame_push8 (h : w .sp = true) (v : Byte) : Frame w s (push8 v s) :=
  .of_part .sp h fun q hq => by
    cases q with
    | sp => exact absurd rfl hq
    | _ => rfl

theorem frame_push16 (h : w .sp = true) (v : Word) : Frame w s (push16 v s) :=
  (frame_push8 h (hi8 v)).trans (frame_push8 h (lo8 v))

theorem frame_pushData (h : w .sp = true) (l : Width) (v : Word) : Frame w s (pushData l v s) := by
  cases l with
  | byte => exact frame_push8 h _
  | word => exact frame_push16 h v

theorem frame_dropStack (h : w .sp = true) (n : Word) : Frame w s (dropStack n s) := frame_sp h _

theorem frame_pullData (h : w .sp = true) (l : Width) : Frame w s (pullData l s) := frame_dropStack h _

/-! ### Registers and results -/

theorem frame_accWrite {r : Acc} (h : w (.ofAcc r) = true) (v : Word) : Frame w s (accWrite r v s) := by
  cases r with
  | a => exact frame_a h _
  | b => exact frame_b h _

theorem frame_setNZ (h : w .resultFlags = true) (l : Width) (v : Word) : Frame w s (setNZ l v s) :=
  frame_results h rfl

theorem frame_loadAcc {r : Acc} (hr : w (.ofAcc r) = true) (hf : w .resultFlags = true) (v : Word) :
    Frame w s (loadAcc r v s) :=
  (frame_accWrite hr v).trans (frame_setNZ hf s.wm v)

theorem frame_loadX (hx : w .x = true) (hf : w .resultFlags = true) (v : Word) : Frame w s (loadX v s) :=
  (frame_x hx _).trans (frame_setNZ hf s.wx v)

theorem frame_loadY (hy : w .y = true) (hf : w .resultFlags = true) (v : Word) : Frame w s (loadY v s) :=
  (frame_y hy _).trans (frame_setNZ hf s.wx v)

theorem frame_compareAt (h : w .resultFlags = true) (l : Width) (a v : Word) :
    Frame w s (compareAt l a v s) := frame_results h rfl

theorem frame_putArith {r : Acc} (hr : w (.ofAcc r) = true) (hf : w .resultFlags = true) (o : ArithOut) :
    Frame w s (putArith r o s) :=
  (frame_accWrite hr o.r).trans (frame_results hf (by rw [accWrite_ps]; rfl))

theorem frame_targetWrite {tg : Target} (h : ∀ r, tg = .acc r → w (.ofAcc r) = true) (v : Word) :
    Frame w s (targetWrite tg v s) := by
  cases tg with
  | acc r => exact frame_accWrite (h r rfl) v
  | mem k => exact frame_writeData _ _ _

theorem frame_modifyTarget {tg : Target} (h : ∀ r, tg = .acc r → w (.ofAcc r) = true)
    (hf : w .resultFlags = true) (f : Word → Word) : Frame w s (modifyTarget tg f s) :=
  (frame_targetWrite h _).trans (frame_setNZ hf _ _)

theorem frame_shiftBy {tg : Target} (h : ∀ r, tg = .acc r → w (.ofAcc r) = true)
    (hf : w .resultFlags = true) (f : Width → Word → Bool → ShiftOut) : Frame w s (shiftBy f tg s) :=
  (frame_targetWrite h _).trans (frame_results hf (by rw [targetWrite_ps]; rfl))

theorem frame_putPair (ha : w .a = true) (hb : w .b = true) (hi lo : Word) :
    Frame w s (putPair hi lo s) :=
  (frame_accWrite (r := .a) ha lo).trans (frame_accWrite (r := .b) hb hi)

theorem frame_multiply (ha : w .a = true) (hb : w .b = true) (hf : w .resultFlags = true)
    (v : Word) : Frame w s (multiply v s) :=
  (frame_putPair ha hb _ _).trans (frame_results hf rfl)

theorem frame_blockEnd (ha : w .a = true) (hx : w .x = true) (hy : w .y = true)
    (hdt : w .dt = true) (n1 : Byte) (d : Word) : Frame w s (blockEnd n1 d s) :=
  ((frame_accWrite (r := .a) ha _).trans (frame_x hx _)).trans ((frame_y hy _).trans (frame_dt hdt n1))

/-! ### Control transfers -/

theorem frame_jumpTo (hpg : w .pg = true) (hpc : w .pc = true) (p : Addr) : Frame w s (jumpTo p s) :=
  fun q hq => by
    cases q with
    | pg => simp [hpg] at hq
    | pc => simp [hpc] at hq
    | _ => rfl

theorem frame_branchIf (hpg : w .pg = true) (hpc : w .pc = true) (taken : Bool) (d : Addr) :
    Frame w s (branchIf taken d s) := by
  cases taken with
  | false => exact .refl
  | true => exact frame_jumpTo hpg hpc _

/-- The entry of BRK and of a zero division: no IPL, so that of PS only I is written (R340, R342). -/
theorem frame_enterException (hsp : w .sp = true) (hpg : w .pg = true) (hpc : w .pc = true)
    (hi : w .flagI = true) (ret : Addr) (vector : Word) :
    Frame w s (enterException ret vector none s) :=
  fun q hq => by
    cases q with
    | sp => simp [hsp] at hq
    | pg => simp [hpg] at hq
    | pc => simp [hpc] at hq
    | flagI => simp [hi] at hq
    | _ => simp [Part.Kept, enterException_ps]

theorem frame_returnException (hst : ∀ q ∈ statusParts, w q = true) (hsp : w .sp = true)
    (hpg : w .pg = true) (hpc : w .pc = true) : Frame w s (returnException s) :=
  (frame_status hst _).trans ((frame_dropStack hsp _).trans (frame_jumpTo hpg hpc _))

theorem frame_divide (ha : w .a = true) (hb : w .b = true) (hf : w .resultFlags = true)
    (hsp : w .sp = true) (hpg : w .pg = true) (hpc : w .pc = true) (hi : w .flagI = true) (v : Word) :
    Frame w s (divide v s) := by
  obtain ⟨-, h⟩ | ⟨-, h⟩ | ⟨-, q, r, h⟩ := divide_cases v s
  · exact h ▸ frame_enterException hsp hpg hpc hi _ _
  · exact h ▸ (frame_putPair ha hb _ _).trans (frame_results hf rfl)
  · exact h ▸ (frame_putPair ha hb _ _).trans (frame_results hf rfl)

/-! ### PSH and PUL -/

theorem Frame.onBit {bit : Bool} {f : State → State} (h : Frame w s t)
    (hf : bit = true → Frame w t (f t)) : Frame w s (onBit bit f t) := by
  cases bit with
  | false => exact h
  | true => exact h.trans (hf rfl)

theorem frame_pulAcc {r : Acc} (hr : w (.ofAcc r) = true) (hsp : w .sp = true) : Frame w s (pulAcc r s) :=
  (frame_accWrite hr _).trans (frame_pullData hsp _)

theorem frame_pulX (hx : w .x = true) (hsp : w .sp = true) : Frame w s (pulX s) :=
  (frame_x hx _).trans (frame_pullData hsp _)

theorem frame_pulY (hy : w .y = true) (hsp : w .sp = true) : Frame w s (pulY s) :=
  (frame_y hy _).trans (frame_pullData hsp _)

theorem frame_pulDpr (hdpr : w .dpr = true) (hsp : w .sp = true) : Frame w s (pulDpr s) :=
  (frame_dpr hdpr _).trans (frame_dropStack hsp _)

theorem frame_pulDt (hdt : w .dt = true) (hsp : w .sp = true) : Frame w s (pulDt s) :=
  (frame_dt hdt _).trans (frame_dropStack hsp _)

theorem frame_pulPs (hst : ∀ q ∈ statusParts, w q = true) (hsp : w .sp = true) : Frame w s (pulPs s) :=
  (frame_status hst _).trans (frame_dropStack hsp _)

theorem frame_pulOpenB (hb : w .b = true) : Frame w s (pulOpenB s) := frame_b hb _

end operations

/-! ## The frame of each instruction -/

/-- What pulls PS may write every piece of it. -/
theorem mayWrite_of_pullsPs {i : Instr} (h : i.pullsPs = true) :
    ∀ q ∈ statusParts, mayWrite i q = true := by
  have hk : i.keepsPs = false := by
    cases i with
    | plp | rti => rfl
    | pul nn => exact congrArg (!·) h
    | _ => cases h
  simp [statusParts, mayWrite, h, hk]

/-- PSH moves S and writes memory (R216). -/
theorem frame_psh {s t : State} (nn : Byte) (h : exec (.psh nn) s = .next t) :
    Frame (mayWrite (.psh nn)) s t := by
  refine of_next h ?_
  refine .onBit ?_ fun _ => frame_push16 rfl _
  refine .onBit ?_ fun _ => frame_push8 rfl _
  refine .onBit ?_ fun _ => frame_push8 rfl _
  refine .onBit ?_ fun _ => frame_push16 rfl _
  refine .onBit ?_ fun _ => frame_pushData rfl _ _
  refine .onBit ?_ fun _ => frame_pushData rfl _ _
  refine .onBit ?_ fun _ => frame_pushData rfl _ _
  exact .onBit .refl fun _ => frame_pushData rfl _ _

/-- PUL writes the registers whose bits are set, and B when PS is among them (R217, R218). -/
theorem frame_pul {s t : State} (nn : Byte) (h : exec (.pul nn) s = .next t) :
    Frame (mayWrite (.pul nn)) s t := by
  have hb : (nn.getLsbD 1 || nn.getLsbD 7) = true → mayWrite (.pul nn) .b = true := id
  refine of_next h ?_
  refine .onBit ?_ fun hopen => frame_pulOpenB (hb ?openB)
  case openB =>
    obtain ⟨h7, -⟩ : nn.getLsbD 7 = true ∧ _ := by simpa only [Bool.and_eq_true, and_assoc] using hopen
    rw [h7, Bool.or_true]
  refine .onBit ?_ fun h0 => frame_pulAcc (r := .a) h0 rfl
  refine .onBit ?_ fun h1 => frame_pulAcc (r := .b) (hb (by rw [h1, Bool.true_or])) rfl
  refine .onBit ?_ fun h2 => frame_pulX h2 rfl
  refine .onBit ?_ fun h3 => frame_pulY h3 rfl
  refine .onBit ?_ fun h4 => frame_pulDpr h4 rfl
  refine .onBit ?_ fun h5 => frame_pulDt h5 rfl
  exact .onBit .refl fun h7 => frame_pulPs (mayWrite_of_pullsPs h7) rfl

/-- Every instruction stays within the tables of writers. The instructions are grouped by the operation that
their rule ends in. -/
theorem exec_frame {i : Instr} {s t : State} (h : exec i s = .next t) : Frame (mayWrite i) s t := by
  cases i with
  | lda r | ldal r | and r | andl r | ora r | oral r | eor r | eorl r =>
    exact of_next h (frame_loadAcc (by cases r <;> rfl) rfl _)
  | tda | tsa | txa | tya => exact of_next h (frame_loadAcc (r := .a) rfl rfl _)
  | tdb | tsb | txb | tyb => exact of_next h (frame_loadAcc (r := .b) rfl rfl _)
  | adc r | adcl r | sbc r | sbcl r =>
    exact of_next h (frame_putArith (by cases r <;> rfl) rfl _)
  | inc tg | dec tg =>
    exact of_next h (frame_modifyTarget (fun r e => by subst e; cases r <;> rfl) rfl _)
  | asl tg | lsr tg | rol tg | ror tg =>
    exact of_next h (frame_shiftBy (fun r e => by subst e; cases r <;> rfl) rfl _)
  | mpy | mpyl => exact of_next h (frame_multiply rfl rfl rfl _)
  | div | divl => exact of_next h (frame_divide rfl rfl rfl rfl rfl rfl rfl _)
  | cmp | cmpl | cpx | cpy => exact of_next h (frame_compareAt rfl _ _ _)
  | rla => exact of_next h (frame_accWrite (r := .a) rfl _)
  | xab => exact of_next h ((frame_accWrite (r := .b) rfl _).trans (frame_loadAcc (r := .a) rfl rfl _))
  | ldx | tax | tbx | tsx | tyx | inx | dex => exact of_next h (frame_loadX rfl rfl _)
  | ldy | tay | tby | txy | iny | dey => exact of_next h (frame_loadY rfl rfl _)
  | ldt => exact of_next h (frame_dt rfl _)
  | tad | tbd => exact of_next h (frame_dpr rfl _)
  | tas | tbs | txs => exact of_next h (frame_sp rfl _)
  | ldm | sta | stal | stx | sty | clb | seb => exact of_next h (frame_writeData _ _ _)
  | mvn | mvp => exact of_next h ((frame_moveBytes _ _ _).trans (frame_blockEnd rfl rfl rfl rfl _ _))
  | phg | pht => exact of_next h (frame_push8 rfl _)
  | phd | php | pea | pei | per => exact of_next h (frame_push16 rfl _)
  | pha | phb | phx | phy => exact of_next h (frame_pushData rfl _ _)
  | psh nn => exact frame_psh nn h
  | pla => exact of_next h ((frame_loadAcc (r := .a) rfl rfl _).trans (frame_pullData rfl _))
  | plb => exact of_next h ((frame_loadAcc (r := .b) rfl rfl _).trans (frame_pullData rfl _))
  | plx => exact of_next h ((frame_loadX rfl rfl _).trans (frame_pullData rfl _))
  | ply => exact of_next h ((frame_loadY rfl rfl _).trans (frame_pullData rfl _))
  | pld => exact of_next h ((frame_dpr rfl _).trans (frame_dropStack rfl _))
  | plt => exact of_next h ((frame_dt rfl _).trans ((frame_setNZ rfl _ _).trans (frame_dropStack rfl _)))
  | plp => exact of_next h ((frame_status (mayWrite_of_pullsPs rfl) _).trans (frame_dropStack rfl _))
  | pul nn => exact frame_pul nn h
  | clp | sep =>
    refine of_next h fun q hq => ?_
    cases q with
    | resultFlags | flagD | flagX | flagM | flagI => cases hq
    | _ => rfl
  | clc | sec | clv => exact of_next h (frame_results rfl rfl)
  | cli | sei =>
    refine of_next h fun q hq => ?_
    cases q with
    | flagI => cases hq
    | _ => rfl
  | clm | sem =>
    refine of_next h fun q hq => ?_
    cases q with
    | flagM => cases hq
    | _ => rfl
  | bcc | bcs | beq | bmi | bne | bpl | bvc | bvs | bra | bral | bbc | bbs =>
    exact of_next h (frame_branchIf rfl rfl _ _)
  | jmp op | jmpl op => cases op <;> exact of_next h (frame_jumpTo rfl rfl _)
  | jsr op => cases op <;> exact of_next h ((frame_push16 rfl _).trans (frame_jumpTo rfl rfl _))
  | jsrl =>
    exact of_next h ((frame_push8 rfl _).trans ((frame_push16 rfl _).trans (frame_jumpTo rfl rfl _)))
  | rts | rtl => exact of_next h ((frame_dropStack rfl _).trans (frame_jumpTo rfl rfl _))
  | rti => exact of_next h (frame_returnException (mayWrite_of_pullsPs rfl) rfl rfl rfl)
  | brk => exact of_next h (frame_enterException rfl rfl rfl rfl _ _)
  | nop => exact of_next h .refl
  | stp | wit => exact of_next h fun q _ => by cases q <;> rfl

/-! ## The tables, read off the frame -/

/-- Settles O18: the registers' columns of `mayWrite`, read off the instruction's frame. -/
theorem registerWriters : Obligations.RegisterWriters := by
  intro i s t h
  have hf : Frame (mayWrite i) s t := exec_frame h
  exact ⟨hf .a, hf .b, hf .x, hf .y, hf .sp, hf .dt, hf .dpr⟩

/-- Settles O19, in the same way. -/
theorem programCounterKept : Obligations.ProgramCounterKept := by
  intro i s t h hi
  have hf : Frame (mayWrite i) s t := exec_frame h
  exact ⟨hf .pg hi, hf .pc hi⟩

/-- Settles O16: the exceptions that the statement names are those of `mayWrite`. -/
theorem modeBitWriters : Obligations.ModeBitWriters := by
  intro i s t h hpull
  have hf : Frame (mayWrite i) s t := exec_frame h
  refine ⟨hf .ipl hpull, fun hsep hclp => ?_⟩
  have hmask : masksFlags i = false := by
    cases i with
    | sep v => exact absurd rfl (hsep v)
    | clp v => exact absurd rfl (hclp v)
    | _ => rfl
  refine ⟨hf .flagD ?_, hf .flagX ?_, fun hsem hclm => hf .flagM ?_,
    fun hsei hcli hbrk hdiv hdivl => hf .flagI ?_⟩
  · simp [mayWrite, hpull, hmask]
  · simp [mayWrite, hpull, hmask]
  · have hm : setsM i = false := by
      cases i with
      | sem => exact absurd rfl hsem
      | clm => exact absurd rfl hclm
      | _ => rfl
    simp [mayWrite, hpull, hmask, hm]
  · have hi : setsI i = false := by
      cases i with
      | sei => exact absurd rfl hsei
      | cli => exact absurd rfl hcli
      | brk n => exact absurd rfl (hbrk n)
      | div o => exact absurd rfl (hdiv o)
      | divl k => exact absurd rfl (hdivl k)
      | _ => rfl
    simp [mayWrite, hpull, hmask, hi]

/-- What the table of flag writers does not list is no writer of any piece of PS. -/
theorem mayWrite_of_keepsPs {i : Instr} (h : i.keepsPs = true) :
    ∀ q ∈ statusParts, mayWrite i q = false := by
  obtain ⟨hpull, hmask, hm, hi⟩ :
      i.pullsPs = false ∧ masksFlags i = false ∧ setsM i = false ∧ setsI i = false := by
    cases i with
    | pul nn => exact ⟨Bool.not_inj h, rfl, rfl, rfl⟩
    | plp | rti | sep | clp | sem | clm | sei | cli | brk | div | divl => cases h
    | _ => exact ⟨rfl, rfl, rfl, rfl⟩
  simp [statusParts, mayWrite, h, hpull, hmask, hm, hi]

/-- Two statuses with the same pieces are equal. -/
theorem ps_eq_of_kept {s t : State} (h : ∀ q ∈ statusParts, q.Kept s t) : t.ps = s.ps := by
  simp only [statusParts, List.forall_mem_cons, Part.Kept, Prod.mk.injEq] at h
  obtain ⟨⟨hn, hv, hz, hc⟩, hipl, hd, hx, hm, hi, -⟩ := h
  exact Psr.ext hc hz hi hd hx hm hv hn hipl

/-- Settles O17: no piece of PS is in the frame of an unlisted instruction. -/
theorem unlistedInstructionsKeepPs : Obligations.UnlistedInstructionsKeepPs := by
  intro i s t h hkeep
  have hf : Frame (mayWrite i) s t := exec_frame h
  exact ps_eq_of_kept fun q hq => hf q (mayWrite_of_keepsPs hkeep q hq)

end Sys2Proof.Proofs
end

section
/-! PROOFS. Memory and the instruction queue (20_memory.md R60, R63, R64, R70, R76, R79): who leaves memory
alone, what a datum reads as after its store, what a fetch may see of earlier contents, and the invariant at
reset. -/

namespace Sys2Proof.Proofs

open Sys2Proof.Machine Sys2Proof.Laws

/-- Settles O11: after reset memory lists nothing, the queue holds no earlier content, and nothing is
pending. -/
theorem resetHasInvariant : Obligations.ResetHasInvariant :=
  inv_of_stale_nil reset_mem_wf List.nodup_nil rfl

/-! ## What stores nothing (R70) -/

/-- `t` has the memory and the I/O record of `s`: all in which a store could be seen. -/
def MemoryKept (s t : State) : Prop := t.mem = s.mem ∧ t.ioOut = s.ioOut

theorem MemoryKept.trans {s t u : State} (h1 : MemoryKept s t) (h2 : MemoryKept t u) : MemoryKept s u :=
  ⟨h2.1.trans h1.1, h2.2.trans h1.2⟩

theorem memoryKept_accWrite (r : Acc) (v : Word) (s : State) : MemoryKept s (accWrite r v s) :=
  ⟨accWrite_mem r v s, accWrite_ioOut r v s⟩

theorem memoryKept_loadAcc (r : Acc) (v : Word) (s : State) : MemoryKept s (loadAcc r v s) :=
  ⟨loadAcc_mem r v s, loadAcc_ioOut r v s⟩

theorem memoryKept_putArith (r : Acc) (o : ArithOut) (s : State) : MemoryKept s (putArith r o s) :=
  memoryKept_accWrite r o.r s

theorem memoryKept_multiply (v : Word) (s : State) : MemoryKept s (multiply v s) :=
  ⟨multiply_mem v s, multiply_ioOut v s⟩

theorem memoryKept_branchIf (taken : Bool) (d : Addr) (s : State) : MemoryKept s (branchIf taken d s) :=
  ⟨branchIf_mem taken d s, branchIf_ioOut taken d s⟩

/-- A target that is not in memory is an accumulator, and its write is no store (R122). -/
theorem memoryKept_targetWrite {tg : Target} (h : tg.isMem = false) (v : Word) (s : State) :
    MemoryKept s (targetWrite tg v s) := by
  cases tg with
  | acc r => exact memoryKept_accWrite r v s
  | mem k => cases h

theorem memoryKept_modifyTarget {tg : Target} (h : tg.isMem = false) (f : Word → Word) (s : State) :
    MemoryKept s (modifyTarget tg f s) := memoryKept_targetWrite h _ s

theorem memoryKept_shiftBy {tg : Target} (h : tg.isMem = false) (f : Width → Word → Bool → ShiftOut)
    (s : State) : MemoryKept s (shiftBy f tg s) := memoryKept_targetWrite h _ s

theorem MemoryKept.onBit {s t : State} (h : MemoryKept s t) {bit : Bool} {f : State → State}
    (hf : MemoryKept t (f t)) : MemoryKept s (onBit bit f t) := by
  cases bit with
  | false => exact h
  | true => exact h.trans hf

theorem memoryKept_pulAcc (r : Acc) (s : State) : MemoryKept s (pulAcc r s) :=
  memoryKept_accWrite r _ s

/-- PUL reads the stack and writes registers (R217, R218). -/
theorem memoryKept_pul {s t : State} (nn : Byte) (h : exec (.pul nn) s = .next t) : MemoryKept s t := by
  refine of_next h ?_
  refine .onBit ?_ ⟨rfl, rfl⟩
  refine .onBit ?_ (memoryKept_pulAcc .a _)
  refine .onBit ?_ (memoryKept_pulAcc .b _)
  refine .onBit ?_ ⟨rfl, rfl⟩
  refine .onBit ?_ ⟨rfl, rfl⟩
  refine .onBit ?_ ⟨rfl, rfl⟩
  refine .onBit ?_ ⟨rfl, rfl⟩
  exact .onBit ⟨rfl, rfl⟩ ⟨rfl, rfl⟩

/-- Outside the list of storing instructions no rule makes a store. The instructions are grouped by the
operation that their rule ends in; a read-modify-write is left with its accumulator forms. -/
theorem exec_memoryKept {i : Instr} {s t : State} (hi : i.stores = false) (h : exec i s = .next t) :
    MemoryKept s t := by
  cases i with
  | ldm | sta | stal | stx | sty | clb | seb | mvn | mvp | jsr | jsrl | brk | div | divl
  | pha | phb | phd | phg | php | pht | phx | phy | psh | pea | pei | per => cases hi
  | inc | dec => exact of_next h (memoryKept_modifyTarget hi _ s)
  | asl | lsr | rol | ror => exact of_next h (memoryKept_shiftBy hi _ s)
  | lda | ldal | tda | tdb | tsa | tsb | txa | txb | tya | tyb | and | andl | ora | oral | eor | eorl
  | pla | plb => exact of_next h (memoryKept_loadAcc _ _ s)
  | adc | adcl | sbc | sbcl => exact of_next h (memoryKept_putArith _ _ s)
  | mpy | mpyl => exact of_next h (memoryKept_multiply _ s)
  | rla => exact of_next h (memoryKept_accWrite .a _ s)
  | xab => exact of_next h ((memoryKept_accWrite .b _ s).trans (memoryKept_loadAcc .a _ _))
  | pul nn => exact memoryKept_pul nn h
  | bcc | bcs | beq | bmi | bne | bpl | bvc | bvs | bra | bral | bbc | bbs =>
    exact of_next h (memoryKept_branchIf _ _ s)
  | jmp op | jmpl op => cases op <;> exact of_next h ⟨rfl, rfl⟩
  | rts | rtl | rti
  | ldt | ldx | ldy | tad | tas | tax | tay | tbd | tbs | tbx | tby | tsx | txs | txy | tyx
  | pld | plp | plt | plx | ply | inx | iny | dex | dey | cmp | cmpl | cpx | cpy
  | clp | sep | clc | sec | cli | sei | clm | sem | clv | nop | stp | wit => exact of_next h ⟨rfl, rfl⟩

/-- Settles O20: the platform's part of the state is kept by every instruction (`exec_platformPart`), memory
and the I/O record by those that store nothing (`exec_memoryKept`), and a read depends on these alone. -/
theorem nonStoringKeepMemory : Obligations.NonStoringKeepMemory := by
  intro i s t h
  obtain ⟨hpend, hsched, hdraws, hpar⟩ := platformPart_eq_iff.1 (exec_platformPart i s t h)
  refine ⟨fun hi => ?_, hpend, hsched, hpar, hdraws⟩
  obtain ⟨hmem, hio⟩ : MemoryKept s t := exec_memoryKept hi h
  exact ⟨hmem, hio, busRead_congr hmem hpar hdraws⟩

/-! ## A datum after its store (R63, R64, R76) -/

theorem addr_succ_ne (a : Addr) : a + 1#24 ≠ a := by bv_omega

theorem busRead_busWrite_same {s : State} (hs : Memory.wf s.mem = true) {a : Addr}
    (ha : mapKind s a = .ram) (v : Byte) : busRead (busWrite a v s) a = v := by
  rw [busRead_busWrite hs, if_pos ⟨rfl, ha⟩]

theorem busRead_busWrite_ne {s : State} (hs : Memory.wf s.mem = true) {a b : Addr} (h : b ≠ a) (v : Byte) :
    busRead (busWrite a v s) b = busRead s b := by
  rw [busRead_busWrite hs, if_neg fun hc => h hc.1]

theorem busRead_writeData_word_low {s : State} (hs : Memory.wf s.mem = true) {a : Addr}
    (ha : mapKind s a = .ram) (v : Word) : busRead (writeData .word a v s) a = lo8 v :=
  (busRead_busWrite_ne (busWrite_wf hs a _) (addr_succ_ne a).symm _).trans (busRead_busWrite_same hs ha _)

theorem busRead_writeData_word_high {s : State} (hs : Memory.wf s.mem = true) {a : Addr}
    (ha : mapKind s (a + 1#24) = .ram) (v : Word) :
    busRead (writeData .word a v s) (a + 1#24) = hi8 v :=
  busRead_busWrite_same (s := busWrite a (lo8 v) s) (busWrite_wf hs a _) ha _

/-- Settles O22: each of the two bytes reads as it was stored, because `a + 1` is not `a`. -/
theorem wordsAreLittleEndian : Obligations.WordsAreLittleEndian := by
  intro s a v hs ha ha1
  have hlow : busRead (writeData .word a v s) a = lo8 v := busRead_writeData_word_low hs ha v
  have hhigh : busRead (writeData .word a v s) (a + 1#24) = hi8 v := busRead_writeData_word_high hs ha1 v
  refine ⟨?_, congrArg zx8 hlow, congrArg zx8 hhigh, ?_⟩
  · rw [readWord, hlow, hhigh, mkWord_hi8_lo8]
  · rw [readWord, writeData, busRead_busWrite_same hs ha, busRead_busWrite_ne hs (addr_succ_ne a)]

/-! ## The instruction queue (R79) -/

/-- The window is the three bytes from PG :: PC on, modulo 2^24. -/
theorem inQueueWindow_iff (s : State) (a : Addr) :
    inQueueWindow s a = true ↔ ∃ k, k < 3 ∧ a.toNat = (s.pc24.toNat + k) % 2 ^ 24 := by
  have ha := a.isLt
  have hpc := s.pc24.isLt
  rw [inQueueWindow, decide_eq_true_iff, BitVec.toNat_sub]
  constructor
  · intro h
    exact ⟨_, h, by omega⟩
  · rintro ⟨k, hk, e⟩
    omega

theorem mem_staleAt {s : State} {a : Addr} {b : Byte} : b ∈ staleAt s a ↔ (a.toNat, b) ∈ s.stale := by
  simp [staleAt]

/-- A fetch sees memory's byte or an earlier content held for its address. -/
theorem fetchAt_cases (s : State) (a : Addr) :
    fetchAt s a = busRead s a ∨ (a.toNat, fetchAt s a) ∈ s.stale := by
  rw [← mem_staleAt]
  cases h : staleAt s a with
  | nil => exact .inl (by rw [fetchAt, h])
  | cons old more =>
    have hmem : fetchAt s a ∈ busRead s a :: old :: more := by
      simp only [fetchAt, h]
      rw [List.getD_eq_getElem _ _ (Nat.mod_lt _ (by simp))]
      exact List.getElem_mem _
    exact List.mem_cons.1 hmem

/-- Settles O23: a store's earlier content (`mem_staleAfter`) lies in the window (`inQueueWindow_iff`), and a
fetch that does not see memory's byte sees one that is held (`fetchAt_cases`). -/
theorem instructionQueueHazard : Obligations.InstructionQueueHazard := by
  refine ⟨fun s a v c hc => ?_, fetchAt_cases, fun s a hnone => ?_, fun s n => jumpTo_stale n s⟩
  · exact (mem_staleAfter hc).imp_right fun ⟨hwin, hcell⟩ => ⟨hcell, (inQueueWindow_iff s a).1 hwin⟩
  · exact (fetchAt_cases s a).resolve_right (hnone _)

end Sys2Proof.Proofs
end

section
/-! PROOFS. The encoding (30_encoding.md): the decoder and the encoder undo each other (R91 to R105, R110), the
undefined encodings (R106, R332), and the worked examples (R117, R118). -/

namespace Sys2Proof.Proofs

open Sys2Proof.Machine Sys2Proof.Laws

/-! ## Byte sequences -/

/-- The byte sequence begins with these bytes. -/
def Begins (f : Nat → Byte) (bytes : List Byte) : Prop := ∀ k b, bytes[k]? = some b → f k = b

@[simp] theorem begins_nil (f : Nat → Byte) : Begins f [] := fun k b h => by simp at h

@[simp] theorem begins_cons {f : Nat → Byte} {b : Byte} {bytes : List Byte} :
    Begins f (b :: bytes) ↔ f 0 = b ∧ Begins (fun k => f (k + 1)) bytes := by
  constructor
  · exact fun h => ⟨h 0 b rfl, fun k => h (k + 1)⟩
  · rintro ⟨h0, hrest⟩ (_ | k) c hc
    · exact h0.trans (by simpa using hc)
    · exact hrest k c hc

@[simp] theorem begins_append {bytes rest : List Byte} : ∀ {f : Nat → Byte},
    Begins f (bytes ++ rest) ↔ Begins f bytes ∧ Begins (fun k => f (bytes.length + k)) rest := by
  induction bytes with
  | nil => intro f; simp
  | cons b bytes ih =>
    intro f
    simp [ih, and_assoc, Nat.add_comm, Nat.add_left_comm]

/-- A sequence that begins with some bytes has them as its first ones. -/
theorem range_map_of_begins {f : Nat → Byte} {bytes : List Byte} (h : Begins f bytes) :
    (List.range bytes.length).map f = bytes := by
  refine List.ext_getElem (by simp) fun k _ hk => ?_
  simpa using h k bytes[k] (List.getElem?_eq_getElem hk)

/-! ## Operands (R97, R99) -/

theorem begins_wordBytes {g : Nat → Byte} {w : Word} :
    Begins g (wordBytes w) ↔ mkWord (g 1) (g 0) = w := by
  constructor
  · intro h
    obtain ⟨h0, h1⟩ : g 0 = lo8 w ∧ g 1 = hi8 w := by simpa [wordBytes] using h
    rw [h0, h1, mkWord_hi8_lo8]
  · rintro rfl
    simp [wordBytes]

theorem begins_addrBytes {g : Nat → Byte} {a : Addr} :
    Begins g (addrBytes a) ↔ mkAddr (g 2) (mkWord (g 1) (g 0)) = a := by
  constructor
  · intro h
    obtain ⟨h0, h1, h2⟩ : g 0 = lo8 (offOf a) ∧ g 1 = hi8 (offOf a) ∧ g 2 = bankOf a := by
      simpa [addrBytes] using h
    rw [h0, h1, h2, mkWord_hi8_lo8, mkAddr_bankOf_offOf]
  · rintro rfl
    simp [addrBytes]

theorem zx8_lo8 {v : Word} (h : v.toNat < 256) : zx8 (lo8 v) = v := by
  apply BitVec.eq_of_toNat_eq
  rw [zx8_toNat, lo8_toNat, Nat.mod_eq_of_lt h]

/-- The bytes of an immediate that fits are what an immediate is read from. -/
theorem immAt_eq_iff {narrow : Bool} {g : Nat → Byte} {k : Nat} {v : Word} :
    immAt narrow g k = (v, (immBytes narrow v).length) ↔
      immFits narrow v = true ∧ Begins (fun j => g (k + j)) (immBytes narrow v) := by
  cases narrow with
  | false => simp [immAt, immFits, immBytes, begins_wordBytes, wordBytes_length]
  | true =>
    suffices zx8 (g k) = v ↔ v.toNat < 256 ∧ g k = lo8 v by simpa [immAt, immFits, immBytes]
    constructor
    · rintro rfl
      exact ⟨by rw [zx8_toNat]; exact (g k).isLt, (lo8_zx8 _).symm⟩
    · rintro ⟨hlt, h⟩
      rw [h, zx8_lo8 hlt]

theorem immAt_length (narrow : Bool) (g : Nat → Byte) (k : Nat) (v : Word) :
    (immAt narrow g k).2 = (immBytes narrow v).length := by cases narrow <;> rfl

/-- An immediate that was read fits, and its bytes are those read. -/
theorem immAt_spec (narrow : Bool) (g : Nat → Byte) (k : Nat) :
    immFits narrow (immAt narrow g k).1 = true ∧
      Begins (fun j => g (k + j)) (immBytes narrow (immAt narrow g k).1) :=
  immAt_eq_iff.1 (Prod.ext rfl (immAt_length narrow g k _))

/-! ## Layouts (R91, R92) -/

/-- `Form m x l i fits bytes`: the layout `l` makes the instruction `i` of the operand `bytes`; `fits` says
whether its immediate, if it has one, fits the length that m or x selects. -/
inductive Form (m x : Bool) : Layout → Instr → Bool → List Byte → Prop
  | none (i : Instr) : Form m x (.none i) i true []
  | i8 (k) (v : Byte) : Form m x (.i8 k) (k v) true [v]
  | im (k) (v : Word) : Form m x (.im k) (k v) (immFits m v) (immBytes m v)
  | ix (k) (v : Word) : Form m x (.ix k) (k v) (immFits x v) (immBytes x v)
  | d8 (k) (d : Byte) : Form m x (.d8 k) (k d) true [d]
  | a16 (k) (w : Word) : Form m x (.a16 k) (k w) true (wordBytes w)
  | a24 (k) (a : Addr) : Form m x (.a24 k) (k a) true (addrBytes a)
  | r8 (k) (r : Byte) : Form m x (.r8 k) (k r) true [r]
  | r16 (k) (r : Word) : Form m x (.r16 k) (k r) true (wordBytes r)
  | d8im (k) (d : Byte) (v : Word) : Form m x (.d8im k) (k d v) (immFits m v) ([d] ++ immBytes m v)
  | a16im (k) (w v : Word) : Form m x (.a16im k) (k w v) (immFits m v) (wordBytes w ++ immBytes m v)
  | d8imr8 (k) (d : Byte) (v : Word) (r : Byte) :
    Form m x (.d8imr8 k) (k d v r) (immFits m v) ([d] ++ immBytes m v ++ [r])
  | a16imr8 (k) (w v : Word) (r : Byte) :
    Form m x (.a16imr8 k) (k w v r) (immFits m v) (wordBytes w ++ immBytes m v ++ [r])
  | blk (k) (n1 n2 : Byte) : Form m x (.blk k) (k n1 n2) true [n1, n2]

/-- From the bytes of a form its layout reads the instruction. -/
theorem Form.read_eq {m x : Bool} {l : Layout} {i : Instr} {fits : Bool} {bytes : List Byte}
    (h : Form m x l i fits bytes) (hfits : fits = true) {g : Nat → Byte} (hg : Begins g bytes) :
    l.read m x g = (i, bytes.length) := by
  cases h with
  | none => rfl
  | i8 | d8 | r8 | blk => simp_all [Layout.read]
  | a16 | r16 => simp [Layout.read, begins_wordBytes.1 hg, wordBytes_length]
  | a24 => simp [Layout.read, begins_addrBytes.1 hg, addrBytes_length]
  | im k v | ix k v =>
    have himm := immAt_eq_iff (k := 0).2 ⟨hfits, by simpa using hg⟩
    simp [Layout.read, himm]
  | d8im k d v =>
    obtain ⟨hd, hv⟩ := begins_append.1 hg
    have himm := immAt_eq_iff.2 ⟨hfits, hv⟩
    simp_all [Layout.read, Nat.add_comm]
  | a16im k w v =>
    obtain ⟨hw, hv⟩ := begins_append.1 hg
    have himm := immAt_eq_iff.2 ⟨hfits, hv⟩
    simp_all [Layout.read, begins_wordBytes, wordBytes_length]
  | d8imr8 k d v r =>
    obtain ⟨⟨hd, hv⟩, hr⟩ := begins_append.1 hg |>.imp_left begins_append.1
    have himm := immAt_eq_iff.2 ⟨hfits, hv⟩
    simp_all [Layout.read, Nat.add_comm]
    omega
  | a16imr8 k w v r =>
    obtain ⟨⟨hw, hv⟩, hr⟩ := begins_append.1 hg |>.imp_left begins_append.1
    have himm := immAt_eq_iff.2 ⟨hfits, hv⟩
    simp_all [Layout.read, begins_wordBytes, wordBytes_length]
    omega

/-- Every layout finds one of its forms, with an immediate that fits, at the head of any byte sequence. -/
theorem exists_form (m x : Bool) (l : Layout) (g : Nat → Byte) :
    ∃ i fits bytes, Form m x l i fits bytes ∧ fits = true ∧ Begins g bytes := by
  have himm : ∀ narrow k, ∃ v, immFits narrow v = true ∧
      Begins (fun j => g (k + j)) (immBytes narrow v) := fun narrow k => ⟨_, immAt_spec narrow g k⟩
  have hbyte : Begins g [g 0] := by simp
  have hword : Begins g (wordBytes (mkWord (g 1) (g 0))) := begins_wordBytes.2 rfl
  have hlast : ∀ n, Begins (fun j => g (n + j)) [g n] := by simp
  cases l with
  | none i => exact ⟨_, _, _, .none i, rfl, begins_nil g⟩
  | i8 k => exact ⟨_, _, _, .i8 k _, rfl, hbyte⟩
  | d8 k => exact ⟨_, _, _, .d8 k _, rfl, hbyte⟩
  | r8 k => exact ⟨_, _, _, .r8 k _, rfl, hbyte⟩
  | blk k => exact ⟨_, _, _, .blk k (g 0) (g 1), rfl, by simp⟩
  | a16 k => exact ⟨_, _, _, .a16 k _, rfl, hword⟩
  | r16 k => exact ⟨_, _, _, .r16 k _, rfl, hword⟩
  | a24 k => exact ⟨_, _, _, .a24 k _, rfl, begins_addrBytes.2 rfl⟩
  | im k =>
    obtain ⟨v, hfit, hv⟩ := himm m 0
    exact ⟨_, _, _, .im k v, hfit, by simpa using hv⟩
  | ix k =>
    obtain ⟨v, hfit, hv⟩ := himm x 0
    exact ⟨_, _, _, .ix k v, hfit, by simpa using hv⟩
  | d8im k =>
    obtain ⟨v, hfit, hv⟩ := himm m 1
    exact ⟨_, _, _, .d8im k _ v, hfit, begins_append.2 ⟨hbyte, hv⟩⟩
  | a16im k =>
    obtain ⟨v, hfit, hv⟩ := himm m 2
    exact ⟨_, _, _, .a16im k _ v, hfit, begins_append.2 ⟨hword, hv⟩⟩
  | d8imr8 k =>
    obtain ⟨v, hfit, hv⟩ := himm m 1
    exact ⟨_, _, _, .d8imr8 k _ v _, hfit, begins_append.2 ⟨begins_append.2 ⟨hbyte, hv⟩, hlast _⟩⟩
  | a16imr8 k =>
    obtain ⟨v, hfit, hv⟩ := himm m 2
    exact ⟨_, _, _, .a16imr8 k _ v _, hfit, begins_append.2 ⟨begins_append.2 ⟨hword, hv⟩, hlast _⟩⟩

/-! ## The decoder, by opcode bytes (R93, R96) -/

/-- The instruction code tables have the layout `l` at these one or two opcode bytes. -/
inductive Opcode : List Byte → Layout → Prop
  | first {b l} (h : layout1 b = some l) : Opcode [b] l
  | after42 {b l} (h : layout2 b = some l) : Opcode [0x42#8, b] l
  | after89 {b l} (h : layout3 b = some l) : Opcode [0x89#8, b] l

/-- The cells of 42h and 89h, which lead into the other tables, are blank in Table 1. -/
theorem layout1_ne_lead {b : Byte} {l : Layout} (h : layout1 b = some l) : b ≠ 0x42#8 ∧ b ≠ 0x89#8 := by
  constructor <;> rintro rfl <;> cases h

/-- What decodes is what a layout of the tables reads behind its opcode. -/
theorem decode_eq_ok_iff {m x : Bool} {f : Nat → Byte} {r : Instr × Nat} :
    decode m x f = .ok r ↔
      ∃ lead l, Opcode lead l ∧ Begins f lead ∧ r = l.readAfter m x f lead.length := by
  constructor
  · intro h
    unfold decode at h
    split at h
    · split at h <;> cases h
      exact ⟨_, _, .after42 ‹_›, by simp [*], rfl⟩
    · split at h
      · split at h <;> cases h
        exact ⟨_, _, .after89 ‹_›, by simp [*], rfl⟩
      · split at h <;> cases h
        exact ⟨_, _, .first ‹_›, by simp, rfl⟩
  · rintro ⟨_, l, ⟨h⟩ | ⟨h⟩ | ⟨h⟩, hf, rfl⟩
    · obtain ⟨h42, h89⟩ := layout1_ne_lead h
      simp_all [decode]
    · simp_all [decode]
    · simp_all [decode]

/-- The instruction at the head of a byte sequence, from the tables: its opcode's layout, and a form of that
layout with an immediate that fits. -/
theorem decode_eq_ok_iff_form {m x : Bool} {f : Nat → Byte} {i : Instr} {len : Nat} :
    decode m x f = .ok (i, len) ↔
      ∃ lead l bytes, Opcode lead l ∧ Form m x l i true bytes ∧ Begins f (lead ++ bytes) ∧
        len = (lead ++ bytes).length := by
  rw [decode_eq_ok_iff]
  constructor
  · rintro ⟨lead, l, hop, hlead, hr⟩
    obtain ⟨j, fits, bytes, hform, rfl, hbytes⟩ := exists_form m x l fun k => f (lead.length + k)
    rw [Layout.readAfter, hform.read_eq rfl hbytes] at hr
    cases hr
    exact ⟨lead, l, bytes, hop, hform, begins_append.2 ⟨hlead, hbytes⟩, List.length_append.symm⟩
  · rintro ⟨lead, l, bytes, hop, hform, hf, rfl⟩
    obtain ⟨hlead, hbytes⟩ := begins_append.1 hf
    refine ⟨lead, l, hop, hlead, ?_⟩
    rw [Layout.readAfter, hform.read_eq rfl hbytes, List.length_append]

/-! ## From an instruction to its cell -/

/-- The instruction's encoding is an opcode of the tables followed by the bytes of one of its layout's
forms. -/
def InTables (m x : Bool) (i : Instr) : Prop :=
  ∃ lead l bytes, Opcode lead l ∧ Form m x l i true bytes ∧ encode m x i = lead ++ bytes

/-- A cell without accumulator choice of Table 1. -/
theorem inTables_one {m x : Bool} {i : Instr} {b : Byte} {bytes : List Byte} {l : Layout} {fits : Bool}
    (hfits : fits = true) (henc : encode m x i = b :: bytes) (hcell : cellAt table1 b = .one l)
    (hform : Form m x l i fits bytes) : InTables m x i :=
  ⟨[b], l, bytes, .first (by rw [layout1, hcell]), hfits ▸ hform, henc⟩

/-- A cell of Table 1 that 42h in front turns from A to B (R94). -/
theorem inTables_acc (r : Acc) {m x : Bool} {i : Instr} {b : Byte} {bytes : List Byte} {l : Acc → Layout}
    {fits : Bool} (hfits : fits = true) (henc : encode m x i = r.lead ++ b :: bytes)
    (hcell : cellAt table1 b = .acc l) (hform : Form m x (l r) i fits bytes) : InTables m x i := by
  cases r with
  | a => exact ⟨[b], l .a, bytes, .first (by rw [layout1, hcell]), hfits ▸ hform, henc⟩
  | b => exact ⟨[0x42#8, b], l .b, bytes, .after42 (by rw [layout2, hcell]), hfits ▸ hform, henc⟩

/-- A place of Table 3. -/
theorem inTables_after89 {m x : Bool} {i : Instr} {b : Byte} {bytes : List Byte} {l : Layout} {fits : Bool}
    (hfits : fits = true) (henc : encode m x i = 0x89#8 :: b :: bytes) (hlayout : layout3 b = some l)
    (hform : Form m x l i fits bytes) : InTables m x i :=
  ⟨[0x89#8, b], l, bytes, .after89 hlayout, hfits ▸ hform, henc⟩

/-- The layout of an instruction with a memory operand, by the operand's mode (R91). -/
def memLayout (k : Mem → Instr) : Mem → Layout
  | .dir _ => .d8 fun d => k (.dir d)
  | .dirX _ => .d8 fun d => k (.dirX d)
  | .dirY _ => .d8 fun d => k (.dirY d)
  | .ind _ => .d8 fun d => k (.ind d)
  | .indX _ => .d8 fun d => k (.indX d)
  | .indY _ => .d8 fun d => k (.indY d)
  | .long _ => .d8 fun d => k (.long d)
  | .longY _ => .d8 fun d => k (.longY d)
  | .abs _ => .a16 fun w => k (.abs w)
  | .absX _ => .a16 fun w => k (.absX w)
  | .absY _ => .a16 fun w => k (.absY w)
  | .abl _ => .a24 fun a => k (.abl a)
  | .ablX _ => .a24 fun a => k (.ablX a)
  | .sr _ => .d8 fun d => k (.sr d)
  | .srY _ => .d8 fun d => k (.srY d)

theorem form_memLayout {m x : Bool} (k : Mem → Instr) (q : Mem) :
    Form m x (memLayout k q) (k q) true q.bytes := by
  cases q with
  | abs | absX | absY => exact .a16 _ _
  | abl | ablX => exact .a24 _ _
  | _ => exact .d8 _ _

section modes

variable {m x : Bool} {q : Mem} {b : Byte}

/-! A memory mode of an instruction: without accumulator choice, with it, and behind 89h. -/

theorem inTables_mem {k : Mem → Instr} (henc : encode m x (k q) = b :: q.bytes)
    (hcell : cellAt table1 b = .one (memLayout k q)) : InTables m x (k q) :=
  inTables_one rfl henc hcell (form_memLayout k q)

theorem inTables_src {k : Operand → Instr} (henc : encode m x (k (.mem q)) = b :: q.bytes)
    (hcell : cellAt table1 b = .one (memLayout (srcOp k) q)) : InTables m x (k (.mem q)) :=
  inTables_mem (k := srcOp k) henc hcell

theorem inTables_target {k : Target → Instr} (henc : encode m x (k (.mem q)) = b :: q.bytes)
    (hcell : cellAt table1 b = .one (memLayout (target k) q)) : InTables m x (k (.mem q)) :=
  inTables_mem (k := target k) henc hcell

theorem inTables_accMem {k : Acc → Mem → Instr} {r : Acc}
    (henc : encode m x (k r q) = r.lead ++ b :: q.bytes)
    (hcell : cellAt table1 b = .acc fun r => memLayout (k r) q) : InTables m x (k r q) :=
  inTables_acc r rfl henc hcell (form_memLayout (k r) q)

theorem inTables_accSrc {k : Acc → Operand → Instr} {r : Acc}
    (henc : encode m x (k r (.mem q)) = r.lead ++ b :: q.bytes)
    (hcell : cellAt table1 b = .acc fun r => memLayout (srcOp (k r)) q) : InTables m x (k r (.mem q)) :=
  inTables_accMem (k := fun r => srcOp (k r)) henc hcell

theorem inTables_after89Mem {k : Mem → Instr} (henc : encode m x (k q) = 0x89#8 :: b :: q.bytes)
    (hlayout : layout3 b = some (memLayout k q)) : InTables m x (k q) :=
  inTables_after89 rfl henc hlayout (form_memLayout k q)

theorem inTables_after89Src {k : Operand → Instr} (henc : encode m x (k (.mem q)) = 0x89#8 :: b :: q.bytes)
    (hlayout : layout3 b = some (memLayout (srcOp k) q)) : InTables m x (k (.mem q)) :=
  inTables_after89Mem (k := srcOp k) henc hlayout

end modes

/-- Every well-formed instruction stands in the tables. The instructions are grouped by the layout of their cell
and by the modes their operand may have; the cell itself is looked up at the encoding's opcode. -/
theorem inTables_of_wellFormed {m x : Bool} {i : Instr} (h : i.wellFormed m x = true) : InTables m x i := by
  cases i with
  | tad | tas | tax | tay | tda | tsa | txa | tya | pha | pla =>
    exact inTables_acc .a h rfl rfl (.none _)
  | tbd | tbs | tbx | tby | tdb | tsb | txb | tyb | phb | plb =>
    exact inTables_acc .b h rfl rfl (.none _)
  | tsx | txs | txy | tyx | phd | phg | php | pht | phx | phy | pld | plp | plt | plx | ply
  | inx | iny | dex | dey | clc | sec | cli | sei | clm | sem | clv | rts | rtl | rti | nop | stp | wit =>
    exact inTables_one h rfl rfl (.none _)
  | psh | pul | clp | sep | brk => exact inTables_one h rfl rfl (.i8 _ _)
  | bcc | bcs | beq | bmi | bne | bpl | bvc | bvs | bra => exact inTables_one h rfl rfl (.r8 _ _)
  | bral => exact inTables_one h rfl rfl (.r16 _ _)
  | pei => exact inTables_one h rfl rfl (.d8 _ _)
  | pea | per => exact inTables_one h rfl rfl (.a16 _ _)
  | jsrl => exact inTables_one h rfl rfl (.a24 _ _)
  | mvn | mvp => exact inTables_one h rfl rfl (.blk _ _ _)
  | xab => exact inTables_after89 h rfl rfl (.none _)
  | ldt => exact inTables_after89 h rfl rfl (.i8 _ _)
  | rla => exact inTables_after89 h rfl rfl (.im _ _)
  | jmp t | jsr t => cases t <;> exact inTables_one h rfl rfl (.a16 _ _)
  | jmpl t =>
    cases t with
    | abl => exact inTables_one h rfl rfl (.a24 _ _)
    | ind => exact inTables_one h rfl rfl (.a16 _ _)
  | lda r o | adc r o | sbc r o | and r o | ora r o | eor r o | cmp r o =>
    cases o with
    | imm v => exact inTables_acc r h rfl rfl (.im _ v)
    | mem q =>
      refine inTables_accSrc rfl ?_
      cases q with
      | dirY | long | longY => cases h
      | _ => dsimp only [Mem.offset]; rfl
  | sta r q =>
    refine inTables_accMem rfl ?_
    cases q with
    | dirY | long | longY => cases h
    | _ => dsimp only [Mem.offset]; rfl
  | ldal r q | stal r q | adcl r q | sbcl r q | andl r q | oral r q | eorl r q | cmpl r q =>
    refine inTables_accMem rfl ?_
    cases q with
    | long | longY => dsimp only [Mem.offset]; rfl
    | _ => cases h
  | mpy o | div o =>
    cases o with
    | imm v => exact inTables_after89 h rfl rfl (.im _ v)
    | mem q =>
      refine inTables_after89Src rfl ?_
      cases q with
      | dirY | long | longY => cases h
      | _ => dsimp only [Mem.offset]; rfl
  | mpyl q | divl q =>
    refine inTables_after89Mem rfl ?_
    cases q with
    | long | longY => dsimp only [Mem.offset]; rfl
    | _ => cases h
  | ldx o =>
    cases o with
    | imm v => exact inTables_one h rfl rfl (.ix _ v)
    | mem q =>
      refine inTables_src rfl ?_
      cases q with
      | dir | dirY | abs | absY => dsimp only [pickMode]; rfl
      | _ => cases h
  | ldy o =>
    cases o with
    | imm v => exact inTables_one h rfl rfl (.ix _ v)
    | mem q =>
      refine inTables_src rfl ?_
      cases q with
      | dir | dirX | abs | absX => dsimp only [pickMode]; rfl
      | _ => cases h
  | cpx o | cpy o =>
    cases o with
    | imm v => exact inTables_one h rfl rfl (.ix _ v)
    | mem q =>
      refine inTables_src rfl ?_
      cases q with
      | dir | abs => dsimp only [pickMode]; rfl
      | _ => cases h
  | stx q =>
    refine inTables_mem rfl ?_
    cases q with
    | dir | dirY | abs => dsimp only [pickMode]; rfl
    | _ => cases h
  | sty q =>
    refine inTables_mem rfl ?_
    cases q with
    | dir | dirX | abs => dsimp only [pickMode]; rfl
    | _ => cases h
  | asl t | lsr t | rol t | ror t | inc t | dec t =>
    cases t with
    | acc r => exact inTables_acc r h rfl rfl (.none _)
    | mem q =>
      refine inTables_target rfl ?_
      cases q with
      | dir | dirX | abs | absX => dsimp only [pickMode]; rfl
      | _ => cases h
  | ldm q v =>
    cases q with
    | dir d | dirX d => refine inTables_one h rfl (by dsimp only [pickMode]; rfl) ?_; exact .d8im _ d v
    | abs w | absX w => refine inTables_one h rfl (by dsimp only [pickMode]; rfl) ?_; exact .a16im _ w v
    | _ => cases h
  | clb q v | seb q v =>
    cases q with
    | dir d => refine inTables_one h rfl (by dsimp only [pickMode]; rfl) ?_; exact .d8im _ d v
    | abs w => refine inTables_one h rfl (by dsimp only [pickMode]; rfl) ?_; exact .a16im _ w v
    | _ => cases h
  | bbc q v rr | bbs q v rr =>
    cases q with
    | dir d => refine inTables_one h rfl (by dsimp only [pickMode]; rfl) ?_; exact .d8imr8 _ d v rr
    | abs w => refine inTables_one h rfl (by dsimp only [pickMode]; rfl) ?_; exact .a16imr8 _ w v rr
    | _ => cases h

/-! ## From a cell to its instructions -/

/-- Every form of the layout is encoded by these opcode bytes and its own, and is well-formed exactly when
its immediate fits. -/
def Agrees (m x : Bool) (lead : List Byte) (l : Layout) : Prop :=
  ∀ i fits bytes, Form m x l i fits bytes → i.wellFormed m x = fits ∧ encode m x i = lead ++ bytes

/-- `Agrees` for what a cell at byte `n` holds, behind the bytes `pre` where the cell has no accumulator choice. -/
def CellAgrees (m x : Bool) (pre : List Byte) (n : Nat) : Cell → Prop
  | .blank => True
  | .one l => Agrees m x (pre ++ [BitVec.ofNat 8 n]) l
  | .acc l => Agrees m x [BitVec.ofNat 8 n] (l .a) ∧ Agrees m x [0x42#8, BitVec.ofNat 8 n] (l .b)

/-- Every cell of a row agrees; the first one is at byte `n`. -/
def RowAgrees (m x : Bool) (pre : List Byte) : Nat → List Cell → Prop
  | _, [] => True
  | n, c :: cells => CellAgrees m x pre n c ∧ RowAgrees m x pre (n + 1) cells

/-- Every row of a table agrees; the first one begins at byte `n`. -/
def TableAgrees (m x : Bool) (pre : List Byte) : Nat → List (List Cell) → Prop
  | _, [] => True
  | n, row :: rows => RowAgrees m x pre n row ∧ TableAgrees m x pre (n + 16) rows

/-- Table 1 and the encoder agree, cell by cell: on what a cell makes, the encoder computes the cell's place. -/
theorem table1_agrees (m x : Bool) : TableAgrees m x [] 0 table1 := by
  simp only [table1, table1a, table1b, table1c, table1d, List.cons_append, List.nil_append, TableAgrees,
    RowAgrees, CellAgrees, cImp, cPair, cImm, cD, cA, cAl, cDm, cAm, cAlm, cD1, cA1, cIx, cT,
    and_true, true_and]
  and_intros
  all_goals
    intro i fits bytes h
    cases h
    exact ⟨rfl, rfl⟩

/-- The rows of Table 3 and the encoder agree in the same way. -/
theorem table3a_agrees (m x : Bool) : TableAgrees m x [0x89#8] 0 table3a := by
  simp only [table3a, TableAgrees, RowAgrees, CellAgrees, cImp, cD1, cA1, cAl1, and_true, true_and]
  and_intros
  all_goals
    intro i fits bytes h
    cases h
    exact ⟨rfl, rfl⟩

theorem RowAgrees.cell {m x : Bool} {pre : List Byte} {row : List Cell} :
    ∀ {n : Nat}, RowAgrees m x pre n row → ∀ c, CellAgrees m x pre (n + c) (row.getD c .blank) := by
  induction row with
  | nil => exact fun _ _ => trivial
  | cons cell row ih =>
    rintro n ⟨hcell, hrow⟩ (_ | c)
    · exact hcell
    · have hc := ih hrow c
      rwa [Nat.add_assoc, Nat.add_comm 1 c] at hc

theorem TableAgrees.row {m x : Bool} {pre : List Byte} {table : List (List Cell)} :
    ∀ {n : Nat}, TableAgrees m x pre n table → ∀ r, RowAgrees m x pre (n + 16 * r) (table.getD r []) := by
  induction table with
  | nil => exact fun _ _ => trivial
  | cons row table ih =>
    rintro n ⟨hrow, htable⟩ (_ | r)
    · exact hrow
    · have hr := ih htable r
      rwa [Nat.add_assoc, Nat.add_comm 16, ← Nat.mul_succ] at hr

/-- What stands at byte `b` of a table that agrees (R90, R100). -/
theorem TableAgrees.cellAt {m x : Bool} {pre : List Byte} {table : List (List Cell)}
    (h : TableAgrees m x pre 0 table) (b : Byte) : CellAgrees m x pre b.toNat (cellAt table b) := by
  have hcell := (h.row (b.toNat / 16)).cell (b.toNat % 16)
  rwa [Nat.zero_add, Nat.div_add_mod] at hcell

theorem Opcode.agrees {lead : List Byte} {l : Layout} (h : Opcode lead l) (m x : Bool) :
    Agrees m x lead l := by
  cases h with
  | @first b _ h =>
    have hb := (table1_agrees m x).cellAt b
    cases hc : cellAt table1 b with
    | blank => simp [layout1, hc] at h
    | one l' => simp_all [layout1, CellAgrees]
    | acc l' => simp_all [layout1, CellAgrees]
  | @after42 b _ h =>
    have hb := (table1_agrees m x).cellAt b
    cases hc : cellAt table1 b with
    | blank => simp [layout2, hc] at h
    | one l' => simp [layout2, hc] at h
    | acc l' => simp_all [layout2, CellAgrees]
  | @after89 b _ h =>
    have hb := (table3a_agrees m x).cellAt b
    unfold layout3 at h
    split_ifs at h with h49 hC2
    · cases h
      rintro _ _ _ ⟨⟩
      exact ⟨rfl, by rw [h49]; rfl⟩
    · cases h
      rintro _ _ _ ⟨⟩
      exact ⟨rfl, by rw [hC2]; rfl⟩
    · cases hc : cellAt table3a b with
      | blank => simp [hc] at h
      | one l' => simp_all [CellAgrees]
      | acc l' => simp [hc] at h

/-! ## The statements -/

/-- Settles O2: what decodes is a form in the tables (`decode_eq_ok_iff_form`), and the tables agree with the
encoder (`Opcode.agrees`). -/
theorem encodeInvertsDecode : Obligations.EncodeInvertsDecode := by
  intro m x f i len h
  obtain ⟨lead, l, bytes, hop, hform, hf, rfl⟩ := decode_eq_ok_iff_form.1 h
  obtain ⟨hwf, henc⟩ := hop.agrees m x i true bytes hform
  exact ⟨hwf, henc.trans (range_map_of_begins hf).symm⟩

/-- Settles O1: a well-formed instruction is encoded by a form in the tables (`inTables_of_wellFormed`), which
is what decodes (`decode_eq_ok_iff_form`). -/
theorem decodeInvertsEncode : Obligations.DecodeInvertsEncode := by
  intro m x i f hwf hf
  obtain ⟨lead, l, bytes, hop, hform, henc⟩ := inTables_of_wellFormed hwf
  rw [henc] at hf ⊢
  exact decode_eq_ok_iff_form.2 ⟨lead, l, bytes, hop, hform, hf, rfl⟩

/-- A listed encoding decodes, whatever the list is padded with. -/
theorem decode_getD {m x : Bool} {i : Instr} {bytes : List Byte} {pad : Byte} {len : Nat}
    (hwf : i.wellFormed m x = true) (henc : encode m x i = bytes) (hlen : bytes.length = len) :
    decode m x (fun k => bytes.getD k pad) = .ok (i, len) := by
  subst henc hlen
  exact decodeInvertsEncode m x i _ hwf fun k b h => by simp [List.getD, h]

/-- Settles O3: each of the nine byte sequences is the encoding of its instruction. -/
theorem manualWordsDecode : Obligations.ManualWordsDecode :=
  ⟨decode_getD rfl rfl rfl, decode_getD rfl rfl rfl, decode_getD rfl rfl rfl, decode_getD rfl rfl rfl,
    decode_getD rfl rfl rfl, decode_getD rfl rfl rfl, decode_getD rfl rfl rfl, decode_getD rfl rfl rfl,
    decode_getD rfl rfl rfl⟩

/-! ## Undefined encodings (R106, R332) -/

theorem instrStep_of_undefined {s : State} {e : Undefined} (h : fetchDecode s = .error e) :
    instrStep s = .fault (.undefinedOpcode s.pc24 e.bytes) := by
  rw [instrStep, h]

/-- The blank cells of Table 1: the undefined first byte 02h, and the lead bytes of Tables 2 and 3. -/
theorem layout1_eq_none_iff (b : Byte) :
    layout1 b = none ↔ b = 0x02#8 ∨ b = 0x42#8 ∨ b = 0x89#8 := by
  have hblank : ∀ b : Byte,
      (layout1 b).isNone = decide (b = 0x02#8 ∨ b = 0x42#8 ∨ b = 0x89#8) := by decide
  rw [← Option.isNone_iff_eq_none, hblank, decide_eq_true_iff]

/-- Decoding fails at a blank cell of the table that the first byte selects. -/
theorem decode_error_iff {m x : Bool} {f : Nat → Byte} :
    (∃ e, decode m x f = .error e) ↔
      f 0 = 0x02#8 ∨ (f 0 = 0x42#8 ∧ layout2 (f 1) = none) ∨ (f 0 = 0x89#8 ∧ layout3 (f 1) = none) := by
  by_cases h42 : f 0 = 0x42#8
  · cases h : layout2 (f 1) <;> simp [decode, h42, h]
  · by_cases h89 : f 0 = 0x89#8
    · cases h : layout3 (f 1) <;> simp [decode, h89, h]
    · have hblank := layout1_eq_none_iff (f 0)
      cases h : layout1 (f 0) <;> simp_all [decode]

/-- Settles O5: the step is an instruction step, whose decoding fails where a table is blank; the blanks of
Tables 2 and 3 are counted. -/
theorem undefinedEncodingFaults : Obligations.UndefinedEncodingFaults := by
  refine ⟨fun s hreset hchoose hrun e hdecode => ?_, fun m x f => decode_error_iff, rfl, rfl⟩
  rw [step_eq_instrStep hreset hchoose hrun, instrStep_of_undefined hdecode]

end Sys2Proof.Proofs
end

section
/-! PROOFS. PSH, and PUL with the same mask (30_encoding.md R114; 43_stack.md R216, R217). -/

namespace Sys2Proof.Proofs

open Sys2Proof.Machine Sys2Proof.Laws

/-! ## PSH -/

/-- From `s` to `t` the bytes have been pushed and nothing else done, and memory is canonical in `t`. -/
def Pushed (bytes : List Byte) (s t : State) : Prop := Pushes bytes s s t ∧ Memory.wf t.mem = true

/-- A selected register's push adds its bytes, an unselected one's nothing. -/
theorem Pushed.onBit {c d : List Byte} {s t : State} (h : Pushed c s t) {bit : Bool} {f : State → State}
    (hf : Memory.wf t.mem = true → Pushed d t (f t)) :
    Pushed (c ++ if bit then d else []) s (onBit bit f t) := by
  obtain ⟨hc, hwf⟩ := h
  cases bit with
  | false => simpa using ⟨hc, hwf⟩
  | true =>
    obtain ⟨hd, hwf'⟩ := hf hwf
    exact ⟨pushes_trans hc hd, hwf'⟩

theorem pushed_push8 (v : Byte) {s : State} (hs : Memory.wf s.mem = true) : Pushed [v] s (push8 v s) :=
  ⟨push8_pushes hs v, push8_wf hs v⟩

theorem pushed_push16 (v : Word) {s : State} (hs : Memory.wf s.mem = true) :
    Pushed [hi8 v, lo8 v] s (push16 v s) := ⟨push16_pushes hs v, push16_wf hs v⟩

theorem pushed_pushData (f : Bool) (v : Word) {s : State} (hs : Memory.wf s.mem = true) :
    Pushed (pushBytes f v) s (pushData (widthOf f) v s) := ⟨pushData_pushes hs f v, pushData_wf hs _ v⟩

/-- The bytes that PSH pushes, in their order (R216). -/
def pshBytes (nn : Byte) (s : State) : List Byte :=
  (if nn.getLsbD 0 then pushBytes s.ps.m s.a else []) ++ (if nn.getLsbD 1 then pushBytes s.ps.m s.b else []) ++
  (if nn.getLsbD 2 then pushBytes s.ps.x s.x else []) ++ (if nn.getLsbD 3 then pushBytes s.ps.x s.y else []) ++
  (if nn.getLsbD 4 then [hi8 s.dpr, lo8 s.dpr] else []) ++ (if nn.getLsbD 5 then [s.dt] else []) ++
  (if nn.getLsbD 6 then [s.pg] else []) ++
  (if nn.getLsbD 7 then [hi8 s.ps.toWord, lo8 s.ps.toWord] else [])

theorem exec_psh_pushed (nn : Byte) {s : State} (hs : Memory.wf s.mem = true) :
    ∃ t, exec (.psh nn) s = .next t ∧ Pushed (pshBytes nn s) s t := by
  refine ⟨_, rfl, ?_⟩
  refine .onBit ?_ (pushed_push16 _)
  refine .onBit ?_ (pushed_push8 _)
  refine .onBit ?_ (pushed_push8 _)
  refine .onBit ?_ (pushed_push16 _)
  refine .onBit ?_ (pushed_pushData _ _)
  refine .onBit ?_ (pushed_pushData _ _)
  refine .onBit ?_ (pushed_pushData _ _)
  exact .onBit (c := []) ⟨pushes_nil s, hs⟩ (pushed_pushData _ _)

/-- Settles O38: each selected register adds its bytes to those pushed before it (`Pushed.onBit`). -/
theorem pshStores : Obligations.PshStores := by
  intro s nn hs
  obtain ⟨t, hexec, hpushes, -⟩ := exec_psh_pushed nn hs
  exact ⟨t, hexec, hpushes⟩

/-! ## What pulls find after pushes -/

/-- The bytes above S, the first pulled first. -/
def OnStack (bytes : List Byte) (s : State) : Prop :=
  Begins (fun k => peek8 (BitVec.ofNat 16 (k + 1)) s) bytes

/-- Pulling the first bytes leaves the others on the stack. -/
theorem onStack_append {c d : List Byte} {s : State} :
    OnStack (c ++ d) s ↔ OnStack c s ∧ OnStack d (dropStack (BitVec.ofNat 16 c.length) s) := by
  have hpeek : ∀ k, peek8 (BitVec.ofNat 16 (k + 1)) (dropStack (BitVec.ofNat 16 c.length) s) =
      peek8 (BitVec.ofNat 16 (c.length + k + 1)) s := fun k => by
    have hsp : s.sp + BitVec.ofNat 16 c.length + BitVec.ofNat 16 (k + 1) =
        s.sp + BitVec.ofNat 16 (c.length + k + 1) := by bv_omega
    exact congrArg (fun p => busRead s (zx24 p)) hsp
  simp only [OnStack, begins_append, hpeek]

theorem zx24_inj {p q : Word} : zx24 p = zx24 q ↔ p = q := by
  rw [← BitVec.toNat_inj, ← BitVec.toNat_inj, zx24_toNat, zx24_toNat]

/-- Pushes from S on write at S, S - 1, … . -/
theorem mem_pushCells {a : Addr} {bytes : List Byte} : ∀ {sp : Word},
    a ∈ (pushCells sp bytes).map Prod.fst → ∃ j < bytes.length, a = zx24 (sp - BitVec.ofNat 16 j) := by
  induction bytes with
  | nil => intro sp h; cases h
  | cons b bytes ih =>
    intro sp h
    obtain rfl | h := List.mem_cons.1 h
    · exact ⟨0, by simp, by simp⟩
    · obtain ⟨j, hj, rfl⟩ := ih h
      exact ⟨j + 1, by simpa using hj, by congr 1; bv_omega⟩

/-- Where the stack is RAM and the pushes do not wrap onto themselves, the `k`-th byte pushed lies at S - k. -/
theorem foldl_pushCells {s : State} (hram : StackIsRam s) {b : Byte} {bytes : List Byte} :
    ∀ {sp : Word} {f : Addr → Byte} {k : Nat}, bytes.length < 65536 → bytes[k]? = some b →
      (pushCells sp bytes).foldl (fun f c a => if a = c.1 ∧ mapKind s c.1 = .ram then c.2 else f a) f
        (zx24 (sp - BitVec.ofNat 16 k)) = b := by
  induction bytes with
  | nil => intro _ _ _ _ hk; cases hk
  | cons c bytes ih =>
    intro sp f k hlen hk
    rw [List.length_cons] at hlen
    rw [pushCells, List.foldl_cons]
    cases k with
    | zero =>
      rw [viewAfter_other s]
      · simpa [hram sp] using hk
      · intro hmem
        obtain ⟨j, hj, hsp⟩ := mem_pushCells hmem
        rw [zx24_inj] at hsp
        bv_omega
    | succ k =>
      have hsp : sp - BitVec.ofNat 16 (k + 1) = sp - 1#16 - BitVec.ofNat 16 k := by bv_omega
      rw [hsp]
      exact ih (by omega) hk

/-- Pulls find the pushed bytes, the last one first. -/
theorem onStack_of_pushes {bytes : List Byte} {s t : State} (h : Pushes bytes s s t) (hram : StackIsRam s)
    (hlen : bytes.length < 65536) : OnStack bytes.reverse t := by
  obtain ⟨ht, hview, -⟩ := h
  have hsp : t.sp = s.sp - BitVec.ofNat 16 bytes.length := congrArg State.sp ht
  intro k b hk
  have hk' : k < bytes.length := by simpa using (List.getElem?_eq_some_iff.1 hk).1
  rw [List.getElem?_reverse hk'] at hk
  have haddr : t.sp + BitVec.ofNat 16 (k + 1) = s.sp - BitVec.ofNat 16 (bytes.length - 1 - k) := by
    rw [hsp]; bv_omega
  show busRead t (zx24 (t.sp + BitVec.ofNat 16 (k + 1))) = b
  rw [haddr, hview]
  exact foldl_pushCells hram hlen hk

/-- Nothing pushed on a stack in RAM goes out to I/O. -/
theorem ioAfterAll_of_ram {s : State} {cells : List (Addr × Byte)}
    (h : ∀ c ∈ cells, mapKind s c.1 = .ram) : ioAfterAll s cells = s.ioOut := by
  unfold ioAfterAll
  induction cells with
  | nil => rfl
  | cons c cells ih =>
    obtain ⟨hc, hcells⟩ := List.forall_mem_cons.1 h
    rw [List.foldl_cons, hc]
    exact ih hcells

/-! ## PUL with the mask of a PSH -/

/-- `s` with another S and other contents of memory and queue. -/
def withStack (sp : Word) (mem stale : List Host.Cell) (s : State) : State :=
  { s with sp := sp, mem := mem, stale := stale }

/-- The registers, apart from S, are those of `s`, and on the stack lie the bytes whose pulls bring S back to
that of `s`. -/
def Pulling (bytes : List Byte) (s v : State) : Prop :=
  (∃ sp mem stale, v = withStack sp mem stale s) ∧ OnStack bytes v ∧
    v.sp + BitVec.ofNat 16 bytes.length = s.sp

theorem pulling_of_pushes {bytes : List Byte} {s t : State} (h : Pushes bytes s s t) (hram : StackIsRam s)
    (hlen : bytes.length < 65536) : Pulling bytes.reverse s t := by
  have hstack := onStack_of_pushes h hram hlen
  obtain ⟨ht, -, -, hio⟩ := h
  have hkeep : t.ioOut = s.ioOut := hio.trans <| ioAfterAll_of_ram fun c hc => by
    obtain ⟨j, -, hj⟩ := mem_pushCells (List.mem_map_of_mem hc)
    rw [hj, hram]
  refine ⟨⟨t.sp, t.mem, t.stale, ht.trans ?_⟩, hstack, ?_⟩
  · rw [State.memoryOf, hkeep, ht]
    rfl
  · rw [congrArg State.sp ht, List.length_reverse]
    exact BitVec.sub_add_cancel _ _

theorem Pulling.drop {c d : List Byte} {s v : State} (h : Pulling (c ++ d) s v) :
    Pulling d s (dropStack (BitVec.ofNat 16 c.length) v) := by
  obtain ⟨⟨sp, mem, stale, rfl⟩, hstack, hsp⟩ := h
  refine ⟨⟨_, mem, stale, rfl⟩, (onStack_append.1 hstack).2, ?_⟩
  rw [List.length_append, BitVec.ofNat_add, ← BitVec.add_assoc] at hsp
  exact hsp

theorem Pulling.ps_eq {bytes : List Byte} {s v : State} (h : Pulling bytes s v) : v.ps = s.ps := by
  obtain ⟨⟨_, _, _, rfl⟩, -⟩ := h
  rfl

/-- With every byte pulled S is as before too. -/
theorem Pulling.eq_of_nil {s v : State} (h : Pulling [] s v) :
    v = { s with mem := v.mem, stale := v.stale } := by
  obtain ⟨⟨sp, mem, stale, rfl⟩, -, hsp⟩ := h
  have hsp' : sp = s.sp := by simpa [withStack] using hsp
  rw [hsp']
  rfl

/-- A selected register whose pull restores what it holds is as before, and its bytes are gone. -/
theorem Pulling.onBit {s v : State} {bit : Bool} {f : State → State} {c : State → List Byte} {d : List Byte}
    (h : Pulling ((if bit then c s else []).reverse ++ d) s v)
    (hc : ∀ sp mem stale, c (withStack sp mem stale s) = c s)
    (hf : OnStack (c v).reverse v → f v = dropStack (BitVec.ofNat 16 (c v).length) v) :
    Pulling d s (onBit bit f v) := by
  cases bit with
  | false => simpa using h
  | true =>
    obtain ⟨sp, mem, stale, hv⟩ := h.1
    have hcv : c v = c s := by rw [hv, hc]
    rw [onBit_true, hf (hcv ▸ (onStack_append.1 h.2.1).1), hcv, ← List.length_reverse]
    exact h.drop

/-! ### A pull of what the register holds -/

theorem peek8_of_onStack {b : Byte} {v : State} (h : OnStack [b] v) : peek8 1#16 v = b :=
  (begins_cons.1 h).1

theorem peek16_of_onStack {w : Word} {v : State} (h : OnStack [lo8 w, hi8 w] v) : peek16 1#16 v = w := by
  obtain ⟨hlo, hrest⟩ := begins_cons.1 h
  obtain ⟨hhi, -⟩ := begins_cons.1 hrest
  have hlo' : peek8 1#16 v = lo8 w := hlo
  have hhi' : peek8 (1#16 + 1#16) v = hi8 w := hhi
  rw [peek16, hhi', hlo', mkWord_hi8_lo8]

theorem merge_peekData_of_onStack {f : Bool} {w : Word} {v : State} (h : OnStack (pushBytes f w).reverse v) :
    (widthOf f).merge w (peekData (widthOf f) v) = w := by
  cases f with
  | false => exact peek16_of_onStack h
  | true => simp [widthOf, Width.merge, peekData, peek8_of_onStack h]

theorem pullCount_eq (f : Bool) (w : Word) :
    pullCount (widthOf f) = BitVec.ofNat 16 (pushBytes f w).length := by cases f <;> rfl

theorem pulPs_of_onStack {v : State} (h : OnStack [hi8 v.ps.toWord, lo8 v.ps.toWord].reverse v) :
    pulPs v = dropStack 2#16 v := by
  rw [pulPs, peek16_of_onStack h, psr_ofWord_toWord]

theorem pulDt_of_onStack {v : State} (h : OnStack [v.dt].reverse v) : pulDt v = dropStack 1#16 v := by
  rw [pulDt, peek8_of_onStack h]

theorem pulDpr_of_onStack {v : State} (h : OnStack [hi8 v.dpr, lo8 v.dpr].reverse v) :
    pulDpr v = dropStack 2#16 v := by
  rw [pulDpr, peek16_of_onStack h]

theorem pulY_of_onStack {v : State} (h : OnStack (pushBytes v.ps.x v.y).reverse v) :
    pulY v = dropStack (BitVec.ofNat 16 (pushBytes v.ps.x v.y).length) v := by
  rw [pulY, writeY, wx_eq, merge_peekData_of_onStack h, pullData, pullCount_eq]

theorem pulX_of_onStack {v : State} (h : OnStack (pushBytes v.ps.x v.x).reverse v) :
    pulX v = dropStack (BitVec.ofNat 16 (pushBytes v.ps.x v.x).length) v := by
  rw [pulX, writeX, wx_eq, merge_peekData_of_onStack h, pullData, pullCount_eq]

theorem accPut_accGet (r : Acc) (v : State) : accPut r (accGet r v) v = v := by cases r <;> rfl

theorem pulAcc_of_onStack (r : Acc) {v : State} (h : OnStack (pushBytes v.ps.m (accGet r v)).reverse v) :
    pulAcc r v = dropStack (BitVec.ofNat 16 (pushBytes v.ps.m (accGet r v)).length) v := by
  rw [pulAcc, accWrite, wm_eq, merge_peekData_of_onStack h, accPut_accGet, pullData, pullCount_eq]

theorem pushBytes_length_le (f : Bool) (w : Word) : (pushBytes f w).length ≤ 2 := by
  cases f <;> simp [pushBytes]

theorem selected_length_le (bit : Bool) {bytes : List Byte} (h : bytes.length ≤ 2) :
    (if bit then bytes else []).length ≤ 2 := by
  cases bit with
  | false => simp
  | true => exact h

theorem pshBytes_length_le (nn : Byte) (s : State) : (pshBytes nn s).length ≤ 16 := by
  have h0 := selected_length_le (nn.getLsbD 0) (pushBytes_length_le s.ps.m s.a)
  have h1 := selected_length_le (nn.getLsbD 1) (pushBytes_length_le s.ps.m s.b)
  have h2 := selected_length_le (nn.getLsbD 2) (pushBytes_length_le s.ps.x s.x)
  have h3 := selected_length_le (nn.getLsbD 3) (pushBytes_length_le s.ps.x s.y)
  have h4 := selected_length_le (nn.getLsbD 4) (bytes := [hi8 s.dpr, lo8 s.dpr]) (by simp)
  have h5 := selected_length_le (nn.getLsbD 5) (bytes := [s.dt]) (by simp)
  have h6 := selected_length_le (nn.getLsbD 6) (bytes := [s.pg]) (by simp)
  have h7 := selected_length_le (nn.getLsbD 7) (bytes := [hi8 s.ps.toWord, lo8 s.ps.toWord]) (by simp)
  simp only [pshBytes, List.length_append]
  omega

/-- PUL takes the bytes of a PSH with its mask off the stack, the last one first; every register holds what
is pulled into it, so that nothing but S changes. -/
theorem exec_pul_pulling {nn : Byte} (h6 : nn.getLsbD 6 = false) {s t : State}
    (h : Pulling (pshBytes nn s).reverse s t) : ∃ v, exec (.pul nn) t = .next v ∧ Pulling [] s v := by
  simp only [pshBytes, List.reverse_append, List.append_assoc, h6, Bool.false_eq_true, if_false,
    List.nil_append] at h
  rw [← List.append_nil (List.reverse (ite (nn.getLsbD 0 = true) _ _))] at h
  have h7 := h.onBit (c := fun s => [hi8 s.ps.toWord, lo8 s.ps.toWord]) (fun _ _ _ => rfl) pulPs_of_onStack
  have h5 := h7.onBit (c := fun s => [s.dt]) (fun _ _ _ => rfl) pulDt_of_onStack
  have h4 := h5.onBit (c := fun s => [hi8 s.dpr, lo8 s.dpr]) (fun _ _ _ => rfl) pulDpr_of_onStack
  have h3 := h4.onBit (c := fun s => pushBytes s.ps.x s.y) (fun _ _ _ => rfl) pulY_of_onStack
  have h2 := h3.onBit (c := fun s => pushBytes s.ps.x s.x) (fun _ _ _ => rfl) pulX_of_onStack
  have h1 := h2.onBit (c := fun s => pushBytes s.ps.m s.b) (fun _ _ _ => rfl) (pulAcc_of_onStack .b)
  have h0 := h1.onBit (c := fun s => pushBytes s.ps.m s.a) (fun _ _ _ => rfl) (pulAcc_of_onStack .a)
  have hkeep : (nn.getLsbD 7 && !t.ps.m && s.ps.m) = false := by simp [h.ps_eq]
  refine ⟨_, rfl, ?_⟩
  rw [h0.ps_eq, hkeep]
  exact h0

/-- Settles O40: what PSH has pushed (`exec_psh_pushed`) lies on the stack (`pulling_of_pushes`), and PUL takes
it off again (`exec_pul_pulling`). -/
theorem pulUndoesPsh : Obligations.PulUndoesPsh := by
  intro s t u nn hs hram h6 hpsh hpul
  obtain ⟨t', hpsh', hpushes, -⟩ := exec_psh_pushed nn hs
  obtain rfl : t' = t := by simpa [hpsh] using hpsh'.symm
  have hlen := pshBytes_length_le nn s
  obtain ⟨v, hpul', hv⟩ := exec_pul_pulling h6 (pulling_of_pushes hpushes hram (by omega))
  obtain rfl : v = u := by simpa [hpul] using hpul'.symm
  exact hv.eq_of_nil

end Sys2Proof.Proofs
end

section
/-! PROOFS. The addressing modes as numbers (40_addressing_modes.md R121 to R140, R145 to R149; 41_load_store.md
R160): effective addresses, what the operand forms read, and the targets of the jumps (R303). -/

namespace Sys2Proof.Proofs

open Sys2Proof.Machine Sys2Proof.Laws

/-! ## Indexing (R125, R126, R134 to R137, R148, R149) -/

theorem low_lt_word (f : Bool) (v : Word) : low f v < 2 ^ 16 :=
  (Nat.mod_le v.toNat (span f)).trans_lt v.isLt

theorem add_readX_toNat (p : Addr) (s : State) :
    (p + zx24 (readX s)).toNat = (p.toNat + low s.ps.x s.x) % 2 ^ 24 := by
  rw [BitVec.toNat_add, zx24_toNat, readX_toNat]

theorem add_readY_toNat (p : Addr) (s : State) :
    (p + zx24 (readY s)).toNat = (p.toNat + low s.ps.x s.y) % 2 ^ 24 := by
  rw [BitVec.toNat_add, zx24_toNat, readY_toNat]

theorem directBase_add_lt (d : Byte) (s : State) {n : Nat} (h : n < 2 ^ 16) :
    s.dpr.toNat + d.toNat + n < 2 ^ 24 := by
  omega

/-- An index does not take a direct address out of the 24 bits. -/
theorem directBase_add_readX_toNat (d : Byte) (s : State) :
    (directBase d s + zx24 (readX s)).toNat = s.dpr.toNat + d.toNat + low s.ps.x s.x := by
  rw [add_readX_toNat, directBase_toNat, Nat.mod_eq_of_lt (directBase_add_lt d s (low_lt_word _ _))]

theorem directBase_add_readY_toNat (d : Byte) (s : State) :
    (directBase d s + zx24 (readY s)).toNat = s.dpr.toNat + d.toNat + low s.ps.x s.y := by
  rw [add_readY_toNat, directBase_toNat, Nat.mod_eq_of_lt (directBase_add_lt d s (low_lt_word _ _))]

/-! ## Pointers (R127 to R131, R138 to R140, R146) -/

theorem mkAddr_readWord_toNat (b : Byte) (s : State) (p : Addr) :
    (mkAddr b (readWord s p)).toNat = b.toNat * 65536 + wordAt p.toNat s := by
  rw [mkAddr_toNat, readWord_toNat]

/-- The pointer of (ABS,X), read in any state `t`: its address need not be reduced first. -/
theorem wordAt_indexedPointer (w : Word) (s t : State) :
    wordAt (indexedPointer w s).toNat t =
      wordAt (if s.par.indexWraps then
          (jumpBank s.par.bankX s).toNat * 65536 + (w.toNat + low s.ps.x s.x) % 65536
        else (jumpBank s.par.bankX s).toNat * 65536 + (w.toNat + low s.ps.x s.x)) t :=
  wordAt_congr (indexedPointer_mod w s) t

theorem indirectPointer_toNat (w : Word) (s : State) :
    (indirectPointer w s).toNat = (jumpBank s.par.bankI s).toNat * 65536 + w.toNat :=
  mkAddr_toNat _ _

/-! ## The effective addresses -/

/-- Settles O24: neither the direct base nor the stack base wraps, and an index of 16 bits leaves room. -/
theorem directAddresses : Obligations.DirectAddresses := fun s d =>
  ⟨directBase_toNat d s, directBase_add_readX_toNat d s, directBase_add_readY_toNat d s, stackBase_toNat d s⟩

/-- Settles O25: each mode reads its pointer at the base that O24 gives, and Y is added to what it has read. -/
theorem indirectAddresses : Obligations.IndirectAddresses := by
  intro s d p bank long
  have hword : (mkAddr s.dt (readWord s (directBase d s))).toNat = bank + wordAt p s := by
    rw [mkAddr_readWord_toNat, directBase_toNat]
  have hlong : (readAddr s (directBase d s)).toNat = long := by
    rw [readAddr_toNat, directBase_toNat]
  refine ⟨hword, ?indX, ?indY, hlong, ?longY, ?srY⟩
  case indX => rw [effAddr, mkAddr_readWord_toNat, directBase_add_readX_toNat]
  case indY => rw [effAddr, add_readY_toNat, hword]
  case longY => rw [effAddr, add_readY_toNat, hlong]
  case srY => rw [effAddr, add_readY_toNat, mkAddr_readWord_toNat, stackBase_toNat]

/-- Settles O26: the plain address as a number, and the index added to it. -/
theorem absoluteAddresses : Obligations.AbsoluteAddresses := by
  intro s w l
  have habs : (mkAddr s.dt w).toNat = s.dt.toNat * 65536 + w.toNat := mkAddr_toNat _ _
  refine ⟨habs, ?absX, ?absY, rfl, add_readX_toNat l s⟩
  case absX => rw [effAddr, add_readX_toNat, habs]
  case absY => rw [effAddr, add_readY_toNat, habs]

/-! ## What the operand forms read (R121, R122, R160) -/

/-- A datum of either length as a number. -/
theorem readData_toNat (f : Bool) (s : State) (a : Addr) :
    (readData (widthOf f) s a).toNat = if f then (busRead s a).toNat else wordAt a.toNat s := by
  cases f with
  | true => exact zx8_toNat _
  | false => exact readWord_toNat s a

/-- Settles O27: only a datum of memory (`readData_toNat`) and a register at a length have content of their
own; the forms are read by definition. -/
theorem operandReads : Obligations.OperandReads := fun s flag =>
  ⟨fun v => (low_eq flag v).symm, fun _ => rfl, fun k => readData_toNat flag s (effAddr k s),
    fun r => accRead_toNat r s, fun _ => rfl⟩

/-! ## Jumps (R138 to R140, R303) -/

theorem exec_jmp (t : JmpOperand) (s : State) : exec (.jmp t) s = execJmp t s := rfl

theorem exec_jmpl (t : JmplOperand) (s : State) : exec (.jmpl t) s = execJmpl t s := rfl

/-- A jump within a bank, to the word that a pointer holds. -/
theorem jumpTo_mkAddr_readWord (b : Byte) (p : Addr) (s : State) :
    jumpTo (mkAddr b (readWord s p)) s = goTo (b.toNat * 65536 + wordAt p.toNat s) s := by
  rw [jumpTo_eq, mkAddr_readWord_toNat]

/-- Settles O54: each form is a jump to its target, and the target is said as a number. -/
theorem jumpResults : Obligations.JumpResults := by
  intro s w l bank p bx sum px
  refine ⟨?jmp_abs, ?jmp_ind, ?jmp_indX, ?jmpl_abl, ?jmpl_ind⟩
  case jmp_abs => rw [exec_jmp, execJmp, jumpTo_mkAddr]
  case jmp_ind => rw [exec_jmp, execJmp, jumpTo_mkAddr_readWord, indirectPointer_toNat]
  case jmp_indX => rw [exec_jmp, execJmp, jumpTo_mkAddr_readWord, wordAt_indexedPointer]
  case jmpl_abl => rw [exec_jmpl, execJmpl, jumpTo_eq]
  case jmpl_ind => rw [exec_jmpl, execJmpl, jumpTo_eq, readAddr_toNat, indirectPointer_toNat]

end Sys2Proof.Proofs
end

section
/-! PROOFS. The load and store instructions (41_load_store.md R160 to R168). -/

namespace Sys2Proof.Proofs

open Sys2Proof.Machine Sys2Proof.Laws

/-! ## Loads (R161, R163 to R165) -/

theorem exec_lda (r : Acc) (op : Operand) (s : State) :
    exec (.lda r op) s = .next (loadAcc r (opRead s.wm op s) s) := rfl

theorem exec_ldal (r : Acc) (k : Mem) (s : State) :
    exec (.ldal r k) s = .next (loadAcc r (memOperand s.wm k s) s) := rfl

theorem exec_ldx (op : Operand) (s : State) : exec (.ldx op) s = .next (loadX (opRead s.wx op s) s) := rfl

theorem exec_ldy (op : Operand) (s : State) : exec (.ldy op) s = .next (loadY (opRead s.wx op s) s) := rfl

theorem exec_ldt (v : Byte) (s : State) : exec (.ldt v) s = .next { s with dt := v } := rfl

/-- Settles O28: a load is `loadAcc`, `loadX` or `loadY` of the word read, whose number is `opNum` or
`memNum`. -/
theorem loadResults : Obligations.LoadResults := by
  intro s
  refine ⟨fun r op => ?lda, fun r k => ?ldal, fun op => ?ldx, fun op => ?ldy, fun v => exec_ldt v s⟩
  case lda => rw [exec_lda, loadAcc_eq, opNum, wm_eq]
  case ldal => rw [exec_ldal, loadAcc_eq, memNum, wm_eq]
  case ldx => rw [exec_ldx, loadX_eq, opNum, wx_eq]
  case ldy => rw [exec_ldy, loadY_eq, opNum, wx_eq]

/-! ## Stores (R162, R166 to R168) -/

theorem exec_ldm (k : Mem) (v : Word) (s : State) :
    exec (.ldm k v) s = .next (writeData s.wm (effAddr k s) v s) := rfl

theorem exec_sta (r : Acc) (k : Mem) (s : State) :
    exec (.sta r k) s = .next (writeData s.wm (effAddr k s) (accRead r s) s) := rfl

theorem exec_stal (r : Acc) (k : Mem) (s : State) :
    exec (.stal r k) s = .next (writeData s.wm (effAddr k s) (accRead r s) s) := rfl

theorem exec_stx (k : Mem) (s : State) :
    exec (.stx k) s = .next (writeData s.wx (effAddr k s) (readX s) s) := rfl

theorem exec_sty (k : Mem) (s : State) :
    exec (.sty k) s = .next (writeData s.wx (effAddr k s) (readY s) s) := rfl

/-- An instruction that writes one datum and is done stores exactly the bytes of the datum's number. -/
theorem stores_of_exec_eq_writeData {i : Instr} {s : State} {f : Bool} {a : Addr} {v : Word} {n : Nat}
    (hs : Memory.wf s.mem = true) (hi : exec i s = .next (writeData (widthOf f) a v s)) (hv : v.toNat = n) :
    ∃ t, exec i s = .next t ∧ Stores (dataCells f a n) s s t :=
  ⟨_, hi, hv ▸ writeData_stores hs f a v⟩

/-- Settles O29: each instruction writes one datum at the effective address
(`stores_of_exec_eq_writeData`), whose number is the register's at the length, or the immediate's. -/
theorem storeResults : Obligations.StoreResults := fun s hs =>
  ⟨fun r k => stores_of_exec_eq_writeData hs (exec_sta r k s) (accRead_toNat r s),
    fun r k => stores_of_exec_eq_writeData hs (exec_stal r k s) (accRead_toNat r s),
    fun k => stores_of_exec_eq_writeData hs (exec_stx k s) (readX_toNat s),
    fun k => stores_of_exec_eq_writeData hs (exec_sty k s) (readY_toNat s),
    fun k v => stores_of_exec_eq_writeData hs (exec_ldm k v s) rfl⟩

end Sys2Proof.Proofs
end

section
/-! PROOFS. The register transfers, XAB and the block transfers (42_transfer_block.md R170 to R199). -/

namespace Sys2Proof.Proofs

open Sys2Proof.Machine Sys2Proof.Laws

/-! ## Register transfers (R171 to R190) -/

/-- An instruction that ends in a load of an accumulator, by the number of the loaded word. -/
theorem exec_eq_gotAcc {i : Instr} {s : State} {r : Acc} {v : Word} {n : Nat}
    (hi : exec i s = .next (loadAcc r v s)) (hv : v.toNat = n) : exec i s = .next (gotAcc r n s) := by
  rw [hi, loadAcc_eq, hv]

theorem exec_eq_gotX {i : Instr} {s : State} {v : Word} {n : Nat}
    (hi : exec i s = .next (loadX v s)) (hv : v.toNat = n) : exec i s = .next (gotX n s) := by
  rw [hi, loadX_eq, hv]

theorem exec_eq_gotY {i : Instr} {s : State} {v : Word} {n : Nat}
    (hi : exec i s = .next (loadY v s)) (hv : v.toNat = n) : exec i s = .next (gotY n s) := by
  rw [hi, loadY_eq, hv]

/-- Settles O30: each rule is `loadAcc` of its source, and an index register is read at the length x
selects. -/
theorem transfersToAccumulators : Obligations.TransfersToAccumulators := by
  refine ⟨fun s => ⟨?tda, ?tdb, ?tsa, ?tsb, ?txa, ?txb, ?tya, ?tyb⟩,
    fun m x => ⟨rfl, rfl, rfl, rfl, rfl, rfl, rfl, rfl⟩⟩
  case tda | tdb => exact exec_eq_gotAcc (v := s.dpr) rfl rfl
  case tsa | tsb => exact exec_eq_gotAcc (v := s.sp) rfl rfl
  case txa | txb => exact exec_eq_gotAcc rfl (readX_toNat s)
  case tya | tyb => exact exec_eq_gotAcc rfl (readY_toNat s)

/-- Settles O31: each rule is `loadX` or `loadY` of its source. -/
theorem transfersToIndexRegisters : Obligations.TransfersToIndexRegisters := by
  refine ⟨fun s => ⟨?tax, ?tay, ?tbx, ?tby, ?tsx, ?txy, ?tyx⟩,
    fun m x => ⟨rfl, rfl, rfl, rfl, rfl, rfl, rfl⟩⟩
  case tax => exact exec_eq_gotX (v := s.a) rfl rfl
  case tay => exact exec_eq_gotY (v := s.a) rfl rfl
  case tbx => exact exec_eq_gotX (v := s.b) rfl rfl
  case tby => exact exec_eq_gotY (v := s.b) rfl rfl
  case tsx => exact exec_eq_gotX (v := s.sp) rfl rfl
  case txy => exact exec_eq_gotY rfl (readX_toNat s)
  case tyx => exact exec_eq_gotX rfl (readY_toNat s)

/-- What X gives at the length x selects, as a word: zero-extended (R12). -/
theorem readX_eq (s : State) : readX s = BitVec.ofNat 16 (low s.ps.x s.x) := by
  rw [← readX_toNat, BitVec.ofNat_toNat, BitVec.setWidth_eq]

theorem exec_txs (s : State) : exec .txs s = .next { s with sp := readX s } := rfl

/-- Settles O32: the accumulators go over whole, and only TXS looks at a length (`readX_eq`). -/
theorem transfersToStackAndDirectPage : Obligations.TransfersToStackAndDirectPage := by
  refine ⟨fun s => ⟨rfl, rfl, rfl, rfl, ?txs⟩, fun m x => ⟨rfl, rfl, rfl, rfl, rfl⟩⟩
  case txs => rw [exec_txs, readX_eq]

/-! ## The exchange (R191) -/

theorem exec_xab (s : State) :
    exec .xab s = .next (loadAcc .a (accRead .b s) (accWrite .b (accRead .a s) s)) := rfl

/-- Settles O33: both accumulators are read before either is written. -/
theorem exchangeAccumulators : Obligations.ExchangeAccumulators := by
  refine ⟨fun s => ?_, fun m x => rfl⟩
  rw [exec_xab, loadAcc_eq, accWrite_eq, accRead_toNat, accRead_toNat]
  rfl

/-! ## The elements of a block (R198) -/

theorem lo8_add_toNat (v w : Word) : (lo8 v + lo8 w).toNat = (v.toNat + w.toNat) % 256 := by
  rw [BitVec.toNat_add, lo8_toNat, lo8_toNat, ← Nat.add_mod]

/-! An element at distance `j` from the first, `j` a 24-bit number, in the three cases of R198. -/

theorem blockAddr_toNat_of_x {s : State} (hx : s.ps.x = true) (bank : Byte) (index : Word) (j : Addr) :
    (blockAddr bank index j s).toNat = bank.toNat * 65536 + (index.toNat + j.toNat) % 256 := by
  have hj : (offOf j).toNat = j.toNat % 65536 := offOf_toNat j
  rw [blockAddr, wx_eq, hx, widthOf_true, mkAddr_toNat, zx8_toNat, lo8_add_toNat]
  omega

theorem blockAddr_toNat_of_carry {s : State} (hx : s.ps.x = false) (hw : s.par.blockWrap = .carry)
    (bank : Byte) (index : Word) (j : Addr) :
    (blockAddr bank index j s).toNat = (bank.toNat * 65536 + index.toNat + j.toNat) % 2 ^ 24 := by
  rw [blockAddr, wx_eq, hx, widthOf_false, hw, BitVec.toNat_add, mkAddr_toNat]

theorem blockAddr_toNat_of_wrap {s : State} (hx : s.ps.x = false) (hw : s.par.blockWrap = .wrap)
    (bank : Byte) (index : Word) (j : Addr) :
    (blockAddr bank index j s).toNat = bank.toNat * 65536 + (index.toNat + j.toNat) % 65536 := by
  rw [blockAddr, wx_eq, hx, widthOf_false, hw, mkAddr_toNat, BitVec.toNat_add, offOf_toNat, Nat.add_mod_mod]

/-- The distance of MVP's element `k`. -/
theorem neg_ofNat_addr_toNat (k : Nat) : ((-BitVec.ofNat 24 k).toNat : Int) = -(k : Int) % 2 ^ 24 := by
  rw [BitVec.toNat_neg, BitVec.toNat_ofNat]
  omega

/-- Settles O35: 256 and 65536 divide 2^24, so that an element's distance may be taken as the 24-bit number
of `k` or of `-k`. -/
theorem blockElementAddresses : Obligations.BlockElementAddresses := by
  intro s bank index k up down base
  have hup : (BitVec.ofNat 24 k).toNat = k % 2 ^ 24 := BitVec.toNat_ofNat k 24
  have hdown := neg_ofNat_addr_toNat k
  refine ⟨fun hx => ?narrow, fun hx hw => ?carry, fun hx hw => ?wrap⟩
  case narrow =>
    simp only [up, down, base, blockAddr_toNat_of_x hx]
    omega
  case carry =>
    simp only [up, down, base, blockAddr_toNat_of_carry hx hw]
    omega
  case wrap =>
    simp only [up, down, base, blockAddr_toNat_of_wrap hx hw]
    omega

/-! ## The block transfers (R195 to R199) -/

theorem exec_mvn (n1 n2 : Byte) (s : State) :
    exec (.mvn n1 n2) s = .next (blockEnd n1 (accRead .a s)
      (moveBytes (fun k => blockAddr n2 s.x (BitVec.ofNat 24 k) s)
        (fun k => blockAddr n1 s.y (BitVec.ofNat 24 k) s) (accRead .a s).toNat s)) := rfl

theorem exec_mvp (n1 n2 : Byte) (s : State) :
    exec (.mvp n1 n2) s = .next (blockEnd n1 (-accRead .a s)
      (moveBytes (fun k => blockAddr n2 s.x (-BitVec.ofNat 24 k) s)
        (fun k => blockAddr n1 s.y (-BitVec.ofNat 24 k) s) (accRead .a s).toNat s)) := rfl

/-- What is no target of a block reads as before it. -/
theorem blockView_of_ne (s : State) (src dst : Nat → Addr) {a : Addr} :
    ∀ {n : Nat}, (∀ k, k < n → a ≠ dst k) → blockView s src dst n a = busRead s a
  | 0, _ => rfl
  | n + 1, h => by
    have hlast : ¬ (a = dst n ∧ mapKind s (dst n) = .ram) := fun hc => h n (Nat.lt_succ_self n) hc.1
    exact (if_neg hlast).trans (blockView_of_ne s src dst fun k hk => h k (Nat.lt_succ_of_lt hk))

/-- A register's new content is taken modulo 65536. -/
theorem withLow_congr {m n : Nat} (h : m % 65536 = n % 65536) (f : Bool) (old : Word) :
    withLow f old m = withLow f old n := by
  rw [← withLow_mod, h, withLow_mod]

/-- The registers after a block, as numbers: A all ones at its length, X and Y moved by `d` (R196, R197,
R199). -/
theorem blockEnd_eq (n1 : Byte) (d : Word) (s : State) :
    blockEnd n1 d s =
      { s with
        a := withLow s.ps.m s.a 65535
        x := withLow s.ps.x s.x (low s.ps.x s.x + d.toNat)
        y := withLow s.ps.x s.y (low s.ps.x s.y + d.toNat)
        dt := n1 } := by
  have hx : (readX s + d).toNat = (low s.ps.x s.x + d.toNat) % 65536 := by
    rw [BitVec.toNat_add, readX_toNat]
  have hy : (readY s + d).toNat = (low s.ps.x s.y + d.toNat) % 65536 := by
    rw [BitVec.toNat_add, readY_toNat]
  simp only [blockEnd, writeX, writeY, accWrite_eq, withAcc, wx_eq, merge_eq, hx, hy, withLow_mod]
  rfl

/-- `t` is `s` after a block of A's count of bytes from the addresses `src` to the addresses `dst`: the
registers at its end, with X and Y of the numbers `nx` and `ny`, the bytes that are read, those that no
transfer reaches, and what went to I/O. -/
def BlockMoved (n1 : Byte) (nx ny : Nat) (src dst : Nat → Addr) (s t : State) : Prop :=
  t = { s with
    a := withLow s.ps.m s.a 65535
    x := withLow s.ps.x s.x nx
    y := withLow s.ps.x s.y ny
    dt := n1, mem := t.mem, stale := t.stale, ioOut := t.ioOut } ∧
  (∀ a, busRead t a = blockView s src dst (accNum .a s) a) ∧
  (∀ a, (∀ k, k < accNum .a s → a ≠ dst k) → busRead t a = busRead s a) ∧
  t.ioOut = ioAfterAll s (blockCells s src dst (accNum .a s))

/-- The transfers and the end of a block, in either direction: `d` is the count or its negative. -/
theorem blockMoved_blockEnd {s : State} (hs : Memory.wf s.mem = true) (n1 : Byte) (d : Word) {nx ny : Nat}
    (hx : (low s.ps.x s.x + d.toNat) % 65536 = nx % 65536)
    (hy : (low s.ps.x s.y + d.toNat) % 65536 = ny % 65536) (src dst : Nat → Addr) :
    BlockMoved n1 nx ny src dst s (blockEnd n1 d (moveBytes src dst (accRead .a s).toNat s)) := by
  rw [accRead_toNat]
  have hview : ∀ a, busRead (blockEnd n1 d (moveBytes src dst (accNum .a s) s)) a =
      blockView s src dst (accNum .a s) a := fun a =>
    (busRead_congr (by simp) (by simp) (by simp) a).trans (moveBytes_view src dst hs _ a)
  refine ⟨?regs, hview, fun a ha => (hview a).trans (blockView_of_ne s src dst ha), ?io⟩
  case regs =>
    rw [blockEnd_eq, ← withLow_congr hx, ← withLow_congr hy]
    simp
  case io => rw [blockEnd_ioOut, moveBytes_ioOut src dst hs]

/-- Down by the count is up by 65536 less the count. -/
theorem add_neg_accRead_toNat (n : Nat) (s : State) :
    (n + (-accRead .a s).toNat) % 65536 = (n + 65536 - accNum .a s) % 65536 := by
  have hcnt : accNum .a s < 2 ^ 16 := low_lt_word s.ps.m s.a
  rw [BitVec.toNat_neg, accRead_toNat]
  omega

/-- Settles O34: both directions are `blockMoved_blockEnd`, with X and Y going up by the count, or by 65536
less the count. -/
theorem blockMoves : Obligations.BlockMoves := by
  intro s n1 n2 hs cnt
  have hup : ∀ n, (n + (accRead .a s).toNat) % 65536 = (n + cnt) % 65536 := fun n => by
    rw [accRead_toNat]
  have hdown : ∀ n, (n + (-accRead .a s).toNat) % 65536 = (n + 65536 - cnt) % 65536 := fun n =>
    add_neg_accRead_toNat n s
  exact ⟨⟨_, exec_mvn n1 n2 s, blockMoved_blockEnd hs n1 _ (hup _) (hup _) _ _⟩,
    ⟨_, exec_mvp n1 n2 s, blockMoved_blockEnd hs n1 _ (hdown _) (hdown _) _ _⟩⟩

end Sys2Proof.Proofs
end

section
/-! PROOFS. The stack instructions other than PSH (43_stack.md R201 to R223): the pushes, the pulls of one
register, and PUL from any stack. -/

namespace Sys2Proof.Proofs

open Sys2Proof.Machine Sys2Proof.Laws

/-! ## The pushes (R201 to R208, R221 to R223) -/

theorem directBase_eq_ofNat (d : Byte) (s : State) :
    directBase d s = BitVec.ofNat 24 (s.dpr.toNat + d.toNat) := by
  rw [← directBase_toNat, ofNat_toNat_addr]

theorem hi8_readWord (s : State) (a : Addr) : hi8 (readWord s a) = busRead s (a + 1#24) := hi8_mkWord _ _

theorem lo8_readWord (s : State) (a : Addr) : lo8 (readWord s a) = busRead s a := lo8_mkWord _ _

/-- The bytes of a word, high byte first, from any number that the word is modulo 2^16. -/
theorem hi8_lo8_eq_ofNat {w : Word} {n : Nat} (h : w.toNat = n % 65536) :
    [hi8 w, lo8 w] = [BitVec.ofNat 8 (n / 256), BitVec.ofNat 8 n] := by
  have hhi : hi8 w = BitVec.ofNat 8 (n / 256) := by
    apply BitVec.eq_of_toNat_eq
    rw [hi8_toNat, BitVec.toNat_ofNat]
    omega
  have hlo : lo8 w = BitVec.ofNat 8 n := by
    apply BitVec.eq_of_toNat_eq
    rw [lo8_toNat, BitVec.toNat_ofNat]
    omega
  rw [hhi, hlo]

/-- `RET_BIAS` added within 16 bits is `RET_BIAS` added to the 24-bit number, modulo 2^16. -/
theorem add_offOf_retBias_toNat (w : Word) {n : Nat} (s : State) (h : w.toNat = n % 65536) :
    (w + offOf (retBias s)).toNat = biased n s % 65536 := by
  rw [BitVec.toNat_add, offOf_toNat, h]
  unfold retBias biased
  cases s.par.retBias with
  | zero => simp only [BitVec.toNat_ofNat]; omega
  | minusOne => simp only [BitVec.toNat_ofNat]; omega

/-- Settles O36: each rule is one push of a word, a byte or a datum; PEI's word is two bytes of memory, and
PER's is the biased sum modulo 2^16. -/
theorem pushResults : Obligations.PushResults := by
  intro s hs
  refine ⟨⟨_, rfl, pushData_pushes hs _ _⟩, ⟨_, rfl, pushData_pushes hs _ _⟩,
    ⟨_, rfl, pushData_pushes hs _ _⟩, ⟨_, rfl, pushData_pushes hs _ _⟩, ⟨_, rfl, push16_pushes hs _⟩,
    ⟨_, rfl, push16_pushes hs _⟩, ⟨_, rfl, push8_pushes hs _⟩, ⟨_, rfl, push8_pushes hs _⟩,
    fun v => ⟨_, rfl, push16_pushes hs v⟩, fun d => ⟨_, rfl, ?pei⟩, fun v => ⟨_, rfl, ?per⟩⟩
  case pei =>
    rw [BitVec.ofNat_add, ← directBase_eq_ofNat, ← hi8_readWord, ← lo8_readWord]
    exact push16_pushes hs _
  case per =>
    have hsum := add_offOf_retBias_toNat (s.pc + v) s (BitVec.toNat_add s.pc v)
    have h := push16_pushes hs (s.pc + v + offOf (retBias s))
    rwa [hi8_lo8_eq_ofNat hsum] at h

/-! ## What a pull returns, and how far it moves S (R14) -/

theorem pullData_widthOf (f : Bool) (s : State) :
    pullData (widthOf f) s = dropStack (BitVec.ofNat 16 (if f then 1 else 2)) s := by cases f <;> rfl

/-- A pull into a register at a length writes the word above S at that length. -/
theorem merge_peekData (f : Bool) (old : Word) (s : State) :
    (widthOf f).merge old (peekData (widthOf f) s) = withLow f old (stackWord 1 s) := by
  rw [merge_eq, ← withLow_span, peekData_span, withLow_span]

theorem loadAcc_peekData (r : Acc) (s : State) :
    loadAcc r (peekData s.wm s) s = gotAcc r (stackWord 1 s) s := by
  rw [loadAcc_eq, ← gotAcc_span, wm_eq, peekData_span, gotAcc_span]

theorem loadX_peekData (s : State) : loadX (peekData s.wx s) s = gotX (stackWord 1 s) s := by
  rw [loadX_eq, ← gotX_span, wx_eq, peekData_span, gotX_span]

theorem loadY_peekData (s : State) : loadY (peekData s.wx s) s = gotY (stackWord 1 s) s := by
  rw [loadY_eq, ← gotY_span, wx_eq, peekData_span, gotY_span]

/-! ## The pulls of one register (R209 to R215) -/

theorem exec_pla (s : State) : exec .pla s = .next (pullData s.wm (loadAcc .a (peekData s.wm s) s)) := rfl

theorem exec_plb (s : State) : exec .plb s = .next (pullData s.wm (loadAcc .b (peekData s.wm s) s)) := rfl

theorem exec_plx (s : State) : exec .plx s = .next (pullData s.wx (loadX (peekData s.wx s) s)) := rfl

theorem exec_ply (s : State) : exec .ply s = .next (pullData s.wx (loadY (peekData s.wx s) s)) := rfl

theorem exec_pld (s : State) :
    exec .pld s = .next (dropStack 2#16 { s with dpr := peek16 1#16 s }) := rfl

theorem exec_plp (s : State) :
    exec .plp s = .next (dropStack 2#16 { s with ps := Psr.ofWord (peek16 1#16 s) }) := rfl

theorem exec_plt (s : State) :
    exec .plt s = .next
      (dropStack 1#16 (setNZ .byte (zx8 (peek8 1#16 s)) { s with dt := peek8 1#16 s })) := rfl

/-- Settles O37: each rule loads what lies above S and moves S past it. -/
theorem pullResults : Obligations.PullResults := by
  intro s nm nx w
  refine ⟨?pla, ?plb, ?plx, ?ply, ?pld, ?plp, ?plt⟩
  case pla => rw [exec_pla, loadAcc_peekData, wm_eq, pullData_widthOf, apply_ite (BitVec.ofNat 16)]; rfl
  case plb => rw [exec_plb, loadAcc_peekData, wm_eq, pullData_widthOf, apply_ite (BitVec.ofNat 16)]; rfl
  case plx => rw [exec_plx, loadX_peekData, wx_eq, pullData_widthOf, apply_ite (BitVec.ofNat 16)]; rfl
  case ply => rw [exec_ply, loadY_peekData, wx_eq, pullData_widthOf, apply_ite (BitVec.ofNat 16)]; rfl
  case pld => rw [exec_pld, peek16_eq 1]; rfl
  case plp => rw [exec_plp, peek16_eq 1]; rfl
  case plt => rw [exec_plt, setNZ, ← widthOf_true, setNZ_eq, zx8_toNat, peek8_toNat 1, peek8_eq 1]; rfl

/-! ## PUL (R217, R218) -/

/-- `t` is `u`, a state in which bytes read as in `s`, with `n` bytes pulled off the stack of `s`. -/
def Pulled (n : Nat) (s u t : State) : Prop :=
  t = u.withSp (s.sp + BitVec.ofNat 16 n) ∧ ∀ a, busRead u a = busRead s a

namespace Pulled

variable {n : Nat} {s u t : State}

/-- The bytes still on the stack are those of `s` above the `n` pulled. -/
theorem stackByte_eq (h : Pulled n s u t) (k : Nat) : stackByte k t = stackByte (n + k) s := by
  obtain ⟨rfl, hread⟩ := h
  have hbus : ∀ a, busRead (u.withSp (s.sp + BitVec.ofNat 16 n)) a = busRead s a := fun a =>
    (busRead_congr rfl rfl rfl a).trans (hread a)
  rw [stackByte, hbus, stackByte, BitVec.ofNat_add, ← BitVec.add_assoc]
  rfl

theorem stackWord_eq (h : Pulled n s u t) (k : Nat) : stackWord k t = stackWord (n + k) s := by
  rw [stackWord, h.stackByte_eq, h.stackByte_eq]
  rfl

theorem peek8_eq (h : Pulled n s u t) : peek8 1#16 t = BitVec.ofNat 8 (stackByte (n + 1) s) := by
  rw [← h.stackByte_eq]
  exact Laws.peek8_eq 1 t

theorem peek16_eq (h : Pulled n s u t) : peek16 1#16 t = BitVec.ofNat 16 (stackWord (n + 1) s) := by
  rw [← h.stackWord_eq]
  exact Laws.peek16_eq 1 t

theorem merge_peekData_eq (h : Pulled n s u t) (f : Bool) (old : Word) :
    (widthOf f).merge old (peekData (widthOf f) t) = withLow f old (stackWord (n + 1) s) := by
  rw [merge_peekData, h.stackWord_eq]

/-- One restore of PUL with its bit: `f` writes what makes `u` into `u'`, and S moves past `k` bytes more. -/
theorem restore (h : Pulled n s u t) {u' : State} {bit : Bool} {f : State → State} {k : Nat}
    (hskip : bit = false → u' = u)
    (hpull : bit = true → f t = dropStack (BitVec.ofNat 16 k) (u'.withSp t.sp))
    (hread : ∀ a, busRead u' a = busRead u a) :
    Pulled (n + if bit then k else 0) s u' (onBit bit f t) := by
  refine ⟨?_, fun a => (hread a).trans (h.2 a)⟩
  cases bit with
  | false => exact hskip rfl ▸ h.1
  | true =>
    have hsp : t.sp = s.sp + BitVec.ofNat 16 n := by rw [h.1]; rfl
    rw [onBit_true, hpull rfl, hsp, if_pos rfl, BitVec.ofNat_add, ← BitVec.add_assoc]
    rfl

theorem onBit_pulPs (s : State) (bit : Bool) :
    Pulled (if bit then 2 else 0) s
      { s with ps := if bit then Psr.ofWord (BitVec.ofNat 16 (stackWord 1 s)) else s.ps }
      (onBit bit pulPs s) := by
  have hstart : Pulled 0 s s s := ⟨by simp [State.withSp], fun _ => rfl⟩
  rw [← Nat.zero_add (ite _ _ _)]
  exact hstart.restore (by rintro rfl; rfl) (by rintro rfl; rw [pulPs, hstart.peek16_eq]; rfl)
    (busRead_congr rfl rfl rfl)

theorem onBit_pulDt (h : Pulled n s u t) (bit : Bool) :
    Pulled (n + if bit then 1 else 0) s
      { u with dt := if bit then BitVec.ofNat 8 (stackByte (n + 1) s) else u.dt }
      (onBit bit pulDt t) :=
  h.restore (by rintro rfl; rfl) (by rintro rfl; rw [pulDt, h.peek8_eq, h.1]; rfl)
    (busRead_congr rfl rfl rfl)

theorem onBit_pulDpr (h : Pulled n s u t) (bit : Bool) :
    Pulled (n + if bit then 2 else 0) s
      { u with dpr := if bit then BitVec.ofNat 16 (stackWord (n + 1) s) else u.dpr }
      (onBit bit pulDpr t) :=
  h.restore (by rintro rfl; rfl) (by rintro rfl; rw [pulDpr, h.peek16_eq, h.1]; rfl)
    (busRead_congr rfl rfl rfl)

theorem onBit_pulY (h : Pulled n s u t) (bit : Bool) :
    Pulled (n + if bit then (if u.ps.x then 1 else 2) else 0) s
      { u with y := if bit then withLow u.ps.x u.y (stackWord (n + 1) s) else u.y }
      (onBit bit pulY t) := by
  refine h.restore (by rintro rfl; rfl) ?_ (busRead_congr rfl rfl rfl)
  rintro rfl
  rw [pulY, writeY, wx_eq, h.merge_peekData_eq, pullData_widthOf, h.1]
  rfl

theorem onBit_pulX (h : Pulled n s u t) (bit : Bool) :
    Pulled (n + if bit then (if u.ps.x then 1 else 2) else 0) s
      { u with x := if bit then withLow u.ps.x u.x (stackWord (n + 1) s) else u.x }
      (onBit bit pulX t) := by
  refine h.restore (by rintro rfl; rfl) ?_ (busRead_congr rfl rfl rfl)
  rintro rfl
  rw [pulX, writeX, wx_eq, h.merge_peekData_eq, pullData_widthOf, h.1]
  rfl

theorem onBit_pulAcc (h : Pulled n s u t) (r : Acc) (bit : Bool) :
    Pulled (n + if bit then (if u.ps.m then 1 else 2) else 0) s
      (accPut r (if bit then withLow u.ps.m (accGet r u) (stackWord (n + 1) s) else accGet r u) u)
      (onBit bit (pulAcc r) t) := by
  refine h.restore ?skip ?pull (busRead_congr (accPut_mem ..) (accPut_par ..) (accPut_draws ..))
  case skip => rintro rfl; exact accPut_accGet r u
  case pull =>
    rintro rfl
    rw [pulAcc, accWrite, wm_eq, h.merge_peekData_eq, pullData_widthOf, h.1]
    cases r <;> rfl

end Pulled

/-- The registers that PUL restores, in their order, each with its bit (R217). -/
def pulRegisters (nn : Byte) (s : State) : State :=
  onBit (nn.getLsbD 0) (pulAcc .a) <|
  onBit (nn.getLsbD 1) (pulAcc .b) <|
  onBit (nn.getLsbD 2) pulX <|
  onBit (nn.getLsbD 3) pulY <|
  onBit (nn.getLsbD 4) pulDpr <|
  onBit (nn.getLsbD 5) pulDt <|
  onBit (nn.getLsbD 7) pulPs s

theorem exec_pul (nn : Byte) (s : State) :
    exec (.pul nn) s = .next
      (onBit (nn.getLsbD 7 && !s.ps.m && (pulRegisters nn s).ps.m) pulOpenB (pulRegisters nn s)) := rfl

theorem onBit_pulOpenB (bit : Bool) (s : State) :
    onBit bit pulOpenB s =
      { s with b := if bit then mkWord (Config.pulHighByteB s.draws) (lo8 s.b) else s.b } := by
  cases bit <;> rfl

/-- Settles O39: the restores follow one another (`Pulled`), each from the bytes above those that the ones
before it took, and `pulOpenB` alone comes after them. -/
theorem pulRestores : Obligations.PulRestores := by
  intro s nn bit ps' lenM lenX o5 o4 o3 o2 o1 o0 total b'
  have h7 := Pulled.onBit_pulPs s (bit 7)
  have h4 := (h7.onBit_pulDt (bit 5)).onBit_pulDpr (bit 4)
  have h2 := (h4.onBit_pulY (bit 3)).onBit_pulX (bit 2)
  have h0 := (h2.onBit_pulAcc .b (bit 1)).onBit_pulAcc .a (bit 0)
  have hregs : pulRegisters nn s = _ := h0.1
  refine ⟨Config.pulHighByteB s.draws, ?_⟩
  rw [exec_pul, hregs, onBit_pulOpenB]
  rfl

end Sys2Proof.Proofs
end

section
/-! PROOFS. The arithmetic instructions (44_arithmetic.md R231 to R241): addition and subtraction in both modes
of D, the increments and decrements, multiplication, and division by a divisor other than 0. -/

namespace Sys2Proof.Proofs

open Sys2Proof.Machine Sys2Proof.Laws

/-! ## Addition and subtraction (R231 to R233) -/

theorem exec_adc (r : Acc) (op : Operand) (s : State) :
    exec (.adc r op) s = .next (putArith r (addOut r (opRead s.wm op s) s) s) := rfl

theorem exec_adcl (r : Acc) (k : Mem) (s : State) :
    exec (.adcl r k) s = .next (putArith r (addOut r (memOperand s.wm k s) s) s) := rfl

theorem exec_sbc (r : Acc) (op : Operand) (s : State) :
    exec (.sbc r op) s = .next (putArith r (subOut r (opRead s.wm op s) s) s) := rfl

theorem exec_sbcl (r : Acc) (k : Mem) (s : State) :
    exec (.sbcl r k) s = .next (putArith r (subOut r (memOperand s.wm k s) s) s) := rfl

theorem putArith_eq (r : Acc) (o : ArithOut) (s : State) :
    putArith r o s = { withAcc r o.r.toNat s with ps := s.ps.setArith o } := by
  rw [putArith, accWrite_eq]

theorem accRead_lt (r : Acc) (s : State) : (accRead r s).toNat < span s.ps.m := by
  rw [accRead_toNat]
  exact low_lt _ _

theorem addOut_of_binary {s : State} (hd : s.ps.d = false) (r : Acc) (v : Word) :
    addOut r v s = adcBinary s.wm (accRead r s) v s.ps.c := by simp [addOut, hd]

theorem subOut_of_binary {s : State} (hd : s.ps.d = false) (r : Acc) (v : Word) :
    subOut r v s = sbcBinary s.wm (accRead r s) v s.ps.c := by simp [subOut, hd]

theorem addOut_of_decimal {s : State} (hd : s.ps.d = true) (r : Acc) (v : Word) :
    addOut r v s = adcDecimal s.draws s.wm (accRead r s) v s.ps.c := by simp [addOut, hd]

theorem subOut_of_decimal {s : State} (hd : s.ps.d = true) (r : Acc) (v : Word) :
    subOut r v s = sbcDecimal s.draws s.wm (accRead r s) v s.ps.c := by simp [subOut, hd]

/-- Settles O41: with D = 0 the outcome is the binary one (`adcBinary_eq`, `sbcBinary_eq`) of the accumulator
and the word read, whatever form has read it. -/
theorem binaryAddAndSubtract : Obligations.BinaryAddAndSubtract := by
  intro r s hd f a c fits sum difference
  have ha : (accRead r s).toNat = a := accRead_toNat r s
  have hadd (v : Word) (hv : v.toNat < span f) : putArith r (addOut r v s) s = sum v.toNat := by
    obtain ⟨hps, hr⟩ := adcBinary_eq f (accRead r s) v s.ps.c (accRead_lt r s) hv s.ps
    rw [putArith_eq, addOut_of_binary hd, wm_eq, hps, hr, withAcc_span, ha]
    rfl
  have hsub (v : Word) (hv : v.toNat < span f) : putArith r (subOut r v s) s = difference v.toNat := by
    obtain ⟨hps, hr⟩ := sbcBinary_eq f (accRead r s) v s.ps.c (accRead_lt r s) hv s.ps
    rw [putArith_eq, subOut_of_binary hd, wm_eq, hps, hr, withAcc_span, ha]
    rfl
  refine ⟨fun op => ?adc, fun k => ?adcl, fun op => ?sbc, fun k => ?sbcl⟩
  case adc => exact (exec_adc r op s).trans (congrArg _ (hadd _ (opNum_lt f op s)))
  case adcl => exact (exec_adcl r k s).trans (congrArg _ (hadd _ (memNum_lt f k s)))
  case sbc => exact (exec_sbc r op s).trans (congrArg _ (hsub _ (opNum_lt f op s)))
  case sbcl => exact (exec_sbcl r k s).trans (congrArg _ (hsub _ (memNum_lt f k s)))

/-! ### Decimal digits (R233) -/

theorem decLimit_widthOf (f : Bool) : Width.decLimit (widthOf f) = if f then 100 else 10000 := by
  cases f <;> rfl

theorem decLimit_pos (w : Width) : 0 < Width.decLimit w := by cases w <;> decide

theorem mod_decLimit_lt (n : Nat) (w : Width) : n % Width.decLimit w < 10000 :=
  (Nat.mod_lt n (decLimit_pos w)).trans_le (by cases w <;> decide)

/-- Decimal addition of digits: the result has digits, and stands for the sum modulo `10^K`. -/
theorem adcDecimal_of_digits (draw : Nat) (w : Width) {a b : Word} (c : Bool) (ha : bcdOk a = true)
    (hb : bcdOk b = true) :
    let o := adcDecimal draw w a b c
    let sum := bcdToNat a + bcdToNat b + c.toNat
    bcdOk o.r = true ∧ bcdToNat o.r = sum % Width.decLimit w ∧
      o.c = decide (Width.decLimit w ≤ sum) := by
  intro o sum
  have hr : o.r = natToBcd (sum % Width.decLimit w) := by simp [o, adcDecimal, ha, hb, sum]
  have hc : o.c = decide (Width.decLimit w ≤ sum) := by simp [o, adcDecimal, ha, hb, sum]
  rw [hr]
  exact ⟨bcdOk_natToBcd _, bcdToNat_natToBcd _ (mod_decLimit_lt _ w), hc⟩

/-- A difference that borrows at most once, modulo `K`, as an integer and as a natural number. -/
theorem sub_emod_toNat {a owed K : Nat} (h : owed ≤ K) :
    (((a : Int) - owed) % (K : Nat)).toNat = (a + K - owed) % K := by
  have hcast : (a : Int) - owed + K = ((a + K - owed : Nat) : Int) := by omega
  rw [← Int.add_emod_right, hcast, ← Int.natCast_emod, Int.toNat_natCast]

/-- Decimal subtraction of digits, the subtrahend below `10^K`: the result has digits, and stands for the
difference modulo `10^K`. -/
theorem sbcDecimal_of_digits (draw : Nat) (w : Width) {a b : Word} (c : Bool) (ha : bcdOk a = true)
    (hb : bcdOk b = true) (hlt : bcdToNat b < Width.decLimit w) :
    let o := sbcDecimal draw w a b c
    let owed := bcdToNat b + (1 - c.toNat)
    bcdOk o.r = true ∧ bcdToNat o.r = (bcdToNat a + Width.decLimit w - owed) % Width.decLimit w ∧
      o.c = decide (owed ≤ bcdToNat a) ∧ o.z = decide (o.r = 0#16) := by
  intro o owed
  have howed : (bcdToNat a : Int) - bcdToNat b - (1 - (c.toNat : Int)) = bcdToNat a - owed := by
    have := Bool.toNat_le c
    omega
  have hr : o.r = natToBcd ((bcdToNat a + Width.decLimit w - owed) % Width.decLimit w) := by
    simp [o, sbcDecimal, ha, hb, howed, ← sub_emod_toNat (show owed ≤ Width.decLimit w by omega)]
  have hc : o.c = decide (owed ≤ bcdToNat a) := by simp [o, sbcDecimal, ha, hb, howed]
  have hz : o.z = decide (o.r = 0#16) := by simp [o, sbcDecimal, ha, hb, beq_eq_decide]
  refine ⟨?digits, ?value, hc, hz⟩
  case digits => rw [hr]; exact bcdOk_natToBcd _
  case value => rw [hr]; exact bcdToNat_natToBcd _ (mod_decLimit_lt _ w)

theorem ofNat_accNum (r : Acc) (s : State) : BitVec.ofNat 16 (accNum r s) = accRead r s := by
  rw [← accRead_toNat, BitVec.ofNat_toNat, BitVec.setWidth_eq]

/-- Settles O42: with D = 1 the outcome is the decimal one; its four flags are whatever they are, and on
digits `adcDecimal_of_digits` and `sbcDecimal_of_digits` say the rest. -/
theorem decimalAddAndSubtract : Obligations.DecimalAddAndSubtract := by
  intro r s hd a c K added subtracted
  have hK : Width.decLimit s.wm = K := decLimit_widthOf s.ps.m
  have ha : a = accRead r s := ofNat_accNum r s
  have hadd (v : Word) : added v.toNat (.next (putArith r (addOut r v s) s)) := by
    refine ⟨_, _, _, _, _, congrArg Host.Outcome.next (putArith_eq r _ s), fun hok hokv => ?_⟩
    rw [BitVec.ofNat_toNat, BitVec.setWidth_eq] at hokv ⊢
    rw [addOut_of_decimal hd, ← ha, ← hK]
    exact adcDecimal_of_digits s.draws s.wm s.ps.c hok hokv
  have hsub (v : Word) (hv : v.toNat < span s.ps.m) :
      subtracted v.toNat (.next (putArith r (subOut r v s) s)) := by
    refine ⟨_, _, _, _, _, congrArg Host.Outcome.next (putArith_eq r _ s), fun hok hokv => ?_⟩
    rw [BitVec.ofNat_toNat, BitVec.setWidth_eq] at hokv ⊢
    rw [subOut_of_decimal hd, ← ha, ← hK]
    exact sbcDecimal_of_digits s.draws s.wm s.ps.c hok hokv (bcd_lt s.ps.m v hv hokv)
  refine ⟨fun op => ?adc, fun k => ?adcl, fun op => ?sbc, fun k => ?sbcl⟩
  case adc => exact exec_adc r op s ▸ hadd (opRead s.wm op s)
  case adcl => exact exec_adcl r k s ▸ hadd (memOperand s.wm k s)
  case sbc => exact exec_sbc r op s ▸ hsub _ (opNum_lt s.ps.m op s)
  case sbcl => exact exec_sbcl r k s ▸ hsub _ (memNum_lt s.ps.m k s)

/-! ## Increments and decrements (R234 to R239) -/

theorem exec_inx (s : State) : exec .inx s = .next (loadX (readX s + 1#16) s) := rfl

theorem exec_iny (s : State) : exec .iny s = .next (loadY (readY s + 1#16) s) := rfl

theorem exec_dex (s : State) : exec .dex s = .next (loadX (readX s - 1#16) s) := rfl

theorem exec_dey (s : State) : exec .dey s = .next (loadY (readY s - 1#16) s) := rfl

theorem exec_inc (tg : Target) (s : State) : exec (.inc tg) s = .next (modifyTarget tg (· + 1#16) s) := rfl

theorem exec_dec (tg : Target) (s : State) : exec (.dec tg) s = .next (modifyTarget tg (· - 1#16) s) := rfl

theorem add_one_toNat_mod_span (f : Bool) (v : Word) :
    (v + 1#16).toNat % span f = (v.toNat + 1) % span f := by
  rw [BitVec.toNat_add]
  exact mod_word_span f _

theorem sub_one_toNat_mod_span (f : Bool) (v : Word) :
    (v - 1#16).toNat % span f = (v.toNat + span f - 1) % span f := by
  rw [BitVec.toNat_sub]
  cases f <;> simp [span] <;> omega

theorem withNZ_congr {f : Bool} {m n : Nat} (h : m % span f = n % span f) (p : Psr) :
    withNZ f m p = withNZ f n p := by
  rw [← withNZ_span, h, withNZ_span]

theorem gotX_congr {s : State} {m n : Nat} (h : m % span s.ps.x = n % span s.ps.x) :
    gotX m s = gotX n s := by
  rw [← gotX_span, h, gotX_span]

theorem gotY_congr {s : State} {m n : Nat} (h : m % span s.ps.x = n % span s.ps.x) :
    gotY m s = gotY n s := by
  rw [← gotY_span, h, gotY_span]

/-- What a read, change and write leaves, `n` being the changed value before it is cut to the length. -/
theorem modifyTarget_modified {s : State} (hs : Memory.wf s.mem = true) (tg : Target) (f : Word → Word)
    {n : Nat} (h : (f (targetRead tg s)).toNat % span s.ps.m = n % span s.ps.m) :
    Modified tg n (withNZ s.ps.m n s.ps) s (modifyTarget tg f s) := by
  have hv : (s.wm.trunc (f (targetRead tg s))).toNat % span s.ps.m = n % span s.ps.m := by
    rw [wm_eq, trunc_toNat, ← span_eq, Nat.mod_mod, h]
  rw [modifyTarget, setNZ, targetWrite_ps, wm_eq, setNZ_eq, ← wm_eq, withNZ_congr hv]
  exact targetWrite_modified hs tg _ n _ hv

/-- Settles O43: an index register is loaded, a target modified, with a word that agrees with the stated
number modulo the span, and no more than that shows in the register, the bytes written and the flags
(`gotX_congr`, `gotY_congr`, `modifyTarget_modified`). -/
theorem incrementAndDecrement : Obligations.IncrementAndDecrement := by
  intro s hs
  refine ⟨?inx, ?iny, ?dex, ?dey, fun tg => ⟨?inc, ?dec⟩⟩
  case inx => rw [exec_inx, loadX_eq, gotX_congr (add_one_toNat_mod_span _ _), readX_toNat]
  case iny => rw [exec_iny, loadY_eq, gotY_congr (add_one_toNat_mod_span _ _), readY_toNat]
  case dex => rw [exec_dex, loadX_eq, gotX_congr (sub_one_toNat_mod_span _ _), readX_toNat]
  case dey => rw [exec_dey, loadY_eq, gotY_congr (sub_one_toNat_mod_span _ _), readY_toNat]
  case inc => exact ⟨_, exec_inc tg s, modifyTarget_modified hs tg _ (add_one_toNat_mod_span _ _)⟩
  case dec => exact ⟨_, exec_dec tg s, modifyTarget_modified hs tg _ (sub_one_toNat_mod_span _ _)⟩

/-! ## Multiplication (R241) -/

theorem exec_mpy (op : Operand) (s : State) : exec (.mpy op) s = .next (multiply (opRead s.wm op s) s) := rfl

theorem exec_mpyl (k : Mem) (s : State) : exec (.mpyl k) s = .next (multiply (memOperand s.wm k s) s) := rfl

theorem putPair_eq (hi lo : Word) (s : State) :
    putPair hi lo s = withAcc .b hi.toNat (withAcc .a lo.toNat s) := by
  rw [putPair, accWrite_eq, accWrite_eq]

/-- Numbers of any size written to B and A: each write cuts its number to the length. -/
theorem putPair_narrow (hi lo : Nat) (s : State) :
    putPair (s.wm.narrow hi) (s.wm.narrow lo) s = withAcc .b hi (withAcc .a lo s) := by
  rw [putPair_eq, narrow_toNat, narrow_toNat, wm_eq, ← span_eq, withAcc_span]
  exact withAcc_span .b hi (withAcc .a lo s)

/-- N of MPY: the top bit of a product of two numbers of the length. -/
theorem product_testBit (f : Bool) {p : Nat} (h : p < span f * span f) :
    p.testBit (2 * (widthOf f).bits - 1) = decide (span f * span f ≤ 2 * p) := by
  rw [Nat.testBit_eq_decide_div_mod_eq]
  cases f <;> simp [span, widthOf, Width.bits] at * <;> omega

/-- The product of A and a word that fits the length, with its flags. -/
theorem multiply_eq {v : Word} {s : State} (hv : v.toNat < span s.ps.m) :
    let p := accNum .a s * v.toNat
    multiply v s = { withAcc .b (p / span s.ps.m) (withAcc .a p s) with
      ps := { s.ps with
        n := decide (span s.ps.m * span s.ps.m ≤ 2 * p)
        z := decide (p = 0)
        c := if Config.mpyClearsCarry s.draws then false else s.ps.c } } := by
  intro p
  have hp : product (accRead .a s) v = p := by rw [product, accRead_toNat]
  have hlt : p < span s.ps.m * span s.ps.m := Nat.mul_lt_mul'' (low_lt _ _) hv
  have hspan : 2 ^ s.wm.bits = span s.ps.m := (span_eq _).symm
  simp only [multiply, hp, hspan, putPair_narrow, Psr.setProduct]
  rw [wm_eq, product_testBit _ hlt, beq_eq_decide]

/-- Settles O44: `multiply_eq`, with the free choice whether C is cleared. -/
theorem multiplication : Obligations.Multiplication := by
  intro s f product
  have hmul (v : Word) (hv : v.toNat < span f) : product v.toNat (.next (multiply v s)) :=
    ⟨_, by split <;> simp, congrArg Host.Outcome.next (multiply_eq hv)⟩
  exact ⟨fun op => exec_mpy op s ▸ hmul _ (opNum_lt f op s),
    fun k => exec_mpyl k s ▸ hmul _ (memNum_lt f k s)⟩

/-! ## Division by a divisor other than 0 (R240) -/

theorem exec_div (op : Operand) (s : State) : exec (.div op) s = .next (divide (opRead s.wm op s) s) := rfl

theorem exec_divl (k : Mem) (s : State) : exec (.divl k) s = .next (divide (memOperand s.wm k s) s) := rfl

theorem dividend_eq (s : State) :
    dividend s.wm (accRead .b s) (accRead .a s) = accNum .b s * span s.ps.m + accNum .a s := by
  rw [dividend, accRead_toNat, accRead_toNat, wm_eq, ← span_eq]

theorem divideFits_eq (q r : Nat) (s : State) :
    divideFits q r s = { withAcc .b r (withAcc .a q s) with
      ps := { withNZ s.ps.m q s.ps with v := false, c := false } } := by
  rw [divideFits, putPair_narrow, wm_eq, setNZ_eq, narrow_toNat, ← span_eq, withNZ_span]

theorem divideOverflows_eq (s : State) :
    divideOverflows s =
      { withAcc .b (Config.divOverflowB s.draws).toNat
          (withAcc .a (Config.divOverflowA s.draws).toNat s) with
        ps := { s.ps with
          v := true
          c := true
          n := Config.divOverflowN s.draws
          z := Config.divOverflowZ s.draws } } := by
  rw [divideOverflows, putPair_eq]

theorem divide_of_ne_zero {v : Word} (hv : v.toNat ≠ 0) (s : State) :
    let n := accNum .b s * span s.ps.m + accNum .a s
    divide v s =
      if v.toNat * span s.ps.m ≤ n then divideOverflows s
      else divideFits (n / v.toNat) (n % v.toNat) s := by
  intro n
  have hne : v ≠ 0#16 := fun h => hv (h ▸ rfl)
  have hspan : 2 ^ s.wm.bits = span s.ps.m := (span_eq _).symm
  have hle : span s.ps.m ≤ n / v.toNat ↔ v.toNat * span s.ps.m ≤ n := by
    rw [Nat.le_div_iff_mul_le (Nat.pos_of_ne_zero hv), Nat.mul_comm]
  simp only [divide, hne, if_false, dividend_eq, hspan]
  exact if_congr hle rfl rfl

/-- Settles O45: the quotient does not fit exactly when the dividend reaches `d * span`
(`divide_of_ne_zero`). -/
theorem division : Obligations.Division := by
  intro s f dividend divided
  have hdiv (v : Word) : divided v.toNat (.next (divide v s)) := by
    intro hv
    rw [divide_of_ne_zero hv]
    refine ⟨fun hfits => ?fits, fun hover => ?overflow⟩
    case fits =>
      refine ⟨dividend / v.toNat, dividend % v.toNat, (Nat.div_add_mod' _ _).symm,
        Nat.mod_lt _ (Nat.pos_of_ne_zero hv), ?_⟩
      rw [if_neg (Nat.not_le.mpr hfits), divideFits_eq]
    case overflow =>
      rw [if_pos hover, divideOverflows_eq]
      exact ⟨_, _, _, _, rfl⟩
  exact ⟨fun op => exec_div op s ▸ hdiv (opRead s.wm op s),
    fun k => exec_divl k s ▸ hdiv (memOperand s.wm k s)⟩

end Sys2Proof.Proofs
end

section
/-! PROOFS. The logic, compare, shift and rotate instructions (45_logic_compare_shift.md R250 to R261). -/

namespace Sys2Proof.Proofs

open Sys2Proof.Machine Sys2Proof.Laws

/-! ## Logic (R250 to R252) -/

theorem exec_and (r : Acc) (op : Operand) (s : State) :
    exec (.and r op) s = .next (loadAcc r (accRead r s &&& opRead s.wm op s) s) := rfl

theorem exec_andl (r : Acc) (k : Mem) (s : State) :
    exec (.andl r k) s = .next (loadAcc r (accRead r s &&& memOperand s.wm k s) s) := rfl

theorem exec_ora (r : Acc) (op : Operand) (s : State) :
    exec (.ora r op) s = .next (loadAcc r (accRead r s ||| opRead s.wm op s) s) := rfl

theorem exec_oral (r : Acc) (k : Mem) (s : State) :
    exec (.oral r k) s = .next (loadAcc r (accRead r s ||| memOperand s.wm k s) s) := rfl

theorem exec_eor (r : Acc) (op : Operand) (s : State) :
    exec (.eor r op) s = .next (loadAcc r (accRead r s ^^^ opRead s.wm op s) s) := rfl

theorem exec_eorl (r : Acc) (k : Mem) (s : State) :
    exec (.eorl r k) s = .next (loadAcc r (accRead r s ^^^ memOperand s.wm k s) s) := rfl

theorem loadAcc_and (r : Acc) (v : Word) (s : State) :
    loadAcc r (accRead r s &&& v) s = gotAcc r (accNum r s &&& v.toNat) s := by
  rw [loadAcc_eq, BitVec.toNat_and, accRead_toNat]

theorem loadAcc_or (r : Acc) (v : Word) (s : State) :
    loadAcc r (accRead r s ||| v) s = gotAcc r (accNum r s ||| v.toNat) s := by
  rw [loadAcc_eq, BitVec.toNat_or, accRead_toNat]

theorem loadAcc_xor (r : Acc) (v : Word) (s : State) :
    loadAcc r (accRead r s ^^^ v) s = gotAcc r (accNum r s ^^^ v.toNat) s := by
  rw [loadAcc_eq, BitVec.toNat_xor, accRead_toNat]

/-- Settles O47: each form loads the accumulator with a bitwise combination of two words, which is the same
combination of their numbers (`loadAcc_and`, `loadAcc_or`, `loadAcc_xor`). -/
theorem logicalOperations : Obligations.LogicalOperations := by
  intro r s a
  refine ⟨fun op => ?and, fun k => ?andl, fun op => ?ora, fun k => ?oral, fun op => ?eor, fun k => ?eorl⟩
  case and => rw [exec_and, loadAcc_and, opNum, wm_eq]
  case andl => rw [exec_andl, loadAcc_and, memNum, wm_eq]
  case ora => rw [exec_ora, loadAcc_or, opNum, wm_eq]
  case oral => rw [exec_oral, loadAcc_or, memNum, wm_eq]
  case eor => rw [exec_eor, loadAcc_xor, opNum, wm_eq]
  case eorl => rw [exec_eorl, loadAcc_xor, memNum, wm_eq]

/-! ## Comparisons (R253 to R255) -/

theorem exec_cmp (r : Acc) (op : Operand) (s : State) :
    exec (.cmp r op) s = .next (compareAt s.wm (accRead r s) (opRead s.wm op s) s) := rfl

theorem exec_cmpl (r : Acc) (k : Mem) (s : State) :
    exec (.cmpl r k) s = .next (compareAt s.wm (accRead r s) (memOperand s.wm k s) s) := rfl

theorem exec_cpx (op : Operand) (s : State) :
    exec (.cpx op) s = .next (compareAt s.wx (readX s) (opRead s.wx op s) s) := rfl

theorem exec_cpy (op : Operand) (s : State) :
    exec (.cpy op) s = .next (compareAt s.wx (readY s) (opRead s.wx op s) s) := rfl

/-- Settles O48: every form compares two words that fit the length, a register's number with the operand's
(`compare_eq`). -/
theorem comparisons : Obligations.Comparisons := by
  intro s compared
  have hcompare (f : Bool) {a b : Word} {n : Nat} (ha : a.toNat = n) (hn : n < span f)
      (hb : b.toNat < span f) : compareAt (widthOf f) a b s = compared f n b.toNat := by
    subst ha
    rw [compareAt, compare_eq s.ps f a b hn hb]
  refine ⟨fun r op => ?cmp, fun r k => ?cmpl, fun op => ?cpx, fun op => ?cpy⟩
  case cmp =>
    exact (exec_cmp r op s).trans
      (congrArg _ (hcompare s.ps.m (accRead_toNat r s) (low_lt _ _) (opNum_lt _ op s)))
  case cmpl =>
    exact (exec_cmpl r k s).trans
      (congrArg _ (hcompare s.ps.m (accRead_toNat r s) (low_lt _ _) (memNum_lt _ k s)))
  case cpx =>
    exact (exec_cpx op s).trans
      (congrArg _ (hcompare s.ps.x (readX_toNat s) (low_lt _ _) (opNum_lt _ op s)))
  case cpy =>
    exact (exec_cpy op s).trans
      (congrArg _ (hcompare s.ps.x (readY_toNat s) (low_lt _ _) (opNum_lt _ op s)))

/-! ## Shifts and rotates by one place (R256 to R260) -/

theorem exec_asl (tg : Target) (s : State) : exec (.asl tg) s = .next (shiftBy aslOut tg s) := rfl

theorem exec_lsr (tg : Target) (s : State) : exec (.lsr tg) s = .next (shiftBy lsrOut tg s) := rfl

theorem exec_rol (tg : Target) (s : State) : exec (.rol tg) s = .next (shiftBy rolOut tg s) := rfl

theorem exec_ror (tg : Target) (s : State) : exec (.ror tg) s = .next (shiftBy rorOut tg s) := rfl

/-- What a shift or rotate leaves, `n` being its result and `c` its carry out. -/
theorem shiftBy_modified {s : State} (hs : Memory.wf s.mem = true) (tg : Target)
    (g : Width → Word → Bool → ShiftOut) {n : Nat} {c : Bool}
    (hr : (g (widthOf s.ps.m) (targetRead tg s) s.ps.c).r.toNat = n)
    (hc : (g (widthOf s.ps.m) (targetRead tg s) s.ps.c).c = c) :
    Modified tg n { withNZ s.ps.m n s.ps with c := c } s (shiftBy g tg s) := by
  subst hr hc
  rw [shiftBy, wm_eq, Psr.setShift, setNZ_eq]
  exact targetWrite_modified hs tg _ _ _ rfl

theorem trunc_shiftLeft_one_toNat (f : Bool) (v : Word) :
    ((widthOf f).trunc (v <<< 1)).toNat = 2 * v.toNat % span f := by
  rw [trunc_toNat, ← span_eq, BitVec.toNat_shiftLeft, mod_word_span, Nat.shiftLeft_eq, Nat.mul_comm]

theorem shiftRight_one_toNat (v : Word) : (v >>> 1).toNat = v.toNat / 2 := by
  rw [BitVec.toNat_ushiftRight, Nat.shiftRight_eq_div_pow]

theorem getLsbD_zero_eq (v : Word) : v.getLsbD 0 = decide (v.toNat % 2 = 1) := by
  rw [BitVec.getLsbD, Nat.testBit_zero]

theorem carry_toNat (c : Bool) : (BitVec.ofNat 16 c.toNat).toNat = c.toNat := by cases c <;> rfl

/-- The carry that comes in at the top of a rotate to the right. -/
theorem topCarry_toNat (f c : Bool) :
    (BitVec.ofNat 16 (c.toNat * 2 ^ ((widthOf f).bits - 1))).toNat = c.toNat * (span f / 2) := by
  cases f <;> cases c <;> rfl

/-- ROL's result: the carry comes into bit 0, which the shift has left clear. -/
theorem rolOut_toNat (f : Bool) (v : Word) (c : Bool) :
    (rolOut (widthOf f) v c).r.toNat = 2 * v.toNat % span f + c.toNat := by
  have hc : c.toNat < 2 ^ 1 := Bool.toNat_lt c
  have heven : 2 * v.toNat % span f = 2 ^ 1 * (v.toNat % (span f / 2)) := by
    cases f <;> simp only [span] <;> simp <;> omega
  rw [rolOut, BitVec.toNat_or, trunc_shiftLeft_one_toNat, carry_toNat, heven,
    Nat.two_pow_add_eq_or_of_lt hc]

/-- ROR's result: the carry comes into the top bit, which the shift has left clear. -/
theorem rorOut_toNat (f : Bool) (v : Word) (c : Bool) (hv : v.toNat < span f) :
    (rorOut (widthOf f) v c).r.toNat = v.toNat / 2 + c.toNat * (span f / 2) := by
  have hhalf : span f / 2 = 2 ^ ((widthOf f).bits - 1) := by cases f <;> rfl
  have hlow : v.toNat / 2 < 2 ^ ((widthOf f).bits - 1) := by
    rw [← hhalf]
    cases f <;> simp [span] at * <;> omega
  rw [rorOut, BitVec.toNat_or, shiftRight_one_toNat, topCarry_toNat, hhalf, Nat.mul_comm c.toNat,
    Nat.or_comm, Nat.add_comm, Nat.two_pow_add_eq_or_of_lt hlow]

/-- Settles O49: the result and the carry of each shift, as numbers, in what any shift leaves
(`shiftBy_modified`). -/
theorem shiftsAndRotates : Obligations.ShiftsAndRotates := by
  intro s tg hs f v c shifted
  have hv : (targetRead tg s).toNat < span f := targetNum_lt tg s
  have htop : (widthOf f).top (targetRead tg s) = decide (span f ≤ 2 * v) := top_eq f _ hv
  have hbit : (targetRead tg s).getLsbD 0 = decide (v % 2 = 1) := getLsbD_zero_eq _
  refine ⟨⟨_, exec_asl tg s, ?asl⟩, ⟨_, exec_lsr tg s, ?lsr⟩, ⟨_, exec_rol tg s, ?rol⟩,
    ⟨_, exec_ror tg s, ?ror⟩⟩
  case asl => exact shiftBy_modified hs tg aslOut (trunc_shiftLeft_one_toNat f _) htop
  case lsr => exact shiftBy_modified hs tg lsrOut (shiftRight_one_toNat _) hbit
  case rol => exact shiftBy_modified hs tg rolOut (rolOut_toNat f _ _) htop
  case ror => exact shiftBy_modified hs tg rorOut (rorOut_toNat f _ _ hv) hbit

/-! ## Rotation by any number of places (R261) -/

/-- A number of `w` bits rotated to the left by one place, not through C. -/
def rotateOnce (w v : Nat) : Nat := 2 * v % 2 ^ w + 2 * v / 2 ^ w

theorem rotateOnce_eq {w v b r : Nat} (hv : 2 * v = 2 ^ w * b + r) (hr : r < 2 ^ w) :
    rotateOnce w v = r + b := by
  rw [rotateOnce, hv, Nat.mul_add_mod, Nat.mod_eq_of_lt hr, Nat.mul_add_div (Nat.two_pow_pos w),
    Nat.div_eq_of_lt hr, Nat.add_zero]

/-- `k` upper bits followed by `j` lower bits fit `k + j` bits. -/
theorem mul_two_pow_add_lt {k j q r : Nat} (hq : q < 2 ^ k) (hr : r < 2 ^ j) :
    q * 2 ^ j + r < 2 ^ (k + j) :=
  calc q * 2 ^ j + r < (q + 1) * 2 ^ j := by rw [Nat.succ_mul]; omega
    _ ≤ 2 ^ k * 2 ^ j := Nat.mul_le_mul_right _ hq
    _ = 2 ^ (k + j) := (Nat.pow_add 2 k j).symm

/-- After `k` rotations the upper `k` bits `q` and the lower `j` bits `r` have changed places. -/
theorem rotateOnce_iterate {k j q r : Nat} (hq : q < 2 ^ k) (hr : r < 2 ^ j) :
    (rotateOnce (k + j))^[k] (q * 2 ^ j + r) = r * 2 ^ k + q := by
  induction k generalizing j q r with
  | zero =>
    obtain rfl : q = 0 := by omega
    simp
  | succ k ih =>
    have hhalf : q / 2 < 2 ^ k := by omega
    have hlow : q % 2 * 2 ^ j + r < 2 ^ (j + 1) := by
      rw [Nat.add_comm j]
      exact mul_two_pow_add_lt (by omega) hr
    have hsplit : q * 2 ^ j + r = q / 2 * 2 ^ (j + 1) + (q % 2 * 2 ^ j + r) := by
      conv_lhs => rw [← Nat.div_add_mod q 2]
      ring
    have hsum : r * 2 ^ (k + 1) + 2 * (q / 2) < 2 ^ (k + 1 + j) := by
      rw [Nat.add_comm (k + 1)]
      exact mul_two_pow_add_lt hr (by omega)
    have hdouble : 2 * ((q % 2 * 2 ^ j + r) * 2 ^ k + q / 2) =
        2 ^ (k + 1 + j) * (q % 2) + (r * 2 ^ (k + 1) + 2 * (q / 2)) := by ring
    rw [Function.iterate_succ_apply', hsplit, Nat.add_right_comm k 1 j, Nat.add_assoc k j 1,
      ih hhalf hlow, ← Nat.add_assoc, ← Nat.add_right_comm k 1 j, rotateOnce_eq hdouble hsum,
      Nat.add_assoc, Nat.div_add_mod]

/-- The upper `k` bits of a number of `w` bits. -/
theorem div_two_pow_sub_lt {w k v : Nat} (hk : k ≤ w) (hv : v < 2 ^ w) : v / 2 ^ (w - k) < 2 ^ k :=
  Nat.div_lt_of_lt_mul (by rwa [← Nat.pow_add, Nat.sub_add_cancel hk])

/-- `k` rotations of a number of `w` bits, at most `w`: its upper `k` bits come out below the others. -/
theorem rotateOnce_iterate_of_le {w k v : Nat} (hk : k ≤ w) (hv : v < 2 ^ w) :
    (rotateOnce w)^[k] v = v % 2 ^ (w - k) * 2 ^ k + v / 2 ^ (w - k) := by
  have hw : k + (w - k) = w := Nat.add_sub_of_le hk
  have h := rotateOnce_iterate (div_two_pow_sub_lt hk hv) (Nat.mod_lt v (Nat.two_pow_pos (w - k)))
  rwa [hw, Nat.div_add_mod'] at h

/-- A full turn of `w` bits changes nothing. -/
theorem rotateOnce_isPeriodicPt {w v : Nat} (hv : v < 2 ^ w) :
    Function.IsPeriodicPt (rotateOnce w) w v := by
  rw [Function.IsPeriodicPt, Function.IsFixedPt, rotateOnce_iterate_of_le (Nat.le_refl w) hv]
  simp [Nat.mod_one]

/-- RLA's result is as many rotations by one place as it is told. -/
theorem rotateLeft_toNat (w : Width) (v : Word) (n : Nat) (hv : v.toNat < 2 ^ w.bits) :
    (rotateLeft w v n).toNat = (rotateOnce w.bits)^[n] v.toNat := by
  have hk : n % w.bits < w.bits := Nat.mod_lt n (by cases w <;> decide)
  rw [← (rotateOnce_isPeriodicPt hv).iterate_mod_apply n,
    rotateOnce_iterate_of_le hk.le hv, rotateLeft, narrow_toNat]
  generalize n % w.bits = k at hk
  have hw : w.bits - k + k = w.bits := Nat.sub_add_cancel hk.le
  have hlt := mul_two_pow_add_lt (Nat.mod_lt v.toNat (Nat.two_pow_pos (w.bits - k)))
    (div_two_pow_sub_lt hk.le hv)
  rw [hw] at hlt
  have hmod : v.toNat % 2 ^ (w.bits - k) * 2 ^ k = v.toNat * 2 ^ k % 2 ^ w.bits := by
    rw [← Nat.mul_mod_mul_right, ← Nat.pow_add, hw]
  rw [← Nat.mod_add_mod, ← hmod, Nat.mod_eq_of_lt hlt]

theorem exec_rla (imm : Word) (s : State) :
    exec (.rla imm) s =
      .next (accWrite .a (rotateLeft s.wm (accRead .a s) (s.wm.trunc imm).toNat) s) := rfl

/-- Settles O50: the model's rotation by `n mod W` places is `n` rotations by one place, since a full turn
changes nothing (`rotateLeft_toNat`). -/
theorem rotateLeftAccumulator : Obligations.RotateLeftAccumulator := by
  intro s imm f once
  have honce : once = rotateOnce (widthOf f).bits := by
    funext v
    rw [rotateOnce, ← span_eq]
  have ha : (accRead .a s).toNat < 2 ^ s.wm.bits := by
    rw [wm_eq, ← span_eq]
    exact accRead_lt .a s
  rw [exec_rla, accWrite_eq, rotateLeft_toNat _ _ _ ha, accRead_toNat, wm_eq, ← low_eq, honce]
  rfl

end Sys2Proof.Proofs
end

section
/-! PROOFS. The bit manipulation and flag instructions (46_bit_flag.md R270 to R282). -/

namespace Sys2Proof.Proofs

open Sys2Proof.Machine Sys2Proof.Laws

/-! ## Bits of a memory operand (R271, R272) -/

theorem exec_clb (k : Mem) (imm : Word) (s : State) :
    exec (.clb k imm) s = .next (writeData s.wm (effAddr k s) (memOperand s.wm k s &&& ~~~imm) s) := rfl

theorem exec_seb (k : Mem) (imm : Word) (s : State) :
    exec (.seb k imm) s = .next (writeData s.wm (effAddr k s) (memOperand s.wm k s ||| imm) s) := rfl

/-- Above bit 15, where a complement has no bits, the cleared word has none either. -/
theorem and_not_toNat_testBit (w imm : Word) (j : Nat) :
    (w &&& ~~~imm).toNat.testBit j = (w.toNat.testBit j && !imm.getLsbD j) := by
  simp only [BitVec.testBit_toNat, BitVec.getLsbD_and, BitVec.getLsbD_not]
  by_cases hj : j < 16
  · simp [hj]
  · simp [BitVec.getLsbD_of_ge w j (Nat.le_of_not_lt hj)]

theorem or_toNat_testBit (w imm : Word) (j : Nat) :
    (w ||| imm).toNat.testBit j = (w.toNat.testBit j || imm.getLsbD j) := by
  simp only [BitVec.testBit_toNat, BitVec.getLsbD_or]

/-- Settles O51: each instruction writes one datum back at the effective address
(`stores_of_exec_eq_writeData`), the operand's word with the mask's bits cleared or set. -/
theorem memoryBits : Obligations.MemoryBits := by
  intro s k imm hs
  constructor
  case left =>
    obtain ⟨t, hexec, hstores⟩ := stores_of_exec_eq_writeData hs (exec_clb k imm s) rfl
    exact ⟨_, t, and_not_toNat_testBit _ imm, hexec, hstores⟩
  case right =>
    obtain ⟨t, hexec, hstores⟩ := stores_of_exec_eq_writeData hs (exec_seb k imm s) rfl
    exact ⟨_, t, or_toNat_testBit _ imm, hexec, hstores⟩

/-! ## Flags by a mask (R273, R274) -/

theorem exec_clp (imm : Byte) (s : State) : exec (.clp imm) s = .next { s with ps := s.ps.clear imm } := rfl

theorem exec_sep (imm : Byte) (s : State) : exec (.sep imm) s = .next { s with ps := s.ps.set imm } := rfl

/-- Bits 15-11 of an image are 0 (R43). -/
theorem psr_toWord_lt (p : Psr) : p.toWord.toNat < 2048 := by
  have h := psr_toWord_ofWord_toNat p.toWord
  rw [psr_ofWord_toWord] at h
  omega

theorem psr_toWord_ofWord {w : Word} (h : w.toNat < 2048) : (Psr.ofWord w).toWord = w :=
  BitVec.eq_of_toNat_eq ((psr_toWord_ofWord_toNat w).trans (Nat.mod_eq_of_lt h))

/-- An immediate byte has no bits where the image holds IPL. -/
theorem extractLsb'_ipl_setWidth (imm : Byte) : (imm.setWidth 16).extractLsb' 8 3 = 0#3 := by
  ext j hj
  simp

/-- CLP's flags are those of the image with the mask's bits cleared. -/
theorem psr_ofWord_clear (w : Word) (imm : Byte) :
    (Psr.ofWord w).clear imm = Psr.ofWord (w &&& ~~~imm.setWidth 16) := by
  apply Psr.ext
  case ipl =>
    show w.extractLsb' 8 3 = (w &&& ~~~imm.setWidth 16).extractLsb' 8 3
    rw [BitVec.extractLsb'_and, BitVec.extractLsb'_not_of_lt (by decide), extractLsb'_ipl_setWidth,
      BitVec.not_zero, BitVec.and_allOnes]
  all_goals simp [Psr.ofWord, Psr.clear]

/-- SEP's flags are those of the image with the mask's bits set. -/
theorem psr_ofWord_set (w : Word) (imm : Byte) :
    (Psr.ofWord w).set imm = Psr.ofWord (w ||| imm.setWidth 16) := by
  apply Psr.ext
  case ipl =>
    show w.extractLsb' 8 3 = (w ||| imm.setWidth 16).extractLsb' 8 3
    rw [BitVec.extractLsb'_or, extractLsb'_ipl_setWidth, BitVec.or_zero]
  all_goals simp [Psr.ofWord, Psr.set]

theorem psr_clear_toWord (p : Psr) (imm : Byte) :
    (p.clear imm).toWord = p.toWord &&& ~~~imm.setWidth 16 := by
  have hlt : (p.toWord &&& ~~~imm.setWidth 16).toNat < 2048 := by
    rw [BitVec.toNat_and]
    exact Nat.and_le_left.trans_lt (psr_toWord_lt p)
  calc (p.clear imm).toWord = ((Psr.ofWord p.toWord).clear imm).toWord := by rw [psr_ofWord_toWord]
    _ = p.toWord &&& ~~~imm.setWidth 16 := by rw [psr_ofWord_clear, psr_toWord_ofWord hlt]

theorem psr_set_toWord (p : Psr) (imm : Byte) :
    (p.set imm).toWord = p.toWord ||| imm.setWidth 16 := by
  have himm : (imm.setWidth 16).toNat < 2 ^ 11 := by
    rw [BitVec.toNat_setWidth]
    omega
  have hlt : (p.toWord ||| imm.setWidth 16).toNat < 2 ^ 11 := by
    rw [BitVec.toNat_or]
    exact Nat.or_lt_two_pow (psr_toWord_lt p) himm
  calc (p.set imm).toWord = ((Psr.ofWord p.toWord).set imm).toWord := by rw [psr_ofWord_toWord]
    _ = p.toWord ||| imm.setWidth 16 := by rw [psr_ofWord_set, psr_toWord_ofWord hlt]

/-! ## The statement on flags (R273 to R282) -/

/-- Settles O52: the single-flag instructions and the encodings are said by the definitions; the images
after CLP and SEP are `psr_clear_toWord` and `psr_set_toWord`. -/
theorem flagInstructions : Obligations.FlagInstructions := by
  refine ⟨fun s => ⟨rfl, rfl, rfl, rfl, rfl, rfl, rfl, fun imm => ⟨?clp, ?sep⟩⟩, ?encodings⟩
  case clp => exact ⟨_, exec_clp imm s, rfl, psr_clear_toWord s.ps imm⟩
  case sep => exact ⟨_, exec_sep imm s, rfl, psr_set_toWord s.ps imm⟩
  case encodings => exact fun m x => ⟨rfl, rfl, rfl, rfl, rfl, rfl, rfl, fun imm => ⟨rfl, rfl⟩⟩

end Sys2Proof.Proofs
end

section
/-! PROOFS. The branches, calls and returns (47_branch_return.md R290 to R306). -/

namespace Sys2Proof.Proofs

open Sys2Proof.Machine Sys2Proof.Laws

/-! ## Branches (R290 to R302) -/

theorem branchIf_sx8 (taken : Bool) (rr : Byte) (s : State) :
    branchIf taken (sx8 rr) s = branched taken rr.toInt s := by
  rw [branchIf_eq, sx8_toInt]

theorem branchIf_sx16 (taken : Bool) (rel : Word) (s : State) :
    branchIf taken (sx16 rel) s = branched taken rel.toInt s := by
  rw [branchIf_eq, sx16_toInt]

/-- Every bit of the mask is 0: the test of BBC (R301). -/
theorem and_beq_zero_eq (v mask : Word) :
    (v &&& mask == 0#16) = decide (v.toNat &&& mask.toNat = 0) := by
  rw [beq_zero_eq, BitVec.toNat_and]

theorem not_and_eq_zero_iff (v mask : Word) : ~~~v &&& mask = 0#16 ↔ v &&& mask = mask := by
  simp only [BitVec.eq_of_getLsbD_eq_iff]
  refine forall₂_congr fun j hj => ?_
  simp only [BitVec.getLsbD_and, BitVec.getLsbD_not, hj, decide_true, Bool.true_and,
    BitVec.getLsbD_zero]
  cases v.getLsbD j <;> cases mask.getLsbD j <;> decide

/-- Every bit of the mask is 1: the test of BBS (R302). -/
theorem not_and_beq_zero_eq (v mask : Word) :
    (~~~v &&& mask == 0#16) = decide (v.toNat &&& mask.toNat = mask.toNat) := by
  rw [Bool.eq_iff_iff, beq_iff_eq, decide_eq_true_iff, not_and_eq_zero_iff, ← BitVec.toNat_inj,
    BitVec.toNat_and]

theorem exec_bbc (k : Mem) (imm : Word) (rr : Byte) (s : State) :
    exec (.bbc k imm rr) s =
      .next (branchIf (memOperand s.wm k s &&& s.wm.trunc imm == 0#16) (sx8 rr) s) := rfl

theorem exec_bbs (k : Mem) (imm : Word) (rr : Byte) (s : State) :
    exec (.bbs k imm rr) s =
      .next (branchIf (~~~memOperand s.wm k s &&& s.wm.trunc imm == 0#16) (sx8 rr) s) := rfl

/-- Settles O53: every rule is one relative branch (`branchIf_sx8`, `branchIf_sx16`); the tests of BBC and BBS
are said by the numbers of the operand and of the mask. -/
theorem branchResults : Obligations.BranchResults := by
  intro s rr
  have hshort (taken : Bool) :
      (.next (branchIf taken (sx8 rr) s) : Result) = .next (branched taken rr.toInt s) :=
    congrArg _ (branchIf_sx8 taken rr s)
  refine ⟨hshort _, hshort _, hshort _, hshort _, hshort _, hshort _, hshort _, hshort _, hshort _,
    fun rel => congrArg _ (branchIf_sx16 true rel s), fun k imm => ⟨?bbc, ?bbs⟩⟩
  case bbc => rw [exec_bbc, hshort, and_beq_zero_eq, wm_eq, ← low_eq, memNum]
  case bbs => rw [exec_bbs, hshort, not_and_beq_zero_eq, wm_eq, ← low_eq, memNum]

/-! ## The return address (R304, decision D3) -/

theorem retBias_congr {s t : State} (h : t.par = s.par) : retBias t = retBias s := by
  rw [retBias, retBias, h]

theorem add_retBias_toNat (p : Addr) (s : State) : (p + retBias s).toNat = biased p.toNat s := by
  rw [BitVec.toNat_add]
  unfold retBias biased
  cases s.par.retBias <;> rfl

/-- Taking the bias off a 24-bit number. -/
theorem sub_retBias_toNat (p : Addr) (s : State) :
    (p - retBias s).toNat = unbiased p.toNat s % 2 ^ 24 := by
  rw [BitVec.toNat_sub]
  unfold retBias unbiased
  cases s.par.retBias with
  | zero => simp
  | minusOne => simp; omega

/-- Taking the bias off within 16 bits. -/
theorem sub_offOf_retBias_toNat (w : Word) (s : State) :
    (w - offOf (retBias s)).toNat = unbiased w.toNat s % 65536 := by
  rw [BitVec.toNat_sub, offOf_toNat]
  unfold retBias unbiased
  cases s.par.retBias with
  | zero => simp
  | minusOne => simp; omega

theorem returnAddress_sub_retBias (s : State) : returnAddress s - retBias s = s.pc24 :=
  BitVec.add_sub_cancel _ _

theorem offOf_returnAddress_sub_retBias (s : State) :
    offOf (returnAddress s) - offOf (retBias s) = s.pc := by
  have hoff : offOf (returnAddress s) = s.pc + offOf (retBias s) := by
    rw [returnAddress, offOf, BitVec.setWidth_add _ _ (by decide)]
    exact congrArg (· + offOf (retBias s)) (offOf_mkAddr s.pg s.pc)
  rw [hoff, BitVec.add_sub_cancel]

/-- The two bytes of PC that a call pushes. -/
theorem hi8_lo8_returnAddress (s : State) :
    [hi8 (offOf (returnAddress s)), lo8 (offOf (returnAddress s))] =
      [BitVec.ofNat 8 (biased s.pc24.toNat s / 256), BitVec.ofNat 8 (biased s.pc24.toNat s)] :=
  hi8_lo8_eq_ofNat (by rw [offOf_toNat, returnAddress, add_retBias_toNat])

/-- The bank that JSRL pushes. -/
theorem bankOf_returnAddress (s : State) :
    bankOf (returnAddress s) = BitVec.ofNat 8 (biased s.pc24.toNat s / 65536) := by
  rw [← add_retBias_toNat]
  apply BitVec.eq_of_toNat_eq
  rw [bankOf_toNat, BitVec.toNat_ofNat, returnAddress]
  omega

/-! ## Calls and returns (R304 to R306) -/

/-- The state once JSR has pushed PC (R304). -/
def jsrPushed (s : State) : State := push16 (offOf (returnAddress s)) s

/-- The state once JSRL has pushed PG and PC (R304). -/
def jsrlPushed (s : State) : State :=
  push16 (offOf (returnAddress s)) (push8 (bankOf (returnAddress s)) s)

theorem exec_jsr_abs (w : Word) (s : State) :
    exec (.jsr (.abs w)) s = .next (jumpTo (mkAddr s.pg w) (jsrPushed s)) := rfl

theorem exec_jsr_indX (w : Word) (s : State) :
    exec (.jsr (.indX w)) s =
      .next (jumpTo (mkAddr s.pg (readWord (jsrPushed s) (indexedPointer w s))) (jsrPushed s)) := rfl

theorem exec_jsrl (l : Addr) (s : State) :
    exec (.jsrl l) s = .next (jumpTo l (jsrlPushed s)) := rfl

theorem exec_rts (s : State) :
    exec .rts s =
      .next (jumpTo (mkAddr s.pg (peek16 1#16 s - offOf (retBias s))) (dropStack 2#16 s)) := rfl

theorem exec_rtl (s : State) :
    exec .rtl s =
      .next (jumpTo (mkAddr (peek8 3#16 s) (peek16 1#16 s) - retBias s) (dropStack 3#16 s)) := rfl

/-- A control transfer after pushes: they stay what was pushed, and nothing else but PG :: PC changes. -/
theorem pushes_jumpTo {bytes : List Byte} {s f : State} (h : Pushes bytes s s f) (p : Addr) :
    Pushes bytes s { s with pg := bankOf p, pc := offOf p } (jumpTo p f) := by
  obtain ⟨hf, hview, -, hio⟩ := h
  exact stores_of_view (congrArg (jumpTo p) hf)
    (fun a => (busRead_congr rfl rfl rfl a).trans (hview a)) hio

/-- The same inside the bank. -/
theorem pushes_jumpTo_mkAddr {bytes : List Byte} {s f : State} (h : Pushes bytes s s f) (w : Word) :
    Pushes bytes s { s with pc := w } (jumpTo (mkAddr s.pg w) f) := by
  simpa using pushes_jumpTo h (mkAddr s.pg w)

theorem jsrPushed_pushes {s : State} (hs : Memory.wf s.mem = true) :
    Pushes [hi8 (offOf (returnAddress s)), lo8 (offOf (returnAddress s))] s s (jsrPushed s) :=
  push16_pushes hs _

/-- A 24-bit address pushed: bank, high byte, low byte. -/
theorem push24_pushes {s : State} (hs : Memory.wf s.mem = true) (p : Addr) :
    Pushes [bankOf p, hi8 (offOf p), lo8 (offOf p)] s s (push16 (offOf p) (push8 (bankOf p) s)) := by
  have hbank := push8_pushes hs (bankOf p)
  have hoff := push16_pushes (push8_wf hs (bankOf p)) (offOf p)
  have h := pushes_trans hbank hoff
  exact h

theorem jsrlPushed_pushes {s : State} (hs : Memory.wf s.mem = true) :
    Pushes [bankOf (returnAddress s), hi8 (offOf (returnAddress s)), lo8 (offOf (returnAddress s))] s s
      (jsrlPushed s) :=
  push24_pushes hs (returnAddress s)

/-- The word at a pointer, read before or after a control transfer. -/
theorem readWord_eq_wordAt_jumpTo (s : State) (a p : Addr) :
    readWord s a = BitVec.ofNat 16 (wordAt a.toNat (jumpTo p s)) := by
  apply BitVec.eq_of_toNat_eq
  have hread : wordAt a.toNat (jumpTo p s) = (readWord s a).toNat := (readWord_toNat (jumpTo p s) a).symm
  rw [hread, BitVec.toNat_ofNat, Nat.mod_eq_of_lt (readWord s a).isLt]

/-- Settles O55: a call is its pushes and then a jump (`pushes_jumpTo`), a return the jump to what lies above
S; the biased address is said as a number. -/
theorem callAndReturnResults : Obligations.CallAndReturnResults := by
  intro s hs ret pc
  have hpc : pc = [hi8 (offOf (returnAddress s)), lo8 (offOf (returnAddress s))] :=
    (hi8_lo8_returnAddress s).symm
  have hpg : BitVec.ofNat 8 (ret / 65536) = bankOf (returnAddress s) := (bankOf_returnAddress s).symm
  rw [hpc, hpg]
  refine ⟨fun w => ⟨_, exec_jsr_abs w s, pushes_jumpTo_mkAddr (jsrPushed_pushes hs) w, rfl⟩,
    fun w => ⟨_, exec_jsr_indX w s, ?jsr_indX, rfl⟩,
    fun l => ⟨_, exec_jsrl l s, pushes_jumpTo (jsrlPushed_pushes hs) l, rfl⟩, ?rts, ?rtl⟩
  case jsr_indX =>
    rw [← wordAt_indexedPointer, ← readWord_eq_wordAt_jumpTo]
    exact pushes_jumpTo_mkAddr (jsrPushed_pushes hs) _
  case rts =>
    rw [exec_rts, jumpTo_mkAddr, sub_offOf_retBias_toNat, peek16_toNat 1]
    rfl
  case rtl =>
    have hret : (mkAddr (peek8 3#16 s) (peek16 1#16 s)).toNat = stackWord 1 s + 65536 * stackByte 3 s := by
      rw [mkAddr_toNat, peek8_toNat 3, peek16_toNat 1]
      omega
    rw [exec_rtl, jumpTo_eq, sub_retBias_toNat, hret]
    rfl

/-! ## A call and its return -/

theorem peek8_of_onStack_at {bytes : List Byte} {v : State} (h : OnStack bytes v) (k : Nat) {b : Byte}
    (hb : bytes[k]? = some b) : peek8 (BitVec.ofNat 16 (k + 1)) v = b := h k b hb

theorem peek16_of_onStack_at {bytes : List Byte} {v : State} (h : OnStack bytes v) (k : Nat) {w : Word}
    (hlo : bytes[k]? = some (lo8 w)) (hhi : bytes[k + 1]? = some (hi8 w)) :
    peek16 (BitVec.ofNat 16 (k + 1)) v = w := by
  rw [peek16, ← BitVec.ofNat_add, peek8_of_onStack_at h (k + 1) hhi, peek8_of_onStack_at h k hlo,
    mkWord_hi8_lo8]

theorem Pulling.onStack {bytes : List Byte} {s v : State} (h : Pulling bytes s v) : OnStack bytes v :=
  h.2.1

theorem Pulling.par_eq {bytes : List Byte} {s v : State} (h : Pulling bytes s v) : v.par = s.par := by
  obtain ⟨⟨_, _, _, rfl⟩, -⟩ := h
  rfl

/-- With every pushed byte pulled, a jump to where PG :: PC was before the pushes undoes all but memory. -/
theorem jumpTo_dropStack_of_pulling {bytes : List Byte} {s v : State} (h : Pulling bytes s v) :
    jumpTo s.pc24 (dropStack (BitVec.ofNat 16 bytes.length) v) = { s with mem := v.mem, stale := [] } := by
  have hdrop : Pulling [] s (dropStack (BitVec.ofNat 16 bytes.length) v) :=
    Pulling.drop (by simpa using h)
  rw [hdrop.eq_of_nil]
  simp [jumpTo, State.pc24]

/-- RTS in the bank of `s`, on a stack to which a call from `s` has pushed PC. -/
theorem exec_rts_of_pulling {s v : State}
    (h : Pulling [lo8 (offOf (returnAddress s)), hi8 (offOf (returnAddress s))] s v)
    (stale : List Host.Cell) {pg : Byte} (hpg : pg = s.pg) (pc : Word) :
    exec .rts { v with pg := pg, pc := pc, stale := stale } =
      .next { s with mem := v.mem, stale := [] } := by
  subst hpg
  have hpc : peek16 1#16 v = offOf (returnAddress s) := peek16_of_onStack_at h.onStack 0 rfl rfl
  have htarget : mkAddr s.pg (peek16 1#16 v - offOf (retBias v)) = s.pc24 := by
    rw [hpc, retBias_congr h.par_eq, offOf_returnAddress_sub_retBias, State.pc24]
  rw [← jumpTo_dropStack_of_pulling h, ← htarget]
  rfl

/-- RTL from anywhere, on a stack to which a call from `s` has pushed PC and PG. -/
theorem exec_rtl_of_pulling {s v : State}
    (h : Pulling [lo8 (offOf (returnAddress s)), hi8 (offOf (returnAddress s)), bankOf (returnAddress s)] s v)
    (stale : List Host.Cell) (pg : Byte) (pc : Word) :
    exec .rtl { v with pg := pg, pc := pc, stale := stale } =
      .next { s with mem := v.mem, stale := [] } := by
  have hpc : peek16 1#16 v = offOf (returnAddress s) := peek16_of_onStack_at h.onStack 0 rfl rfl
  have hpg : peek8 3#16 v = bankOf (returnAddress s) := peek8_of_onStack_at h.onStack 2 rfl
  have htarget : mkAddr (peek8 3#16 v) (peek16 1#16 v) - retBias v = s.pc24 := by
    rw [hpc, hpg, mkAddr_bankOf_offOf, retBias_congr h.par_eq, returnAddress_sub_retBias]
  rw [← jumpTo_dropStack_of_pulling h, ← htarget]
  rfl

theorem jsrPushed_pulling {s : State} (hs : Memory.wf s.mem = true) (hram : StackIsRam s) :
    Pulling [lo8 (offOf (returnAddress s)), hi8 (offOf (returnAddress s))] s (jsrPushed s) := by
  have h := pulling_of_pushes (jsrPushed_pushes hs) hram (by simp)
  exact h

theorem jsrlPushed_pulling {s : State} (hs : Memory.wf s.mem = true) (hram : StackIsRam s) :
    Pulling [lo8 (offOf (returnAddress s)), hi8 (offOf (returnAddress s)), bankOf (returnAddress s)] s
      (jsrlPushed s) := by
  have h := pulling_of_pushes (jsrlPushed_pushes hs) hram (by simp)
  exact h

/-- JSR, in each of its forms, is its push and a jump inside the bank. -/
theorem exec_jsr_eq (j : JsrOperand) (s : State) :
    ∃ w, exec (.jsr j) s = .next (jumpTo (mkAddr s.pg w) (jsrPushed s)) := by
  cases j with
  | abs w => exact ⟨w, exec_jsr_abs w s⟩
  | indX w => exact ⟨_, exec_jsr_indX w s⟩

/-- Settles O56: the return takes off the stack what the call pushed (`jsrPushed_pulling`,
`jsrlPushed_pulling`), and its target is the address that the call had biased (`exec_rts_of_pulling`,
`exec_rtl_of_pulling`). -/
theorem callReturnsToCaller : Obligations.CallReturnsToCaller := by
  intro s t u pc pg hs hram
  refine ⟨fun j hcall hret => ?rts, fun l hcall hret => ?rtl⟩
  case rts =>
    obtain ⟨w, hjsr⟩ := exec_jsr_eq j s
    obtain rfl : jumpTo (mkAddr s.pg w) (jsrPushed s) = t := by simpa [hcall] using hjsr.symm
    have hrts := exec_rts_of_pulling (jsrPushed_pulling hs hram) [] (bankOf_mkAddr s.pg w) pc
    obtain rfl : _ = u := Host.Outcome.next.inj (hrts.symm.trans hret)
    rfl
  case rtl =>
    obtain rfl : jumpTo l (jsrlPushed s) = t := by simpa [hcall] using (exec_jsrl l s).symm
    have hrtl := exec_rtl_of_pulling (jsrlPushed_pulling hs hram) [] pg pc
    obtain rfl : _ = u := Host.Outcome.next.inj (hrtl.symm.trans hret)
    rfl

end Sys2Proof.Proofs
end

section
/-! PROOFS. NOP, STP, WIT, BRK and RTI, and division by zero (44_arithmetic.md R240; 47_branch_return.md R307;
48_interrupt_special_other.md R320 to R323; 60_exceptions.md R340 to R342, R347). -/

namespace Sys2Proof.Proofs

open Sys2Proof.Machine Sys2Proof.Laws

/-! ## NOP, STP and WIT (R321 to R323) -/

/-- Settles O59: each rule and each encoding is the definition's own line. -/
theorem nopStopAndWait : Obligations.NopStopAndWait :=
  ⟨fun _ => ⟨rfl, rfl, rfl⟩, fun _ _ => ⟨rfl, rfl, rfl⟩⟩

/-! ## BRK and RTI (R307, R320, R341, R347) -/

theorem exec_brk (nn : Byte) (s : State) :
    exec (.brk nn) s = .next (enterException s.pc24 0xFFFA#16 none s) := rfl

theorem exec_rti (s : State) : exec .rti s = .next (returnException s) := rfl

/-- The entry sequence that sets no level keeps IPL (R340 to R342). -/
theorem enterException_none_entered {s : State} (hs : Memory.wf s.mem = true) (ret : Addr) (vector : Word) :
    Entered ret vector s.ps.ipl s (enterException ret vector none s) :=
  enterException_entered hs ret vector none

/-- The return from an exception as numbers: PS, PC and PG are the five bytes above S. -/
theorem returnException_eq (s : State) :
    returnException s =
      goTo (stackWord 3 s + 65536 * stackByte 5 s)
        { s with ps := Psr.ofWord (BitVec.ofNat 16 (stackWord 1 s)), sp := s.sp + 5#16 } := by
  have htarget : (mkAddr (peek8 5#16 s) (peek16 3#16 s)).toNat = stackWord 3 s + 65536 * stackByte 5 s := by
    rw [mkAddr_toNat, peek8_toNat 5, peek16_toNat 3]
    omega
  rw [returnException, jumpTo_eq, htarget, peek16_eq 1]
  rfl

/-- Settles O57: BRK's rule is the entry sequence, RTI's the return from an exception. -/
theorem breakAndReturnResults : Obligations.BreakAndReturnResults := by
  intro s hs
  refine ⟨fun nn => ⟨_, exec_brk nn s, enterException_none_entered hs s.pc24 _⟩, ?rti⟩
  rw [exec_rti, returnException_eq]

theorem pushFrame_pulling {s : State} (hs : Memory.wf s.mem = true) (hram : StackIsRam s) (ret : Addr) :
    Pulling [lo8 s.ps.toWord, hi8 s.ps.toWord, lo8 (offOf ret), hi8 (offOf ret), bankOf ret] s
      (pushFrame ret s) := by
  have h := pulling_of_pushes (pushFrame_pushes hs ret) hram (by simp)
  exact h

/-- The return from an exception, from anywhere and with whatever status, on a stack to which an entry
sequence in `s` has pushed its frame. -/
theorem returnException_of_pulling {s v : State}
    (h : Pulling [lo8 s.ps.toWord, hi8 s.ps.toWord, lo8 s.pc, hi8 s.pc, s.pg] s v)
    (stale : List Host.Cell) (run : RunState) (pg : Byte) (pc : Word) (ps : Psr) :
    returnException { v with pg := pg, pc := pc, ps := ps, run := run, stale := stale } =
      { s with mem := v.mem, stale := [], run := run } := by
  have hps : Psr.ofWord (peek16 1#16 v) = s.ps := by
    rw [peek16_of_onStack_at (w := s.ps.toWord) h.onStack 0 rfl rfl, psr_ofWord_toWord]
  have htarget : mkAddr (peek8 5#16 v) (peek16 3#16 v) = s.pc24 := by
    rw [peek8_of_onStack_at h.onStack 4 rfl, peek16_of_onStack_at (w := s.pc) h.onStack 2 rfl rfl, State.pc24]
  calc returnException { v with pg := pg, pc := pc, ps := ps, run := run, stale := stale }
      = { jumpTo (mkAddr (peek8 5#16 v) (peek16 3#16 v)) (dropStack 5#16 v) with
          ps := Psr.ofWord (peek16 1#16 v), run := run } := rfl
    _ = { jumpTo s.pc24 (dropStack 5#16 v) with ps := s.ps, run := run } := by rw [hps, htarget]
    _ = { s with mem := v.mem, stale := [], run := run } :=
      congrArg (fun u : State => { u with ps := s.ps, run := run }) (jumpTo_dropStack_of_pulling h)

/-- Settles O58: the frame of the entry lies on the stack (`pushFrame_pulling`), and RTI takes it off again
(`returnException_of_pulling`). -/
theorem handlerReturnsToInterrupted : Obligations.HandlerReturnsToInterrupted := by
  intro s t u nn pc pg ps hs hram hbrk hrti
  obtain rfl : enterException s.pc24 0xFFFA#16 none s = t := by simpa [hbrk] using (exec_brk nn s).symm
  have hframe := pushFrame_pulling hs hram s.pc24
  rw [State.pc24, bankOf_mkAddr, offOf_mkAddr] at hframe
  have hback := returnException_of_pulling hframe [] .running pg pc ps
  obtain rfl : _ = u := (hback.symm.trans (Host.Outcome.next.inj hrti) :)
  rfl

/-! ## Division by zero (R240, R342) -/

theorem divide_of_zero {v : Word} (hv : v.toNat = 0) (s : State) :
    divide v s = enterException s.pc24 s.par.vecZeroDiv none s :=
  if_pos (BitVec.eq_of_toNat_eq hv)

/-- Settles O46: a zero divisor takes the branch of the entry sequence (`divide_of_zero`), which sets no
level. -/
theorem zeroDivision : Obligations.ZeroDivision := by
  intro s hs
  have hzero {v : Word} (hv : v.toNat = 0) :
      Entered s.pc24 s.par.vecZeroDiv s.ps.ipl s (divide v s) := by
    rw [divide_of_zero hv]
    exact enterException_none_entered hs s.pc24 _
  exact ⟨fun op h => ⟨_, exec_div op s, hzero h⟩, fun k h => ⟨_, exec_divl k s, hzero h⟩⟩

end Sys2Proof.Proofs
end

section
/-! PROOFS. The choice and the acceptance of a request, and what an instruction and a step can end in
(60_exceptions.md R331, R332, R336, R337, R340, R343). -/

namespace Sys2Proof.Proofs

open Sys2Proof.Machine Sys2Proof.Laws

/-! ## The choice of a request (R336, R337) -/

theorem mem_candidates (s : State) (r : Request) : r ∈ candidates s ↔ r ∈ s.pending ∧ Passes s r := by
  rw [candidates, List.mem_filter, acceptable_iff_passes]

theorem rank_le_topRank {r : Request} : ∀ {l : List Request}, r ∈ l → r.level.rank ≤ topRank l
  | q :: l, h => by
    rw [topRank]
    obtain rfl | h := List.mem_cons.1 h
    · exact Nat.le_max_left _ _
    · exact (rank_le_topRank h).trans (Nat.le_max_right _ _)

/-- Some request of a list that has one reaches the highest rank. -/
theorem exists_rank_eq_topRank : ∀ {l : List Request}, l ≠ [] → ∃ r ∈ l, r.level.rank = topRank l
  | [r], _ => ⟨r, by simp, by simp [topRank]⟩
  | r :: q :: l, _ => by
    obtain ⟨p, hp, hrank⟩ := exists_rank_eq_topRank (l := q :: l) (by simp)
    rw [topRank, ← hrank]
    obtain h | h := Nat.le_total r.level.rank p.level.rank
    · exact ⟨p, List.mem_cons_of_mem r hp, (Nat.max_eq_right h).symm⟩
    · exact ⟨r, List.mem_cons_self, (Nat.max_eq_left h).symm⟩

theorem mem_finalists (s : State) (r : Request) :
    r ∈ finalists s ↔ r ∈ candidates s ∧ r.level.rank = topRank (candidates s) := by
  rw [finalists, List.mem_filter, beq_iff_eq]

/-- There is a finalist where there is a candidate. -/
theorem finalists_eq_nil_iff (s : State) : finalists s = [] ↔ candidates s = [] := by
  refine ⟨fun h => ?_, fun h => by rw [finalists, h]; rfl⟩
  by_contra hne
  obtain ⟨r, hr, hrank⟩ := exists_rank_eq_topRank hne
  have hmem : r ∈ finalists s := (mem_finalists s r).2 ⟨hr, hrank⟩
  simp [h] at hmem

theorem chooseRequest_eq_none_iff (s : State) : chooseRequest s = none ↔ finalists s = [] := by
  rw [chooseRequest]
  split
  · next hf => simp [hf]
  · next hf => simp [hf]
  · next r q rest hf =>
    have hlt : Config.tieChoice s.draws % (rest.length + 2) < (r :: q :: rest).length :=
      Nat.mod_lt _ (by simp)
    simp [hf, List.getElem?_eq_getElem hlt]

theorem mem_finalists_of_chooseRequest {s : State} {r : Request} (h : chooseRequest s = some r) :
    r ∈ finalists s := by
  rw [chooseRequest] at h
  split at h
  · cases h
  · next q hf => rw [hf, ← Option.some.inj h]; exact List.mem_singleton_self q
  · next hf => rw [hf]; exact List.mem_of_getElem? h

/-- The watchdog ranks above every level (R337). -/
theorem rank_maskable_lt (l : BitVec 3) : (Level.maskable l).rank < Level.nonmaskable.rank := l.isLt

/-- Settles O7: a finalist is chosen where there is a candidate, and no candidate is of higher rank than a
finalist (`rank_le_topRank`). -/
theorem chosenRequestIsHighest : Obligations.ChosenRequestIsHighest := by
  intro s
  refine ⟨?none, fun r hr => ?some⟩
  case none =>
    rw [chooseRequest_eq_none_iff, finalists_eq_nil_iff, List.eq_nil_iff_forall_not_mem]
    simp only [mem_candidates, not_and]
  case some =>
    obtain ⟨hcand, htop⟩ := (mem_finalists s r).1 (mem_finalists_of_chooseRequest hr)
    obtain ⟨hmem, hpass⟩ := (mem_candidates s r).1 hcand
    refine ⟨hmem, hpass, fun q hq hqpass => ?_⟩
    have hle : q.level.rank ≤ r.level.rank := htop ▸ rank_le_topRank ((mem_candidates s q).2 ⟨hq, hqpass⟩)
    refine ⟨fun hnon => ?_, fun l l' hl hl' => ?_⟩
    · cases hlevel : r.level with
      | nonmaskable => rfl
      | maskable l =>
        rw [hnon, hlevel] at hle
        exact absurd hle (rank_maskable_lt l).not_ge
    · rwa [hl, hl'] at hle

/-! ## The acceptance of a request (R340, R343) -/

theorem boundary_mem (s : State) : (boundary s).mem = s.mem := platformMoves_mem _ _

theorem step_of_chosen {s : State} {r : Request} (hreset : resetAsserted s = false)
    (hchoose : chooseRequest (boundary s) = some r) : step s = .next (acceptRequest r (boundary s)) := by
  simp [step, hreset, cpuStep, hchoose]

/-- Settles O6: the step accepts the request (`step_of_chosen`), whose entry is `enterException_entered` from
the boundary state; its memory is that of `s`. -/
theorem stepAcceptsRequest : Obligations.StepAcceptsRequest := by
  intro s r hreset hchoose hs
  have hwf : Memory.wf (boundary s).mem = true := (boundary_mem s).symm ▸ hs
  refine ⟨enterException (boundary s).pc24 r.vector (some (levelIpl (boundary s) r.level)) (boundary s),
    levelIpl (boundary s) r.level, fun l hl => ?_, fun hl => ?_, enterException_entered hwf _ _ _, ?_⟩
  · rw [hl, levelIpl]
  · rw [hl, levelIpl, boundary_par]
  · rw [step_of_chosen hreset hchoose, acceptRequest, enterException_draws]
    rfl

/-! ## What an instruction and a step can end in (R331, R332) -/

/-- Settles O13: every arm of the dispatch answers a next state; those of JMP, JMPL and JSR do so in each of
their addressing modes. -/
theorem everyInstructionCompletes : Obligations.EveryInstructionCompletes := by
  intro i s
  cases i with
  | jmp op | jmpl op | jsr op => cases op <;> exact ⟨_, rfl⟩
  | _ => exact ⟨_, rfl⟩

/-- Settles O14: of the cases of the step only an undefined encoding answers no next state, since every
instruction completes. -/
theorem stepOnlyStopsOnUndefined : Obligations.StepOnlyStopsOnUndefined := by
  intro s
  obtain ⟨-, hstep⟩ | ⟨-, ⟨r, -, hstep⟩ | ⟨-, -, hstep⟩ | ⟨-, -, ⟨e, hdecode, hstep⟩ | ⟨i, len, -, hstep⟩⟩⟩ :=
    step_cases s
  case inl | inr.inl | inr.inr.inl => exact .inl ⟨_, hstep⟩
  case inr.inr.inr.inl => exact .inr ⟨e, hdecode, hstep⟩
  case inr.inr.inr.inr =>
    obtain ⟨t, hexec⟩ := everyInstructionCompletes i (enterInstr len (boundary s))
    exact .inl ⟨t, hstep.trans hexec⟩

end Sys2Proof.Proofs
end
